-- ==== Sys2Proof/Word.lean ====
section
/-! DEFINITION. The two word types of the core (spec/00_scope.md R4, R6): bytes of 8 bits and addresses of 16 bits.
Arithmetic on them is `BitVec` arithmetic, which is the `mod 256` and `mod 65536` of the rules. -/

namespace Sys2Proof

/-- A register A, X, Y, S or P, and a byte of memory: 8 bits (R4). -/
abbrev Byte := BitVec 8

/-- PC and every address: 16 bits (R4). -/
abbrev Word := BitVec 16

end Sys2Proof
end

