-- ==== Sys2Proof/Config.lean ====
section
/-! DEFINITION. What is fixed for the machine: the types of the three decode tables (spec/30_encoding.md R54 to R56),
what a byte of memory that nothing has written reads as, and the open power-on values (spec/10_state.md R27). The other
parameters of spec/00_scope.md R4 are `Config.opcodeMap` (Decode.lean) and the bus (Machine/Bus.lean). -/

namespace Sys2Proof

/-- The 56 mnemonics (R56). -/
inductive Mnemonic where
  | clc | cld | cli | clv | sec | sed | sei | dex | dey | inx | iny | tax | tay | txa | tya | tsx | txs | nop
  | pha | php | pla | plp | brk | rti | rts
  | bcc | bcs | bne | beq | bpl | bmi | bvc | bvs
  | adc | sbc | and | eor | ora | bit | cmp | cpx | cpy | lda | ldx | ldy
  | jmp | jsr | inc | dec | sta | stx | sty
  | asl | lsr | rol | ror
  deriving DecidableEq, Repr

/-- The 13 addressing modes (R55). -/
inductive Mode where
  | implied | accumulator | immediate | zeroPage | zeroPageX | zeroPageY | relative
  | absolute | absoluteX | absoluteY | indirect | indirectX | indirectY
  deriving DecidableEq, Repr

/-- The five categories of a mnemonic (R56; five, not four: C4 of spec/90_conflicts.md). -/
inductive Category where
  | command | branch | argument | memoryWrite | accumulatorWrite
  deriving DecidableEq, Repr

/-- A row of the opcode table: opcode byte, mnemonic, addressing mode, base cycle count (R54, R57). -/
structure DecodeEntry where
  opcode   : Byte
  mnemonic : Mnemonic
  mode     : Mode
  cycles   : Byte
  deriving DecidableEq, Repr

/-- What a byte of memory reads as when nothing has written it. DESIGN CHOICE (log 2), unsafe: the spec gives memory
no initial content (N23, U5). -/
abbrev Config.unwrittenByte : Byte := 0x00

/-- The registers A, X, Y, S, P (numbered 0 to 4) before the first RESET: any values (R27, D2, U4). No body: nothing
can be proved of them. Safe (log 6). -/
opaque Config.powerOnByte : Nat → Byte

/-- PC before the first RESET: any value (R27, D2, U4). Safe (log 6). -/
opaque Config.powerOnPC : Word

end Sys2Proof
end

