-- ==== Sys2Proof/WellFormed.lean ====
section
/-! DEFINITION. Well-formedness. Every value of every operand of `Instr` is legal for its mode (spec/30_encoding.md
R59), and `Instr` has a constructor for each legal pair of mnemonic and mode only, so no term of `Instr` is ill-formed.
What can be ill-formed is a decode table (R60, U3 of spec/93_implementation_defined.md): these checks refuse one. -/

namespace Sys2Proof

/-- The mnemonic category table (R54 (c), R56). -/
def Mnemonic.category : Mnemonic → Category
  | .clc | .cld | .cli | .clv | .sec | .sed | .sei => .command
  | .dex | .dey | .inx | .iny => .command
  | .tax | .tay | .txa | .tya | .tsx | .txs | .nop => .command
  | .pha | .php | .pla | .plp | .brk | .rti | .rts => .command
  | .bcc | .bcs | .bne | .beq | .bpl | .bmi | .bvc | .bvs => .branch
  | .adc | .sbc | .and | .eor | .ora | .bit => .argument
  | .cmp | .cpx | .cpy | .lda | .ldx | .ldy => .argument
  | .jmp | .jsr | .inc | .dec | .sta | .stx | .sty => .memoryWrite
  | .asl | .lsr | .rol | .ror => .accumulatorWrite

/-- Does the mode yield an effective address (the kind `Addr(ea)` of R68)? -/
def Mode.yieldsAddress : Mode → Bool
  | .zeroPage | .zeroPageX | .zeroPageY | .absolute | .absoluteX | .absoluteY => true
  | .indirect | .indirectX | .indirectY => true
  | .implied | .accumulator | .immediate | .relative => false

/-- The pairings of category and mode that the dispatch of spec/40_dispatch_and_addressing.md R82 accepts. -/
def Category.fits (c : Category) (m : Mode) : Bool :=
  match c with
  | .command          => m == .implied
  | .branch           => m == .relative
  | .argument         => m == .immediate || m.yieldsAddress
  | .memoryWrite      => m.yieldsAddress
  | .accumulatorWrite => m == .accumulator || m.yieldsAddress

/-- A decode entry is well-formed: its category fits its mode (R60) and its base cycle count is 2 to 7 (R57, R84). -/
def DecodeEntry.wf (e : DecodeEntry) : Bool :=
  e.mnemonic.category.fits e.mode && decide (2 ≤ e.cycles.toNat) && decide (e.cycles.toNat ≤ 7)

/-- No opcode byte has two entries. -/
def distinctOpcodes : List DecodeEntry → Bool
  | []      => true
  | e :: es => es.all (fun e' => e'.opcode != e.opcode) && distinctOpcodes es

/-- The check R60 asks of a table taken as a parameter. -/
def tableWf (t : List DecodeEntry) : Bool :=
  t.all DecodeEntry.wf && distinctOpcodes t

/-- The configuration value `OPCODE_MAP` with `BASE_CYCLES` (R4, U9): any decode table that passes the check of R60. A
table that fails it is no opcode map (log 22). -/
structure OpcodeMap where
  entries : List DecodeEntry
  wf      : tableWf entries = true

/-- Take a table as the parameter: a table that fails the check is refused (R60). -/
def OpcodeMap.ofTable (t : List DecodeEntry) : Option OpcodeMap :=
  if h : tableWf t = true then some ⟨t, h⟩ else none

end Sys2Proof
end

