-- ==== Sys2Proof/Decode.lean ====
section
/-! DEFINITION. Decoding (spec/30_encoding.md): the opcode table, the operand byte counts, the decoder, total on any
bytes and rejecting by name, and the encoder. -/

namespace Sys2Proof

/-- `{hi, lo}`: the 16-bit word `hi * 256 + lo` (spec/00_scope.md R6, spec/20_memory.md R32). -/
def mkWord (hi lo : Byte) : Word :=
  BitVec.ofNat 16 (hi.toNat * 256 + lo.toNat)

/-- Bits 15 to 8 of a word. -/
def hiByte (w : Word) : Byte :=
  w.extractLsb' 8 8

/-- Bits 7 to 0 of a word. -/
def loByte (w : Word) : Byte :=
  w.extractLsb' 0 8

/-- "Operand byte count per mode" (R51). -/
def Mode.operandBytes : Mode → Nat
  | .implied | .accumulator => 0
  | .immediate | .zeroPage | .zeroPageX | .zeroPageY | .relative | .indirectX | .indirectY => 1
  | .absolute | .absoluteX | .absoluteY | .indirect => 2

/-- Row 0x of the opcode map of R57. -/
def opcodeRow0 : List DecodeEntry := [
  ⟨0x00, .brk, .implied, 7⟩,
  ⟨0x01, .ora, .indirectX, 6⟩,
  ⟨0x05, .ora, .zeroPage, 3⟩,
  ⟨0x06, .asl, .zeroPage, 5⟩,
  ⟨0x08, .php, .implied, 3⟩,
  ⟨0x09, .ora, .immediate, 2⟩,
  ⟨0x0A, .asl, .accumulator, 2⟩,
  ⟨0x0D, .ora, .absolute, 4⟩,
  ⟨0x0E, .asl, .absolute, 6⟩]

/-- Row 1x of the opcode map of R57. -/
def opcodeRow1 : List DecodeEntry := [
  ⟨0x10, .bpl, .relative, 2⟩,
  ⟨0x11, .ora, .indirectY, 5⟩,
  ⟨0x15, .ora, .zeroPageX, 4⟩,
  ⟨0x16, .asl, .zeroPageX, 6⟩,
  ⟨0x18, .clc, .implied, 2⟩,
  ⟨0x19, .ora, .absoluteY, 4⟩,
  ⟨0x1D, .ora, .absoluteX, 4⟩,
  ⟨0x1E, .asl, .absoluteX, 7⟩]

/-- Row 2x of the opcode map of R57. -/
def opcodeRow2 : List DecodeEntry := [
  ⟨0x20, .jsr, .absolute, 6⟩,
  ⟨0x21, .and, .indirectX, 6⟩,
  ⟨0x24, .bit, .zeroPage, 3⟩,
  ⟨0x25, .and, .zeroPage, 3⟩,
  ⟨0x26, .rol, .zeroPage, 5⟩,
  ⟨0x28, .plp, .implied, 4⟩,
  ⟨0x29, .and, .immediate, 2⟩,
  ⟨0x2A, .rol, .accumulator, 2⟩,
  ⟨0x2C, .bit, .absolute, 4⟩,
  ⟨0x2D, .and, .absolute, 4⟩,
  ⟨0x2E, .rol, .absolute, 6⟩]

/-- Row 3x of the opcode map of R57. -/
def opcodeRow3 : List DecodeEntry := [
  ⟨0x30, .bmi, .relative, 2⟩,
  ⟨0x31, .and, .indirectY, 5⟩,
  ⟨0x35, .and, .zeroPageX, 4⟩,
  ⟨0x36, .rol, .zeroPageX, 6⟩,
  ⟨0x38, .sec, .implied, 2⟩,
  ⟨0x39, .and, .absoluteY, 4⟩,
  ⟨0x3D, .and, .absoluteX, 4⟩,
  ⟨0x3E, .rol, .absoluteX, 7⟩]

/-- Row 4x of the opcode map of R57. -/
def opcodeRow4 : List DecodeEntry := [
  ⟨0x40, .rti, .implied, 6⟩,
  ⟨0x41, .eor, .indirectX, 6⟩,
  ⟨0x45, .eor, .zeroPage, 3⟩,
  ⟨0x46, .lsr, .zeroPage, 5⟩,
  ⟨0x48, .pha, .implied, 3⟩,
  ⟨0x49, .eor, .immediate, 2⟩,
  ⟨0x4A, .lsr, .accumulator, 2⟩,
  ⟨0x4C, .jmp, .absolute, 3⟩,
  ⟨0x4D, .eor, .absolute, 4⟩,
  ⟨0x4E, .lsr, .absolute, 6⟩]

/-- Row 5x of the opcode map of R57. -/
def opcodeRow5 : List DecodeEntry := [
  ⟨0x50, .bvc, .relative, 2⟩,
  ⟨0x51, .eor, .indirectY, 5⟩,
  ⟨0x55, .eor, .zeroPageX, 4⟩,
  ⟨0x56, .lsr, .zeroPageX, 6⟩,
  ⟨0x58, .cli, .implied, 2⟩,
  ⟨0x59, .eor, .absoluteY, 4⟩,
  ⟨0x5D, .eor, .absoluteX, 4⟩,
  ⟨0x5E, .lsr, .absoluteX, 7⟩]

/-- Row 6x of the opcode map of R57. -/
def opcodeRow6 : List DecodeEntry := [
  ⟨0x60, .rts, .implied, 6⟩,
  ⟨0x61, .adc, .indirectX, 6⟩,
  ⟨0x65, .adc, .zeroPage, 3⟩,
  ⟨0x66, .ror, .zeroPage, 5⟩,
  ⟨0x68, .pla, .implied, 4⟩,
  ⟨0x69, .adc, .immediate, 2⟩,
  ⟨0x6A, .ror, .accumulator, 2⟩,
  ⟨0x6C, .jmp, .indirect, 5⟩,
  ⟨0x6D, .adc, .absolute, 4⟩,
  ⟨0x6E, .ror, .absolute, 6⟩]

/-- Row 7x of the opcode map of R57. -/
def opcodeRow7 : List DecodeEntry := [
  ⟨0x70, .bvs, .relative, 2⟩,
  ⟨0x71, .adc, .indirectY, 5⟩,
  ⟨0x75, .adc, .zeroPageX, 4⟩,
  ⟨0x76, .ror, .zeroPageX, 6⟩,
  ⟨0x78, .sei, .implied, 2⟩,
  ⟨0x79, .adc, .absoluteY, 4⟩,
  ⟨0x7D, .adc, .absoluteX, 4⟩,
  ⟨0x7E, .ror, .absoluteX, 7⟩]

/-- Row 8x of the opcode map of R57. -/
def opcodeRow8 : List DecodeEntry := [
  ⟨0x81, .sta, .indirectX, 6⟩,
  ⟨0x84, .sty, .zeroPage, 3⟩,
  ⟨0x85, .sta, .zeroPage, 3⟩,
  ⟨0x86, .stx, .zeroPage, 3⟩,
  ⟨0x88, .dey, .implied, 2⟩,
  ⟨0x8A, .txa, .implied, 2⟩,
  ⟨0x8C, .sty, .absolute, 4⟩,
  ⟨0x8D, .sta, .absolute, 4⟩,
  ⟨0x8E, .stx, .absolute, 4⟩]

/-- Row 9x of the opcode map of R57. -/
def opcodeRow9 : List DecodeEntry := [
  ⟨0x90, .bcc, .relative, 2⟩,
  ⟨0x91, .sta, .indirectY, 6⟩,
  ⟨0x94, .sty, .zeroPageX, 4⟩,
  ⟨0x95, .sta, .zeroPageX, 4⟩,
  ⟨0x96, .stx, .zeroPageY, 4⟩,
  ⟨0x98, .tya, .implied, 2⟩,
  ⟨0x99, .sta, .absoluteY, 5⟩,
  ⟨0x9A, .txs, .implied, 2⟩,
  ⟨0x9D, .sta, .absoluteX, 5⟩]

/-- Row Ax of the opcode map of R57. -/
def opcodeRowA : List DecodeEntry := [
  ⟨0xA0, .ldy, .immediate, 2⟩,
  ⟨0xA1, .lda, .indirectX, 6⟩,
  ⟨0xA2, .ldx, .immediate, 2⟩,
  ⟨0xA4, .ldy, .zeroPage, 3⟩,
  ⟨0xA5, .lda, .zeroPage, 3⟩,
  ⟨0xA6, .ldx, .zeroPage, 3⟩,
  ⟨0xA8, .tay, .implied, 2⟩,
  ⟨0xA9, .lda, .immediate, 2⟩,
  ⟨0xAA, .tax, .implied, 2⟩,
  ⟨0xAC, .ldy, .absolute, 4⟩,
  ⟨0xAD, .lda, .absolute, 4⟩,
  ⟨0xAE, .ldx, .absolute, 4⟩]

/-- Row Bx of the opcode map of R57. -/
def opcodeRowB : List DecodeEntry := [
  ⟨0xB0, .bcs, .relative, 2⟩,
  ⟨0xB1, .lda, .indirectY, 5⟩,
  ⟨0xB4, .ldy, .zeroPageX, 4⟩,
  ⟨0xB5, .lda, .zeroPageX, 4⟩,
  ⟨0xB6, .ldx, .zeroPageY, 4⟩,
  ⟨0xB8, .clv, .implied, 2⟩,
  ⟨0xB9, .lda, .absoluteY, 4⟩,
  ⟨0xBA, .tsx, .implied, 2⟩,
  ⟨0xBC, .ldy, .absoluteX, 4⟩,
  ⟨0xBD, .lda, .absoluteX, 4⟩,
  ⟨0xBE, .ldx, .absoluteY, 4⟩]

/-- Row Cx of the opcode map of R57. -/
def opcodeRowC : List DecodeEntry := [
  ⟨0xC0, .cpy, .immediate, 2⟩,
  ⟨0xC1, .cmp, .indirectX, 6⟩,
  ⟨0xC4, .cpy, .zeroPage, 3⟩,
  ⟨0xC5, .cmp, .zeroPage, 3⟩,
  ⟨0xC6, .dec, .zeroPage, 5⟩,
  ⟨0xC8, .iny, .implied, 2⟩,
  ⟨0xC9, .cmp, .immediate, 2⟩,
  ⟨0xCA, .dex, .implied, 2⟩,
  ⟨0xCC, .cpy, .absolute, 4⟩,
  ⟨0xCD, .cmp, .absolute, 4⟩,
  ⟨0xCE, .dec, .absolute, 6⟩]

/-- Row Dx of the opcode map of R57. -/
def opcodeRowD : List DecodeEntry := [
  ⟨0xD0, .bne, .relative, 2⟩,
  ⟨0xD1, .cmp, .indirectY, 5⟩,
  ⟨0xD5, .cmp, .zeroPageX, 4⟩,
  ⟨0xD6, .dec, .zeroPageX, 6⟩,
  ⟨0xD8, .cld, .implied, 2⟩,
  ⟨0xD9, .cmp, .absoluteY, 4⟩,
  ⟨0xDD, .cmp, .absoluteX, 4⟩,
  ⟨0xDE, .dec, .absoluteX, 7⟩]

/-- Row Ex of the opcode map of R57. -/
def opcodeRowE : List DecodeEntry := [
  ⟨0xE0, .cpx, .immediate, 2⟩,
  ⟨0xE1, .sbc, .indirectX, 6⟩,
  ⟨0xE4, .cpx, .zeroPage, 3⟩,
  ⟨0xE5, .sbc, .zeroPage, 3⟩,
  ⟨0xE6, .inc, .zeroPage, 5⟩,
  ⟨0xE8, .inx, .implied, 2⟩,
  ⟨0xE9, .sbc, .immediate, 2⟩,
  ⟨0xEA, .nop, .implied, 2⟩,
  ⟨0xEC, .cpx, .absolute, 4⟩,
  ⟨0xED, .sbc, .absolute, 4⟩,
  ⟨0xEE, .inc, .absolute, 6⟩]

/-- Row Fx of the opcode map of R57. -/
def opcodeRowF : List DecodeEntry := [
  ⟨0xF0, .beq, .relative, 2⟩,
  ⟨0xF1, .sbc, .indirectY, 5⟩,
  ⟨0xF5, .sbc, .zeroPageX, 4⟩,
  ⟨0xF6, .inc, .zeroPageX, 6⟩,
  ⟨0xF8, .sed, .implied, 2⟩,
  ⟨0xF9, .sbc, .absoluteY, 4⟩,
  ⟨0xFD, .sbc, .absoluteX, 4⟩,
  ⟨0xFE, .inc, .absoluteX, 7⟩]

/-- The 151 entries of R57, in opcode order (D14, D15; log 10, log 11). -/
def opcodeTable : List DecodeEntry :=
  opcodeRow0 ++ opcodeRow1 ++ opcodeRow2 ++ opcodeRow3 ++ opcodeRow4 ++ opcodeRow5 ++ opcodeRow6 ++ opcodeRow7 ++
  opcodeRow8 ++ opcodeRow9 ++ opcodeRowA ++ opcodeRowB ++ opcodeRowC ++ opcodeRowD ++ opcodeRowE ++ opcodeRowF

/-- The default of the configuration value `OPCODE_MAP` (R4, U9): the table of R57, which passes the check of R60. -/
def Config.opcodeMap : OpcodeMap where
  entries := opcodeTable
  wf := by decide +kernel

/-- The decode entry that a map has for an opcode byte; none for an unofficial opcode (R52, R54, R58). -/
def OpcodeMap.lookup (om : OpcodeMap) (opcode : Byte) : Option DecodeEntry :=
  om.entries.find? (fun e => e.opcode == opcode)

/-- The decode entry of an opcode byte with the default map. -/
def lookup (opcode : Byte) : Option DecodeEntry :=
  Config.opcodeMap.lookup opcode

/-- The mnemonics that have the mode Implied (R57). -/
def assembleImplied (mn : Mnemonic) : Option Instr :=
  match mn with
  | .clc => some .clc
  | .cld => some .cld
  | .cli => some .cli
  | .clv => some .clv
  | .sec => some .sec
  | .sed => some .sed
  | .sei => some .sei
  | .dex => some .dex
  | .dey => some .dey
  | .inx => some .inx
  | .iny => some .iny
  | .tax => some .tax
  | .tay => some .tay
  | .txa => some .txa
  | .tya => some .tya
  | .tsx => some .tsx
  | .txs => some .txs
  | .nop => some .nop
  | .pha => some .pha
  | .php => some .php
  | .pla => some .pla
  | .plp => some .plp
  | .brk => some .brk
  | .rti => some .rti
  | .rts => some .rts
  | _ => none

/-- The mnemonics that have the mode Accumulator (R57). -/
def assembleAccumulator (mn : Mnemonic) : Option Instr :=
  match mn with
  | .asl => some .aslAcc
  | .lsr => some .lsrAcc
  | .rol => some .rolAcc
  | .ror => some .rorAcc
  | _ => none

/-- The mnemonics that have the mode Immediate (R57). -/
def assembleImmediate (mn : Mnemonic) (m : Byte) : Option Instr :=
  match mn with
  | .adc => some (.adcImm m)
  | .sbc => some (.sbcImm m)
  | .and => some (.andImm m)
  | .eor => some (.eorImm m)
  | .ora => some (.oraImm m)
  | .cmp => some (.cmpImm m)
  | .cpx => some (.cpxImm m)
  | .cpy => some (.cpyImm m)
  | .lda => some (.ldaImm m)
  | .ldx => some (.ldxImm m)
  | .ldy => some (.ldyImm m)
  | _ => none

/-- The mnemonics that have the mode ZeroPage (R57). -/
def assembleZeroPage (mn : Mnemonic) (z : Byte) : Option Instr :=
  match mn with
  | .adc => some (.adcZp z)
  | .sbc => some (.sbcZp z)
  | .and => some (.andZp z)
  | .eor => some (.eorZp z)
  | .ora => some (.oraZp z)
  | .bit => some (.bitZp z)
  | .cmp => some (.cmpZp z)
  | .cpx => some (.cpxZp z)
  | .cpy => some (.cpyZp z)
  | .lda => some (.ldaZp z)
  | .ldx => some (.ldxZp z)
  | .ldy => some (.ldyZp z)
  | .inc => some (.incZp z)
  | .dec => some (.decZp z)
  | .sta => some (.staZp z)
  | .stx => some (.stxZp z)
  | .sty => some (.styZp z)
  | .asl => some (.aslZp z)
  | .lsr => some (.lsrZp z)
  | .rol => some (.rolZp z)
  | .ror => some (.rorZp z)
  | _ => none

/-- The mnemonics that have the mode ZeroPageX (R57). -/
def assembleZeroPageX (mn : Mnemonic) (z : Byte) : Option Instr :=
  match mn with
  | .adc => some (.adcZpx z)
  | .sbc => some (.sbcZpx z)
  | .and => some (.andZpx z)
  | .eor => some (.eorZpx z)
  | .ora => some (.oraZpx z)
  | .cmp => some (.cmpZpx z)
  | .lda => some (.ldaZpx z)
  | .ldy => some (.ldyZpx z)
  | .inc => some (.incZpx z)
  | .dec => some (.decZpx z)
  | .sta => some (.staZpx z)
  | .sty => some (.styZpx z)
  | .asl => some (.aslZpx z)
  | .lsr => some (.lsrZpx z)
  | .rol => some (.rolZpx z)
  | .ror => some (.rorZpx z)
  | _ => none

/-- The mnemonics that have the mode ZeroPageY (R57). -/
def assembleZeroPageY (mn : Mnemonic) (z : Byte) : Option Instr :=
  match mn with
  | .ldx => some (.ldxZpy z)
  | .stx => some (.stxZpy z)
  | _ => none

/-- The mnemonics that have the mode Relative (R57). -/
def assembleRelative (mn : Mnemonic) (d : Byte) : Option Instr :=
  match mn with
  | .bcc => some (.bcc d)
  | .bcs => some (.bcs d)
  | .bne => some (.bne d)
  | .beq => some (.beq d)
  | .bpl => some (.bpl d)
  | .bmi => some (.bmi d)
  | .bvc => some (.bvc d)
  | .bvs => some (.bvs d)
  | _ => none

/-- The mnemonics that have the mode Absolute (R57). -/
def assembleAbsolute (mn : Mnemonic) (w : Word) : Option Instr :=
  match mn with
  | .adc => some (.adcAbs w)
  | .sbc => some (.sbcAbs w)
  | .and => some (.andAbs w)
  | .eor => some (.eorAbs w)
  | .ora => some (.oraAbs w)
  | .bit => some (.bitAbs w)
  | .cmp => some (.cmpAbs w)
  | .cpx => some (.cpxAbs w)
  | .cpy => some (.cpyAbs w)
  | .lda => some (.ldaAbs w)
  | .ldx => some (.ldxAbs w)
  | .ldy => some (.ldyAbs w)
  | .jmp => some (.jmpAbs w)
  | .jsr => some (.jsrAbs w)
  | .inc => some (.incAbs w)
  | .dec => some (.decAbs w)
  | .sta => some (.staAbs w)
  | .stx => some (.stxAbs w)
  | .sty => some (.styAbs w)
  | .asl => some (.aslAbs w)
  | .lsr => some (.lsrAbs w)
  | .rol => some (.rolAbs w)
  | .ror => some (.rorAbs w)
  | _ => none

/-- The mnemonics that have the mode AbsoluteX (R57). -/
def assembleAbsoluteX (mn : Mnemonic) (w : Word) : Option Instr :=
  match mn with
  | .adc => some (.adcAbx w)
  | .sbc => some (.sbcAbx w)
  | .and => some (.andAbx w)
  | .eor => some (.eorAbx w)
  | .ora => some (.oraAbx w)
  | .cmp => some (.cmpAbx w)
  | .lda => some (.ldaAbx w)
  | .ldy => some (.ldyAbx w)
  | .inc => some (.incAbx w)
  | .dec => some (.decAbx w)
  | .sta => some (.staAbx w)
  | .asl => some (.aslAbx w)
  | .lsr => some (.lsrAbx w)
  | .rol => some (.rolAbx w)
  | .ror => some (.rorAbx w)
  | _ => none

/-- The mnemonics that have the mode AbsoluteY (R57). -/
def assembleAbsoluteY (mn : Mnemonic) (w : Word) : Option Instr :=
  match mn with
  | .adc => some (.adcAby w)
  | .sbc => some (.sbcAby w)
  | .and => some (.andAby w)
  | .eor => some (.eorAby w)
  | .ora => some (.oraAby w)
  | .cmp => some (.cmpAby w)
  | .lda => some (.ldaAby w)
  | .ldx => some (.ldxAby w)
  | .sta => some (.staAby w)
  | _ => none

/-- The mnemonics that have the mode Indirect (R57). -/
def assembleIndirect (mn : Mnemonic) (w : Word) : Option Instr :=
  match mn with
  | .jmp => some (.jmpInd w)
  | _ => none

/-- The mnemonics that have the mode IndirectX (R57). -/
def assembleIndirectX (mn : Mnemonic) (z : Byte) : Option Instr :=
  match mn with
  | .adc => some (.adcIzx z)
  | .sbc => some (.sbcIzx z)
  | .and => some (.andIzx z)
  | .eor => some (.eorIzx z)
  | .ora => some (.oraIzx z)
  | .cmp => some (.cmpIzx z)
  | .lda => some (.ldaIzx z)
  | .sta => some (.staIzx z)
  | _ => none

/-- The mnemonics that have the mode IndirectY (R57). -/
def assembleIndirectY (mn : Mnemonic) (z : Byte) : Option Instr :=
  match mn with
  | .adc => some (.adcIzy z)
  | .sbc => some (.sbcIzy z)
  | .and => some (.andIzy z)
  | .eor => some (.eorIzy z)
  | .ora => some (.oraIzy z)
  | .cmp => some (.cmpIzy z)
  | .lda => some (.ldaIzy z)
  | .sta => some (.staIzy z)
  | _ => none

/-- The instruction of a decode entry with its operand bytes, low byte first (R53); none if the mnemonic does not have
the mode (R57) or the number of operand bytes is not the mode's. -/
def assemble (mn : Mnemonic) (md : Mode) (ops : List Byte) : Option Instr :=
  match md, ops with
  | .implied, [] => assembleImplied mn
  | .accumulator, [] => assembleAccumulator mn
  | .immediate, [op1] => assembleImmediate mn op1
  | .zeroPage, [op1] => assembleZeroPage mn op1
  | .zeroPageX, [op1] => assembleZeroPageX mn op1
  | .zeroPageY, [op1] => assembleZeroPageY mn op1
  | .relative, [op1] => assembleRelative mn op1
  | .absolute, [op1, op2] => assembleAbsolute mn (mkWord op2 op1)
  | .absoluteX, [op1, op2] => assembleAbsoluteX mn (mkWord op2 op1)
  | .absoluteY, [op1, op2] => assembleAbsoluteY mn (mkWord op2 op1)
  | .indirect, [op1, op2] => assembleIndirect mn (mkWord op2 op1)
  | .indirectX, [op1] => assembleIndirectX mn op1
  | .indirectY, [op1] => assembleIndirectY mn op1
  | _, _ => none

/-- The first `n` bytes and the rest; none if there are fewer. -/
def takeBytes : Nat → List Byte → Option (List Byte × List Byte)
  | 0, bs => some ([], bs)
  | _ + 1, [] => none
  | n + 1, b :: bs =>
    match takeBytes n bs with
    | some r => some (b :: r.1, r.2)
    | none   => none

/-- What the decoder says of a list of bytes. -/
inductive Decoded where
  /-- A legal instruction, and the bytes after it. -/
  | instr (i : Instr) (rest : List Byte)
  /-- An unofficial opcode: one byte long (R58), and the bytes after it. -/
  | unofficial (opcode : Byte) (rest : List Byte)
  /-- The bytes end inside an instruction. -/
  | short (opcode : Byte)
  /-- There is no byte. -/
  | empty
  /-- The mnemonic and mode of the decode entry are no row of R57; not with the default map (log 22). -/
  | badEntry (opcode : Byte)
  deriving DecidableEq, Repr

/-- Decode the first instruction of a list of bytes with the opcode map `om` (R52). -/
def OpcodeMap.decode (om : OpcodeMap) : List Byte → Decoded
  | [] => .empty
  | op :: bs =>
    match om.lookup op with
    | none => .unofficial op bs
    | some e =>
      match takeBytes e.mode.operandBytes bs with
      | none => .short op
      | some r =>
        match assemble e.mnemonic e.mode r.1 with
        | some i => .instr i r.2
        | none   => .badEntry op

/-- Decode the first instruction of a list of bytes with the default map. -/
def decode (bs : List Byte) : Decoded :=
  Config.opcodeMap.decode bs

/-- The mnemonic of an instruction (R56). -/
def Instr.mnemonic : Instr → Mnemonic
  | .clc => .clc
  | .cld => .cld
  | .cli => .cli
  | .clv => .clv
  | .sec => .sec
  | .sed => .sed
  | .sei => .sei
  | .dex => .dex
  | .dey => .dey
  | .inx => .inx
  | .iny => .iny
  | .tax => .tax
  | .tay => .tay
  | .txa => .txa
  | .tya => .tya
  | .tsx => .tsx
  | .txs => .txs
  | .nop => .nop
  | .pha => .pha
  | .php => .php
  | .pla => .pla
  | .plp => .plp
  | .brk => .brk
  | .rti => .rti
  | .rts => .rts
  | .bcc _ => .bcc
  | .bcs _ => .bcs
  | .bne _ => .bne
  | .beq _ => .beq
  | .bpl _ => .bpl
  | .bmi _ => .bmi
  | .bvc _ => .bvc
  | .bvs _ => .bvs
  | .adcImm _ => .adc
  | .adcZp _ => .adc
  | .adcZpx _ => .adc
  | .adcAbs _ => .adc
  | .adcAbx _ => .adc
  | .adcAby _ => .adc
  | .adcIzx _ => .adc
  | .adcIzy _ => .adc
  | .sbcImm _ => .sbc
  | .sbcZp _ => .sbc
  | .sbcZpx _ => .sbc
  | .sbcAbs _ => .sbc
  | .sbcAbx _ => .sbc
  | .sbcAby _ => .sbc
  | .sbcIzx _ => .sbc
  | .sbcIzy _ => .sbc
  | .andImm _ => .and
  | .andZp _ => .and
  | .andZpx _ => .and
  | .andAbs _ => .and
  | .andAbx _ => .and
  | .andAby _ => .and
  | .andIzx _ => .and
  | .andIzy _ => .and
  | .eorImm _ => .eor
  | .eorZp _ => .eor
  | .eorZpx _ => .eor
  | .eorAbs _ => .eor
  | .eorAbx _ => .eor
  | .eorAby _ => .eor
  | .eorIzx _ => .eor
  | .eorIzy _ => .eor
  | .oraImm _ => .ora
  | .oraZp _ => .ora
  | .oraZpx _ => .ora
  | .oraAbs _ => .ora
  | .oraAbx _ => .ora
  | .oraAby _ => .ora
  | .oraIzx _ => .ora
  | .oraIzy _ => .ora
  | .bitZp _ => .bit
  | .bitAbs _ => .bit
  | .cmpImm _ => .cmp
  | .cmpZp _ => .cmp
  | .cmpZpx _ => .cmp
  | .cmpAbs _ => .cmp
  | .cmpAbx _ => .cmp
  | .cmpAby _ => .cmp
  | .cmpIzx _ => .cmp
  | .cmpIzy _ => .cmp
  | .cpxImm _ => .cpx
  | .cpxZp _ => .cpx
  | .cpxAbs _ => .cpx
  | .cpyImm _ => .cpy
  | .cpyZp _ => .cpy
  | .cpyAbs _ => .cpy
  | .ldaImm _ => .lda
  | .ldaZp _ => .lda
  | .ldaZpx _ => .lda
  | .ldaAbs _ => .lda
  | .ldaAbx _ => .lda
  | .ldaAby _ => .lda
  | .ldaIzx _ => .lda
  | .ldaIzy _ => .lda
  | .ldxImm _ => .ldx
  | .ldxZp _ => .ldx
  | .ldxZpy _ => .ldx
  | .ldxAbs _ => .ldx
  | .ldxAby _ => .ldx
  | .ldyImm _ => .ldy
  | .ldyZp _ => .ldy
  | .ldyZpx _ => .ldy
  | .ldyAbs _ => .ldy
  | .ldyAbx _ => .ldy
  | .jmpAbs _ => .jmp
  | .jmpInd _ => .jmp
  | .jsrAbs _ => .jsr
  | .incZp _ => .inc
  | .incZpx _ => .inc
  | .incAbs _ => .inc
  | .incAbx _ => .inc
  | .decZp _ => .dec
  | .decZpx _ => .dec
  | .decAbs _ => .dec
  | .decAbx _ => .dec
  | .staZp _ => .sta
  | .staZpx _ => .sta
  | .staAbs _ => .sta
  | .staAbx _ => .sta
  | .staAby _ => .sta
  | .staIzx _ => .sta
  | .staIzy _ => .sta
  | .stxZp _ => .stx
  | .stxZpy _ => .stx
  | .stxAbs _ => .stx
  | .styZp _ => .sty
  | .styZpx _ => .sty
  | .styAbs _ => .sty
  | .aslAcc => .asl
  | .aslZp _ => .asl
  | .aslZpx _ => .asl
  | .aslAbs _ => .asl
  | .aslAbx _ => .asl
  | .lsrAcc => .lsr
  | .lsrZp _ => .lsr
  | .lsrZpx _ => .lsr
  | .lsrAbs _ => .lsr
  | .lsrAbx _ => .lsr
  | .rolAcc => .rol
  | .rolZp _ => .rol
  | .rolZpx _ => .rol
  | .rolAbs _ => .rol
  | .rolAbx _ => .rol
  | .rorAcc => .ror
  | .rorZp _ => .ror
  | .rorZpx _ => .ror
  | .rorAbs _ => .ror
  | .rorAbx _ => .ror

/-- The addressing mode of an instruction (R55). -/
def Instr.mode : Instr → Mode
  | .clc => .implied
  | .cld => .implied
  | .cli => .implied
  | .clv => .implied
  | .sec => .implied
  | .sed => .implied
  | .sei => .implied
  | .dex => .implied
  | .dey => .implied
  | .inx => .implied
  | .iny => .implied
  | .tax => .implied
  | .tay => .implied
  | .txa => .implied
  | .tya => .implied
  | .tsx => .implied
  | .txs => .implied
  | .nop => .implied
  | .pha => .implied
  | .php => .implied
  | .pla => .implied
  | .plp => .implied
  | .brk => .implied
  | .rti => .implied
  | .rts => .implied
  | .bcc _ => .relative
  | .bcs _ => .relative
  | .bne _ => .relative
  | .beq _ => .relative
  | .bpl _ => .relative
  | .bmi _ => .relative
  | .bvc _ => .relative
  | .bvs _ => .relative
  | .adcImm _ => .immediate
  | .adcZp _ => .zeroPage
  | .adcZpx _ => .zeroPageX
  | .adcAbs _ => .absolute
  | .adcAbx _ => .absoluteX
  | .adcAby _ => .absoluteY
  | .adcIzx _ => .indirectX
  | .adcIzy _ => .indirectY
  | .sbcImm _ => .immediate
  | .sbcZp _ => .zeroPage
  | .sbcZpx _ => .zeroPageX
  | .sbcAbs _ => .absolute
  | .sbcAbx _ => .absoluteX
  | .sbcAby _ => .absoluteY
  | .sbcIzx _ => .indirectX
  | .sbcIzy _ => .indirectY
  | .andImm _ => .immediate
  | .andZp _ => .zeroPage
  | .andZpx _ => .zeroPageX
  | .andAbs _ => .absolute
  | .andAbx _ => .absoluteX
  | .andAby _ => .absoluteY
  | .andIzx _ => .indirectX
  | .andIzy _ => .indirectY
  | .eorImm _ => .immediate
  | .eorZp _ => .zeroPage
  | .eorZpx _ => .zeroPageX
  | .eorAbs _ => .absolute
  | .eorAbx _ => .absoluteX
  | .eorAby _ => .absoluteY
  | .eorIzx _ => .indirectX
  | .eorIzy _ => .indirectY
  | .oraImm _ => .immediate
  | .oraZp _ => .zeroPage
  | .oraZpx _ => .zeroPageX
  | .oraAbs _ => .absolute
  | .oraAbx _ => .absoluteX
  | .oraAby _ => .absoluteY
  | .oraIzx _ => .indirectX
  | .oraIzy _ => .indirectY
  | .bitZp _ => .zeroPage
  | .bitAbs _ => .absolute
  | .cmpImm _ => .immediate
  | .cmpZp _ => .zeroPage
  | .cmpZpx _ => .zeroPageX
  | .cmpAbs _ => .absolute
  | .cmpAbx _ => .absoluteX
  | .cmpAby _ => .absoluteY
  | .cmpIzx _ => .indirectX
  | .cmpIzy _ => .indirectY
  | .cpxImm _ => .immediate
  | .cpxZp _ => .zeroPage
  | .cpxAbs _ => .absolute
  | .cpyImm _ => .immediate
  | .cpyZp _ => .zeroPage
  | .cpyAbs _ => .absolute
  | .ldaImm _ => .immediate
  | .ldaZp _ => .zeroPage
  | .ldaZpx _ => .zeroPageX
  | .ldaAbs _ => .absolute
  | .ldaAbx _ => .absoluteX
  | .ldaAby _ => .absoluteY
  | .ldaIzx _ => .indirectX
  | .ldaIzy _ => .indirectY
  | .ldxImm _ => .immediate
  | .ldxZp _ => .zeroPage
  | .ldxZpy _ => .zeroPageY
  | .ldxAbs _ => .absolute
  | .ldxAby _ => .absoluteY
  | .ldyImm _ => .immediate
  | .ldyZp _ => .zeroPage
  | .ldyZpx _ => .zeroPageX
  | .ldyAbs _ => .absolute
  | .ldyAbx _ => .absoluteX
  | .jmpAbs _ => .absolute
  | .jmpInd _ => .indirect
  | .jsrAbs _ => .absolute
  | .incZp _ => .zeroPage
  | .incZpx _ => .zeroPageX
  | .incAbs _ => .absolute
  | .incAbx _ => .absoluteX
  | .decZp _ => .zeroPage
  | .decZpx _ => .zeroPageX
  | .decAbs _ => .absolute
  | .decAbx _ => .absoluteX
  | .staZp _ => .zeroPage
  | .staZpx _ => .zeroPageX
  | .staAbs _ => .absolute
  | .staAbx _ => .absoluteX
  | .staAby _ => .absoluteY
  | .staIzx _ => .indirectX
  | .staIzy _ => .indirectY
  | .stxZp _ => .zeroPage
  | .stxZpy _ => .zeroPageY
  | .stxAbs _ => .absolute
  | .styZp _ => .zeroPage
  | .styZpx _ => .zeroPageX
  | .styAbs _ => .absolute
  | .aslAcc => .accumulator
  | .aslZp _ => .zeroPage
  | .aslZpx _ => .zeroPageX
  | .aslAbs _ => .absolute
  | .aslAbx _ => .absoluteX
  | .lsrAcc => .accumulator
  | .lsrZp _ => .zeroPage
  | .lsrZpx _ => .zeroPageX
  | .lsrAbs _ => .absolute
  | .lsrAbx _ => .absoluteX
  | .rolAcc => .accumulator
  | .rolZp _ => .zeroPage
  | .rolZpx _ => .zeroPageX
  | .rolAbs _ => .absolute
  | .rolAbx _ => .absoluteX
  | .rorAcc => .accumulator
  | .rorZp _ => .zeroPage
  | .rorZpx _ => .zeroPageX
  | .rorAbs _ => .absolute
  | .rorAbx _ => .absoluteX

/-- The bytes of an instruction: opcode, then the operand byte, or the low and the high byte of the operand word
(formats F1, F2, F3 of R50; opcodes of R57). -/
def encode : Instr → List Byte
  | .clc => [0x18]
  | .cld => [0xD8]
  | .cli => [0x58]
  | .clv => [0xB8]
  | .sec => [0x38]
  | .sed => [0xF8]
  | .sei => [0x78]
  | .dex => [0xCA]
  | .dey => [0x88]
  | .inx => [0xE8]
  | .iny => [0xC8]
  | .tax => [0xAA]
  | .tay => [0xA8]
  | .txa => [0x8A]
  | .tya => [0x98]
  | .tsx => [0xBA]
  | .txs => [0x9A]
  | .nop => [0xEA]
  | .pha => [0x48]
  | .php => [0x08]
  | .pla => [0x68]
  | .plp => [0x28]
  | .brk => [0x00]
  | .rti => [0x40]
  | .rts => [0x60]
  | .bcc d => [0x90, d]
  | .bcs d => [0xB0, d]
  | .bne d => [0xD0, d]
  | .beq d => [0xF0, d]
  | .bpl d => [0x10, d]
  | .bmi d => [0x30, d]
  | .bvc d => [0x50, d]
  | .bvs d => [0x70, d]
  | .adcImm m => [0x69, m]
  | .adcZp z => [0x65, z]
  | .adcZpx z => [0x75, z]
  | .adcAbs w => [0x6D, loByte w, hiByte w]
  | .adcAbx w => [0x7D, loByte w, hiByte w]
  | .adcAby w => [0x79, loByte w, hiByte w]
  | .adcIzx z => [0x61, z]
  | .adcIzy z => [0x71, z]
  | .sbcImm m => [0xE9, m]
  | .sbcZp z => [0xE5, z]
  | .sbcZpx z => [0xF5, z]
  | .sbcAbs w => [0xED, loByte w, hiByte w]
  | .sbcAbx w => [0xFD, loByte w, hiByte w]
  | .sbcAby w => [0xF9, loByte w, hiByte w]
  | .sbcIzx z => [0xE1, z]
  | .sbcIzy z => [0xF1, z]
  | .andImm m => [0x29, m]
  | .andZp z => [0x25, z]
  | .andZpx z => [0x35, z]
  | .andAbs w => [0x2D, loByte w, hiByte w]
  | .andAbx w => [0x3D, loByte w, hiByte w]
  | .andAby w => [0x39, loByte w, hiByte w]
  | .andIzx z => [0x21, z]
  | .andIzy z => [0x31, z]
  | .eorImm m => [0x49, m]
  | .eorZp z => [0x45, z]
  | .eorZpx z => [0x55, z]
  | .eorAbs w => [0x4D, loByte w, hiByte w]
  | .eorAbx w => [0x5D, loByte w, hiByte w]
  | .eorAby w => [0x59, loByte w, hiByte w]
  | .eorIzx z => [0x41, z]
  | .eorIzy z => [0x51, z]
  | .oraImm m => [0x09, m]
  | .oraZp z => [0x05, z]
  | .oraZpx z => [0x15, z]
  | .oraAbs w => [0x0D, loByte w, hiByte w]
  | .oraAbx w => [0x1D, loByte w, hiByte w]
  | .oraAby w => [0x19, loByte w, hiByte w]
  | .oraIzx z => [0x01, z]
  | .oraIzy z => [0x11, z]
  | .bitZp z => [0x24, z]
  | .bitAbs w => [0x2C, loByte w, hiByte w]
  | .cmpImm m => [0xC9, m]
  | .cmpZp z => [0xC5, z]
  | .cmpZpx z => [0xD5, z]
  | .cmpAbs w => [0xCD, loByte w, hiByte w]
  | .cmpAbx w => [0xDD, loByte w, hiByte w]
  | .cmpAby w => [0xD9, loByte w, hiByte w]
  | .cmpIzx z => [0xC1, z]
  | .cmpIzy z => [0xD1, z]
  | .cpxImm m => [0xE0, m]
  | .cpxZp z => [0xE4, z]
  | .cpxAbs w => [0xEC, loByte w, hiByte w]
  | .cpyImm m => [0xC0, m]
  | .cpyZp z => [0xC4, z]
  | .cpyAbs w => [0xCC, loByte w, hiByte w]
  | .ldaImm m => [0xA9, m]
  | .ldaZp z => [0xA5, z]
  | .ldaZpx z => [0xB5, z]
  | .ldaAbs w => [0xAD, loByte w, hiByte w]
  | .ldaAbx w => [0xBD, loByte w, hiByte w]
  | .ldaAby w => [0xB9, loByte w, hiByte w]
  | .ldaIzx z => [0xA1, z]
  | .ldaIzy z => [0xB1, z]
  | .ldxImm m => [0xA2, m]
  | .ldxZp z => [0xA6, z]
  | .ldxZpy z => [0xB6, z]
  | .ldxAbs w => [0xAE, loByte w, hiByte w]
  | .ldxAby w => [0xBE, loByte w, hiByte w]
  | .ldyImm m => [0xA0, m]
  | .ldyZp z => [0xA4, z]
  | .ldyZpx z => [0xB4, z]
  | .ldyAbs w => [0xAC, loByte w, hiByte w]
  | .ldyAbx w => [0xBC, loByte w, hiByte w]
  | .jmpAbs w => [0x4C, loByte w, hiByte w]
  | .jmpInd w => [0x6C, loByte w, hiByte w]
  | .jsrAbs w => [0x20, loByte w, hiByte w]
  | .incZp z => [0xE6, z]
  | .incZpx z => [0xF6, z]
  | .incAbs w => [0xEE, loByte w, hiByte w]
  | .incAbx w => [0xFE, loByte w, hiByte w]
  | .decZp z => [0xC6, z]
  | .decZpx z => [0xD6, z]
  | .decAbs w => [0xCE, loByte w, hiByte w]
  | .decAbx w => [0xDE, loByte w, hiByte w]
  | .staZp z => [0x85, z]
  | .staZpx z => [0x95, z]
  | .staAbs w => [0x8D, loByte w, hiByte w]
  | .staAbx w => [0x9D, loByte w, hiByte w]
  | .staAby w => [0x99, loByte w, hiByte w]
  | .staIzx z => [0x81, z]
  | .staIzy z => [0x91, z]
  | .stxZp z => [0x86, z]
  | .stxZpy z => [0x96, z]
  | .stxAbs w => [0x8E, loByte w, hiByte w]
  | .styZp z => [0x84, z]
  | .styZpx z => [0x94, z]
  | .styAbs w => [0x8C, loByte w, hiByte w]
  | .aslAcc => [0x0A]
  | .aslZp z => [0x06, z]
  | .aslZpx z => [0x16, z]
  | .aslAbs w => [0x0E, loByte w, hiByte w]
  | .aslAbx w => [0x1E, loByte w, hiByte w]
  | .lsrAcc => [0x4A]
  | .lsrZp z => [0x46, z]
  | .lsrZpx z => [0x56, z]
  | .lsrAbs w => [0x4E, loByte w, hiByte w]
  | .lsrAbx w => [0x5E, loByte w, hiByte w]
  | .rolAcc => [0x2A]
  | .rolZp z => [0x26, z]
  | .rolZpx z => [0x36, z]
  | .rolAbs w => [0x2E, loByte w, hiByte w]
  | .rolAbx w => [0x3E, loByte w, hiByte w]
  | .rorAcc => [0x6A]
  | .rorZp z => [0x66, z]
  | .rorZpx z => [0x76, z]
  | .rorAbs w => [0x6E, loByte w, hiByte w]
  | .rorAbx w => [0x7E, loByte w, hiByte w]

/-- The length in bytes: opcode and operand bytes (R50, R51). -/
def Instr.length (i : Instr) : Nat :=
  1 + i.mode.operandBytes

/-- Byte `k` of an instruction given as a number, byte 0 its opcode: bits `8k + 7` to `8k`. -/
def tableByte (nbits w k : Nat) : Byte :=
  BitVec.ofNat 8 ((w % 2 ^ nbits) >>> (8 * k))

/-- The instruction the decoder reads from the bytes of `w`, of which the bits above `nbits` are 0; three bytes are the
longest instruction (R50). -/
def decodeTableWord (nbits w : Nat) : Option Instr :=
  match decode [tableByte nbits w 0, tableByte nbits w 1, tableByte nbits w 2] with
  | .instr i _ => some i
  | _ => none

end Sys2Proof
end

