-- ==== Sys2Proof/Machine/State.lean ====
section
/-! DEFINITION. The machine's state as plain data (spec/10_state.md R10 to R27), the state after reset (R26), and the
reasons for which a step can stop. -/

namespace Sys2Proof.Machine

/-- What the host does next (spec/00_scope.md R5, spec/60_exceptions.md R177). -/
inductive HostOp where
  /-- The operation `RESET` (R186). -/
  | reset
  /-- The operation `IRQ` (R172). -/
  | irq
  /-- The operation `NMI` (R173). -/
  | nmi
  /-- The operation `STEP` (R65). -/
  | step
  /-- Between two operations the host changes one byte of memory (R177, row "memory"). -/
  | write (a : Word) (v : Byte)
  /-- The host issues an operation and the bus fails during it (R49, R167). -/
  | busError
  deriving DecidableEq, Repr

/-- One bus access: `MemRead(a, 1)` or `MemWrite(a, 1, v)` (spec/20_memory.md R30). -/
inductive BusAccess where
  | read (a : Word)
  | write (a : Word) (v : Byte)
  deriving DecidableEq, Repr

/-- What the unofficial-opcode diagnostic carries: the opcode and its address (R166). -/
structure Diagnostic where
  opcode : Byte
  addr   : Word
  deriving DecidableEq, Repr

/-- What `STEP` returns (R25, R65): the base cycle count, and the diagnostic when the `unofficial` bit is 1. -/
structure StepResult where
  cycles     : Byte
  unofficial : Option Diagnostic
  deriving DecidableEq, Repr

/-- The core's six registers (R10), the bus (R30, R31): its flat RAM and its answers to the reads to come, the outputs of
the last operation (R25, R34), and three fields of the model: `resetSeen` (log 6), `host` (log 3), `unofficialSeen`
(log 9). -/
structure State where
  /-- Accumulator (R11). -/
  A  : Byte
  /-- Index register X (R12). -/
  X  : Byte
  /-- Index register Y (R13). -/
  Y  : Byte
  /-- Stack pointer, the low byte of a stack address (R14). -/
  S  : Byte
  /-- Status register `NV-BDIZC` (R17, R18). -/
  P  : Byte
  /-- Program counter (R15). -/
  PC : Word
  /-- Memory behind the bus, the flat RAM of R31, as (address, byte) pairs in canonical form (log 1, log 2). -/
  mem : List Host.Cell
  /-- What the bus answers to the core's next reads, next read first: `some v` is the answer of the bus that is attached,
  whichever it is; `none`, and every read past the end, is answered by the flat RAM `mem` (R4, R30, D7; log 1). -/
  answers : List (Option Byte)
  /-- The bus accesses of the last operation, in order (R34, R85; log 8). -/
  bus : List BusAccess
  /-- What the last operation returned: none for RESET, IRQ and NMI (R25, R196; log 9). -/
  out : Option StepResult
  /-- A first RESET has been issued (R27, D2; log 6). -/
  resetSeen : Bool
  /-- The host's next moves, first one first; none left means STEP (R174, R177, D12; log 3). -/
  host : List HostOp
  /-- Some STEP returned `unofficial = 1`: the sticky mark of R166 and U1 (log 9). -/
  unofficialSeen : Bool
  deriving DecidableEq, Repr

/-- The reasons for which the machine stops. -/
inductive Fault where
  /-- The bus failed during an operation: "The core does not catch it", and the registers after it are unspecified
  (R49, R167, U2). Raised by `step` for the host-queue event `HostOp.busError` only, never by an instruction. Safe:
  nothing can be proved of the state after it (log 5). -/
  | busError
  deriving DecidableEq, Repr

/-- The reasons for which a step has no meaning. -/
inductive Refusal where
  /-- An instruction without a meaning. Raised by no arm of `exec`: every instruction has its meaning. Safe. -/
  | notModelled (mnemonic : String)
  /-- `STEP`, `IRQ` or `NMI` before the first `RESET` (R27, D2, U4). Raised by `step`. Safe (log 6). -/
  | beforeFirstReset
  /-- The internal invariant violation of R60: a decode entry whose category does not fit its mode. Raised by `stepWith`,
  and never reached, since an opcode map that fails the check is no `OpcodeMap`. Safe (log 21). -/
  | badDecodeEntry (opcode : Byte)
  deriving DecidableEq, Repr

/-- The machine right after the operation `RESET` (R26, R186), with no byte of memory listed, so that the reset vector
reads 0x0000 (log 2, log 7). -/
def State.reset : State where
  A := 0x00
  X := 0x00
  Y := 0x00
  S := 0xFF
  P := 0x20
  PC := 0x0000
  mem := []
  answers := []
  bus := [.read 0xFFFC, .read 0xFFFD]
  out := none
  resetSeen := true
  host := []
  unofficialSeen := false

/-- The machine before its first `RESET`: every register holds any value (R27, D2), and the host issues `RESET`
(R177). -/
def State.powerOn : State where
  A := Config.powerOnByte 0
  X := Config.powerOnByte 1
  Y := Config.powerOnByte 2
  S := Config.powerOnByte 3
  P := Config.powerOnByte 4
  PC := Config.powerOnPC
  mem := []
  answers := []
  bus := []
  out := none
  resetSeen := false
  host := [.reset]
  unofficialSeen := false

end Sys2Proof.Machine
end

