-- ==== Sys2Proof/Machine/Flags.lean ====
section
/-! DEFINITION. The status register P: its flags (spec/10_state.md R17, R18), whole-byte reads and writes (R19), SetNZ
(R20), and every flag computation of spec/43_argument.md to spec/45_accumulator_write.md. -/

namespace Sys2Proof.Machine

/-- The seven stored flags of P (R18). -/
inductive Flag where
  | c | z | i | d | b | v | n
  deriving DecidableEq, Repr

/-- "Flag bit positions within P: C=0, Z=1, I=2, D=3, B=4, (unused)=5, V=6, N=7" (R17). -/
def Flag.bit : Flag → Nat
  | .c => 0
  | .z => 1
  | .i => 2
  | .d => 3
  | .b => 4
  | .v => 6
  | .n => 7

/-- Row "Mask" of the table of R17. -/
def Flag.mask : Flag → Byte
  | .c => 0x01
  | .z => 0x02
  | .i => 0x04
  | .d => 0x08
  | .b => 0x10
  | .v => 0x40
  | .n => 0x80

/-- The value of one flag in a byte laid out as P (R17). -/
def flagOf (f : Flag) (p : Byte) : Bool :=
  p.getLsbD f.bit

/-- Write one flag and leave the other bits (R19: "Single-flag writes change one bit and cannot touch bit 5"). -/
def putFlag (f : Flag) (b : Bool) (p : Byte) : Byte :=
  if b then p ||| f.mask else p &&& ~~~ f.mask

/-- Bit 5 of P, hardwired to 1 (R17, D5). -/
def bit5 : Byte := 0x20

/-- Read one flag. -/
def State.flag (f : Flag) (s : State) : Bool :=
  flagOf f s.P

/-- `P.f <- b` (R6, R19). -/
def State.setFlag (f : Flag) (b : Bool) (s : State) : State :=
  { s with P := putFlag f b s.P }

/-- P as every push and every debug read shows it: bit 5 is 1 (R17, D5). -/
def State.readP (s : State) : Byte :=
  s.P ||| bit5

/-- `WriteP(v)`: `P <- v | 0x20` (R19). -/
def State.writeP (v : Byte) (s : State) : State :=
  { s with P := v ||| bit5 }

/-- `SetNZ(v)`: Z is 1 iff v is 0, N is bit 7 of v (R20). -/
def State.setNZ (v : Byte) (s : State) : State :=
  (s.setFlag .z (v == 0)).setFlag .n v.msb

/-- A flag as the number 0 or 1 that ADC, SBC, ROL and ROR use. -/
def carryNat (c : Bool) : Nat :=
  if c then 1 else 0

/-- `sum <- A + M + P.C`, an integer 0 to 511 (R131). -/
def adcSum (a m : Byte) (c : Bool) : Nat :=
  a.toNat + m.toNat + carryNat c

/-- `result <- sum mod 256` (R131). -/
def adcResult (a m : Byte) (c : Bool) : Byte :=
  BitVec.ofNat 8 (adcSum a m c)

/-- C of ADC: 1 iff `sum > 255` (R131). -/
def adcCarry (a m : Byte) (c : Bool) : Bool :=
  decide (adcSum a m c > 255)

/-- V of ADC: `(A[7] != result[7]) and (A[7] == M[7])` (R131). -/
def adcOverflow (a m : Byte) (c : Bool) : Bool :=
  a.msb != (adcResult a m c).msb && a.msb == m.msb

/-- `diff <- A - M - (1 - P.C)`, an integer -256 to 255 (R132). -/
def sbcDiff (a m : Byte) (c : Bool) : Int :=
  (a.toNat : Int) - (m.toNat : Int) - (1 - (carryNat c : Int))

/-- `result <- diff mod 256` (R132). -/
def sbcResult (a m : Byte) (c : Bool) : Byte :=
  BitVec.ofInt 8 (sbcDiff a m c)

/-- C of SBC: 1 iff `diff >= 0` (R132). -/
def sbcCarry (a m : Byte) (c : Bool) : Bool :=
  decide (sbcDiff a m c ≥ 0)

/-- V of SBC: `(A[7] != result[7]) and (A[7] != M[7])` (R132; C3 of spec/90_conflicts.md). -/
def sbcOverflow (a m : Byte) (c : Bool) : Bool :=
  a.msb != (sbcResult a m c).msb && a.msb != m.msb

/-- The flags of a comparison of `r` with `m`: C is `r >= m`, unsigned; N and Z from `(r - m) mod 256` (R137). -/
def State.compare (r m : Byte) (s : State) : State :=
  (s.setFlag .c (decide (r.toNat ≥ m.toNat))).setNZ (r - m)

/-- The flags of BIT: N and V are bits 7 and 6 of M, Z is 1 iff `A & M` is 0 (R136, C8). -/
def State.bitFlags (m : Byte) (s : State) : State :=
  ((s.setFlag .n (m.getLsbD 7)).setFlag .v (m.getLsbD 6)).setFlag .z ((s.A &&& m) == 0)

/-- ASL's function: `((M << 1) mod 256, M[7])` (R157). -/
def aslFn (m : Byte) (_c : Bool) : Byte × Bool :=
  (m <<< 1, m.getLsbD 7)

/-- LSR's function: `(M >> 1, M[0])` (R158). -/
def lsrFn (m : Byte) (_c : Bool) : Byte × Bool :=
  (m >>> 1, m.getLsbD 0)

/-- ROL's function: `(((M << 1) mod 256) | P.C, M[7])` (R159). -/
def rolFn (m : Byte) (c : Bool) : Byte × Bool :=
  ((m <<< 1) ||| (if c then 0x01 else 0x00), m.getLsbD 7)

/-- ROR's function: `((M >> 1) | (P.C << 7), M[0])` (R160). -/
def rorFn (m : Byte) (c : Bool) : Byte × Bool :=
  ((m >>> 1) ||| (if c then 0x80 else 0x00), m.getLsbD 0)

end Sys2Proof.Machine
end

