-- ==== Sys2Proof/Machine/Ops.lean ====
section
/-! DEFINITION. The named operations over memory, the bus and the registers (spec/20_memory.md R30 to R43), instruction
fetch of one byte (spec/40_dispatch_and_addressing.md R66), taking a trap and returning from one
(spec/60_exceptions.md R175, R176), and the debug port (spec/10_state.md R25). -/

namespace Sys2Proof.Machine

/-- `zext_16(b)` (R6). -/
def zext16 (b : Byte) : Word :=
  b.setWidth 16

/-- `sext_16(b)` (R6). -/
def sext16 (b : Byte) : Word :=
  b.signExtend 16

/-- The byte at address `a`: the listed one, else what an unlisted address reads as (R31; log 2). -/
def Memory.get : List Host.Cell → Nat → Byte
  | [], _ => Config.unwrittenByte
  | (k, v) :: m, a => if k = a then v else Memory.get m a

/-- Put a listed byte in its place. -/
def Memory.insert : List Host.Cell → Nat → Byte → List Host.Cell
  | [], a, v => [(a, v)]
  | (k, w) :: m, a, v =>
    if a < k then (a, v) :: (k, w) :: m
    else if a = k then (a, v) :: m
    else (k, w) :: Memory.insert m a v

/-- Unlist an address. -/
def Memory.erase : List Host.Cell → Nat → List Host.Cell
  | [], _ => []
  | (k, w) :: m, a => if k = a then Memory.erase m a else (k, w) :: Memory.erase m a

/-- Store a byte and keep the canonical form: a byte that an unlisted address reads as is not listed. -/
def Memory.put (m : List Host.Cell) (a : Nat) (v : Byte) : List Host.Cell :=
  if v = Config.unwrittenByte then Memory.erase m a else Memory.insert m a v

/-- Every address of `m` is above `lo`, in the address space, strictly rising, and its byte is not what an unlisted
address reads as. -/
def Memory.wfAbove : Option Nat → List Host.Cell → Bool
  | _, [] => true
  | lo, (k, v) :: m =>
    (match lo with
      | none => true
      | some l => decide (l < k)) &&
    decide (k < 65536) && decide (v ≠ Config.unwrittenByte) && Memory.wfAbove (some k) m

/-- The canonical form of memory. -/
def Memory.wf (m : List Host.Cell) : Bool :=
  Memory.wfAbove none m

/-- The byte that the flat RAM holds at `a` (R31, R44). It is no bus access. -/
def State.byteAt (s : State) (a : Word) : Byte :=
  Memory.get s.mem a.toNat

/-- The bus's answer to the read number `k` from now (0 is the next one), if it is a read of `a` and nothing is written to
`a` before it: the answer the bus gives, or else the byte of the flat RAM (R30, R31, D7; log 1). -/
def busAnswer (m : List Host.Cell) (l : List (Option Byte)) (k : Nat) (a : Word) : Byte :=
  match l[k]? with
  | some (some v) => v
  | _ => Memory.get m a.toNat

/-- `busAnswer` of a state. -/
def State.answer (s : State) (k : Nat) (a : Word) : Byte :=
  busAnswer s.mem s.answers k a

/-- Record one bus access of the operation in progress (R34). -/
def State.note (x : BusAccess) (s : State) : State :=
  { s with bus := s.bus ++ [x] }

/-- `MemRead(a, 1)` (R6, R30): one read of the bus, whose answer is used up. -/
def memRead (a : Word) (s : State) : Byte × State :=
  (s.answer 0 a, { s.note (.read a) with answers := s.answers.tail })

/-- `MemWrite(a, 1, v)` (R6, R30): one write of the bus, which the flat RAM follows. -/
def memWrite (a : Word) (v : Byte) (s : State) : State :=
  { s with mem := Memory.put s.mem a.toNat v, bus := s.bus ++ [.write a v] }

/-- `Fetch8()`: read at PC, then PC + 1 modulo 65536 (R66, R16). -/
def fetch8 (s : State) : Byte × State :=
  let r := memRead s.PC s
  (r.1, { r.2 with PC := r.2.PC + 1 })

/-- `Read16(a)`: low byte at `a`, then high byte at `a + 1` (R36). -/
def read16 (a : Word) (s : State) : Word × State :=
  let lo := memRead a s
  let hi := memRead (a + 1) lo.2
  (mkWord hi.1 lo.1, hi.2)

/-- `Read16ZP(z)`: the second byte wraps inside the zero page (R37). -/
def read16ZP (z : Byte) (s : State) : Word × State :=
  let lo := memRead (zext16 z) s
  let hi := memRead (zext16 (z + 1)) lo.2
  (mkWord hi.1 lo.1, hi.2)

/-- `Read16Bug(a)`: the second byte wraps inside the page (R38). -/
def read16Bug (a : Word) (s : State) : Word × State :=
  let lo := memRead a s
  let hi := memRead (mkWord (hiByte a) (loByte a + 1)) lo.2
  (mkWord hi.1 lo.1, hi.2)

/-- The address that S names: `0x0100 + S` (R14). -/
def stackAddr (sp : Byte) : Word :=
  0x0100 + zext16 sp

/-- `Push8(v)` (R39). -/
def push8 (v : Byte) (s : State) : State :=
  let t := memWrite (stackAddr s.S) v s
  { t with S := t.S - 1 }

/-- `Pop8()` (R40). -/
def pop8 (s : State) : Byte × State :=
  memRead (stackAddr (s.S + 1)) { s with S := s.S + 1 }

/-- `Push16(w)`: high byte, then low byte (R41). -/
def push16 (w : Word) (s : State) : State :=
  push8 (loByte w) (push8 (hiByte w) s)

/-- `Pop16()`: low byte, then high byte (R42). -/
def pop16 (s : State) : Word × State :=
  let lo := pop8 s
  let hi := pop8 lo.2
  (mkWord hi.1 lo.1, hi.2)

/-- The NMI vector (R35). -/
def nmiVector : Word := 0xFFFA

/-- The reset vector (R35). -/
def resetVector : Word := 0xFFFC

/-- The IRQ and BRK vector (R35). -/
def irqVector : Word := 0xFFFE

/-- `PC <- Read16(v)`. -/
def jumpThrough (v : Word) (s : State) : State :=
  let r := read16 v s
  { r.2 with PC := r.1 }

/-- The flag writes of a trap entry, between the two pushes: B as given, and I set if the entry masks IRQ (the table
of R175). -/
def State.trapFlags (b masks : Bool) (s : State) : State :=
  if masks then (s.setFlag .b b).setFlag .i true else s.setFlag .b b

/-- Taking a trap, the shared sequence of BRK (R112), IRQ (R172) and NMI (R173), summed up in R175: push PC, write the
flags, push P, load PC from the vector. BRK has `b = true, masks = false`; IRQ and NMI have `b = false, masks = true`,
so that the P they push has I = 1 already (D8, log 14). -/
def takeTrap (b masks : Bool) (vector : Word) (s : State) : State :=
  let t := (push16 s.PC s).trapFlags b masks
  jumpThrough vector (push8 t.readP t)

/-- Returning from a trap (R113, R176): pull P through WriteP, then PC, used exactly as popped. -/
def returnFromTrap (s : State) : State :=
  let p := pop8 s
  let w := pop16 (p.2.writeP p.1)
  { w.2 with PC := w.1 }

/-- An operation starts: it has made no bus access and returned nothing yet (R5, R24, R166: the diagnostic is not
sticky in the core). -/
def State.beginOp (s : State) : State :=
  { s with bus := [], out := none }

/-- What the debug read port shows between operations (R25). -/
structure DebugView where
  A  : Byte
  X  : Byte
  Y  : Byte
  S  : Byte
  PC : Word
  P  : Byte
  deriving DecidableEq, Repr

/-- The debug read port: the six registers, P with bit 5 = 1 (R25). It changes nothing. -/
def debugRead (s : State) : DebugView :=
  { A := s.A, X := s.X, Y := s.Y, S := s.S, PC := s.PC, P := s.readP }

end Sys2Proof.Machine
end

