-- ==== Sys2Proof/Machine/Operands.lean ====
section
/-! DEFINITION. The operand forms: the addressing modes that yield an effective address
(spec/40_dispatch_and_addressing.md R68 to R81) and the category dispatch, which says what is read before an
instruction's rule and where its result goes (R82). The other forms carry no address: Implied (R69) has no operand,
Accumulator (R70) is A, Immediate (R71) and Relative (R75) are the operand byte itself. -/

namespace Sys2Proof.Machine

/-- A mode that yields `Addr(ea)`, with its operand byte or its operand word `{op2, op1}` (R53, R68). -/
inductive AddrMode where
  | zeroPage (z : Byte)
  | zeroPageX (z : Byte)
  | zeroPageY (z : Byte)
  | absolute (w : Word)
  | absoluteX (w : Word)
  | absoluteY (w : Word)
  | indirect (w : Word)
  | indirectX (z : Byte)
  | indirectY (z : Byte)
  deriving DecidableEq, Repr

/-- The number of pointer reads of a mode (R85). -/
def AddrMode.reads : AddrMode → Nat
  | .indirect _ | .indirectX _ | .indirectY _ => 2
  | _ => 0

/-- The kinds of operand of R68, `Value` split into Immediate and Relative. -/
inductive OperandForm where
  | none
  | accumulator
  | immediate (m : Byte)
  | relative (d : Byte)
  | memory (am : AddrMode)
  deriving DecidableEq, Repr

/-- `ResolveOperand(mode, operand bytes)`, but for the pointer reads, which `effAddr` makes (R53, R68); none if the number
of operand bytes is not the mode's (R51). -/
def operandForm (md : Mode) (ops : List Byte) : Option OperandForm :=
  match md, ops with
  | .implied, [] => some .none
  | .accumulator, [] => some .accumulator
  | .immediate, [op1] => some (.immediate op1)
  | .zeroPage, [op1] => some (.memory (.zeroPage op1))
  | .zeroPageX, [op1] => some (.memory (.zeroPageX op1))
  | .zeroPageY, [op1] => some (.memory (.zeroPageY op1))
  | .relative, [op1] => some (.relative op1)
  | .absolute, [op1, op2] => some (.memory (.absolute (mkWord op2 op1)))
  | .absoluteX, [op1, op2] => some (.memory (.absoluteX (mkWord op2 op1)))
  | .absoluteY, [op1, op2] => some (.memory (.absoluteY (mkWord op2 op1)))
  | .indirect, [op1, op2] => some (.memory (.indirect (mkWord op2 op1)))
  | .indirectX, [op1] => some (.memory (.indirectX op1))
  | .indirectY, [op1] => some (.memory (.indirectY op1))
  | _, _ => none

/-- The effective address, and the state after the pointer reads that the three indirect modes make (R72 to R74, R76 to
R81; sums above 0xFFFF modulo 65536, D4, log 13). -/
def effAddr (am : AddrMode) (s : State) : Word × State :=
  match am with
  | .zeroPage z  => (zext16 z, s)
  | .zeroPageX z => (zext16 (z + s.X), s)
  | .zeroPageY z => (zext16 (z + s.Y), s)
  | .absolute w  => (w, s)
  | .absoluteX w => (w + zext16 s.X, s)
  | .absoluteY w => (w + zext16 s.Y, s)
  | .indirect w  => read16Bug w s
  | .indirectX z => read16ZP (z + s.X) s
  | .indirectY z =>
    let r := read16ZP z s
    (r.1 + zext16 r.2.Y, r.2)

/-- Category Argument with an address: M is read exactly once and handed to the rule (R82, R130). -/
def argument (f : Byte → State → State) (am : AddrMode) (s : State) : State :=
  let e := effAddr am s
  let d := memRead e.1 e.2
  f d.1 d.2

/-- Category MemoryWrite: the rule receives `ea`; the byte there is not read (R82, R146). -/
def memoryWrite (f : Word → State → State) (am : AddrMode) (s : State) : State :=
  let e := effAddr am s
  f e.1 e.2

/-- Category AccumulatorWrite with Accumulator: A is source and destination, no memory access (R82, R156). -/
def shiftAccumulator (f : Byte → Bool → Byte × Bool) (s : State) : State :=
  let r := f s.A (s.flag .c)
  { (s.setFlag .c r.2).setNZ r.1 with A := r.1 }

/-- Category AccumulatorWrite with an address: one read, then one write of `ea`; A is left (R82, R156). -/
def shiftMemory (f : Byte → Bool → Byte × Bool) (am : AddrMode) (s : State) : State :=
  let e := effAddr am s
  let d := memRead e.1 e.2
  let r := f d.1 (d.2.flag .c)
  memWrite e.1 r.1 ((d.2.setFlag .c r.2).setNZ r.1)

/-- `Branch(cond, d)`: if the condition holds, PC plus the sign-extended displacement, modulo 65536 (R75, R120). -/
def branchIf (cond : Bool) (d : Byte) (s : State) : State :=
  if cond then { s with PC := s.PC + sext16 d } else s

/-- `A <- v; SetNZ(A)`: what LDA, PLA, TXA, TYA, AND, EOR and ORA do with their result. -/
def loadA (v : Byte) (s : State) : State :=
  { s.setNZ v with A := v }

/-- `X <- v; SetNZ(X)`: what LDX, TAX, TSX, INX and DEX do with their result. -/
def loadX (v : Byte) (s : State) : State :=
  { s.setNZ v with X := v }

/-- `Y <- v; SetNZ(Y)`: what LDY, TAY, INY and DEY do with their result. -/
def loadY (v : Byte) (s : State) : State :=
  { s.setNZ v with Y := v }

end Sys2Proof.Machine
end

