-- ==== Sys2Proof/Machine/AccumulatorWrite.lean ====
section
/-! DEFINITION. AccumulatorWrite instructions: shift and rotate A or memory (spec/45_accumulator_write.md). On entry PC is already past the
instruction (spec/40_dispatch_and_addressing.md R67). None of them stops the machine. -/

namespace Sys2Proof.Machine

/-- ASL, Accumulator (R157, R70). -/
def execAslAcc (s : State) : Host.Outcome State Fault Refusal :=
  .next (shiftAccumulator aslFn s)

/-- ASL, ZeroPage (R157, R72). -/
def execAslZp (z : Byte) (s : State) : Host.Outcome State Fault Refusal :=
  .next (shiftMemory aslFn (.zeroPage z) s)

/-- ASL, ZeroPageX (R157, R73). -/
def execAslZpx (z : Byte) (s : State) : Host.Outcome State Fault Refusal :=
  .next (shiftMemory aslFn (.zeroPageX z) s)

/-- ASL, Absolute (R157, R76). -/
def execAslAbs (w : Word) (s : State) : Host.Outcome State Fault Refusal :=
  .next (shiftMemory aslFn (.absolute w) s)

/-- ASL, AbsoluteX (R157, R77). -/
def execAslAbx (w : Word) (s : State) : Host.Outcome State Fault Refusal :=
  .next (shiftMemory aslFn (.absoluteX w) s)

/-- LSR, Accumulator (R158, R70). -/
def execLsrAcc (s : State) : Host.Outcome State Fault Refusal :=
  .next (shiftAccumulator lsrFn s)

/-- LSR, ZeroPage (R158, R72). -/
def execLsrZp (z : Byte) (s : State) : Host.Outcome State Fault Refusal :=
  .next (shiftMemory lsrFn (.zeroPage z) s)

/-- LSR, ZeroPageX (R158, R73). -/
def execLsrZpx (z : Byte) (s : State) : Host.Outcome State Fault Refusal :=
  .next (shiftMemory lsrFn (.zeroPageX z) s)

/-- LSR, Absolute (R158, R76). -/
def execLsrAbs (w : Word) (s : State) : Host.Outcome State Fault Refusal :=
  .next (shiftMemory lsrFn (.absolute w) s)

/-- LSR, AbsoluteX (R158, R77). -/
def execLsrAbx (w : Word) (s : State) : Host.Outcome State Fault Refusal :=
  .next (shiftMemory lsrFn (.absoluteX w) s)

/-- ROL, Accumulator (R159, R70). -/
def execRolAcc (s : State) : Host.Outcome State Fault Refusal :=
  .next (shiftAccumulator rolFn s)

/-- ROL, ZeroPage (R159, R72). -/
def execRolZp (z : Byte) (s : State) : Host.Outcome State Fault Refusal :=
  .next (shiftMemory rolFn (.zeroPage z) s)

/-- ROL, ZeroPageX (R159, R73). -/
def execRolZpx (z : Byte) (s : State) : Host.Outcome State Fault Refusal :=
  .next (shiftMemory rolFn (.zeroPageX z) s)

/-- ROL, Absolute (R159, R76). -/
def execRolAbs (w : Word) (s : State) : Host.Outcome State Fault Refusal :=
  .next (shiftMemory rolFn (.absolute w) s)

/-- ROL, AbsoluteX (R159, R77). -/
def execRolAbx (w : Word) (s : State) : Host.Outcome State Fault Refusal :=
  .next (shiftMemory rolFn (.absoluteX w) s)

/-- ROR, Accumulator (R160, R70). -/
def execRorAcc (s : State) : Host.Outcome State Fault Refusal :=
  .next (shiftAccumulator rorFn s)

/-- ROR, ZeroPage (R160, R72). -/
def execRorZp (z : Byte) (s : State) : Host.Outcome State Fault Refusal :=
  .next (shiftMemory rorFn (.zeroPage z) s)

/-- ROR, ZeroPageX (R160, R73). -/
def execRorZpx (z : Byte) (s : State) : Host.Outcome State Fault Refusal :=
  .next (shiftMemory rorFn (.zeroPageX z) s)

/-- ROR, Absolute (R160, R76). -/
def execRorAbs (w : Word) (s : State) : Host.Outcome State Fault Refusal :=
  .next (shiftMemory rorFn (.absolute w) s)

/-- ROR, AbsoluteX (R160, R77). -/
def execRorAbx (w : Word) (s : State) : Host.Outcome State Fault Refusal :=
  .next (shiftMemory rorFn (.absoluteX w) s)

end Sys2Proof.Machine
end

