-- ==== Sys2Proof/Machine/Argument.lean ====
section
/-! DEFINITION. Argument instructions: they read M and write no memory (spec/43_argument.md). On entry PC is already past the
instruction (spec/40_dispatch_and_addressing.md R67). None of them stops the machine. -/

namespace Sys2Proof.Machine

/-- ADC (R131): `A <- A + M + P.C`; C, V, N, Z; binary whatever D is (D22). -/
def adc (m : Byte) (s : State) : State :=
  let c := s.flag .c
  let r := adcResult s.A m c
  { (((s.setFlag .c (adcCarry s.A m c)).setFlag .v (adcOverflow s.A m c)).setNZ r) with A := r }

/-- ADC, Immediate (R131, R71). -/
def execAdcImm (m : Byte) (s : State) : Host.Outcome State Fault Refusal :=
  .next (adc m s)

/-- ADC, ZeroPage (R131, R72). -/
def execAdcZp (z : Byte) (s : State) : Host.Outcome State Fault Refusal :=
  .next (argument adc (.zeroPage z) s)

/-- ADC, ZeroPageX (R131, R73). -/
def execAdcZpx (z : Byte) (s : State) : Host.Outcome State Fault Refusal :=
  .next (argument adc (.zeroPageX z) s)

/-- ADC, Absolute (R131, R76). -/
def execAdcAbs (w : Word) (s : State) : Host.Outcome State Fault Refusal :=
  .next (argument adc (.absolute w) s)

/-- ADC, AbsoluteX (R131, R77). -/
def execAdcAbx (w : Word) (s : State) : Host.Outcome State Fault Refusal :=
  .next (argument adc (.absoluteX w) s)

/-- ADC, AbsoluteY (R131, R78). -/
def execAdcAby (w : Word) (s : State) : Host.Outcome State Fault Refusal :=
  .next (argument adc (.absoluteY w) s)

/-- ADC, IndirectX (R131, R80). -/
def execAdcIzx (z : Byte) (s : State) : Host.Outcome State Fault Refusal :=
  .next (argument adc (.indirectX z) s)

/-- ADC, IndirectY (R131, R81). -/
def execAdcIzy (z : Byte) (s : State) : Host.Outcome State Fault Refusal :=
  .next (argument adc (.indirectY z) s)

/-- SBC (R132): `A <- A - M - (1 - P.C)`; C, V, N, Z; binary whatever D is (D22). -/
def sbc (m : Byte) (s : State) : State :=
  let c := s.flag .c
  let r := sbcResult s.A m c
  { (((s.setFlag .c (sbcCarry s.A m c)).setFlag .v (sbcOverflow s.A m c)).setNZ r) with A := r }

/-- SBC, Immediate (R132, R71). -/
def execSbcImm (m : Byte) (s : State) : Host.Outcome State Fault Refusal :=
  .next (sbc m s)

/-- SBC, ZeroPage (R132, R72). -/
def execSbcZp (z : Byte) (s : State) : Host.Outcome State Fault Refusal :=
  .next (argument sbc (.zeroPage z) s)

/-- SBC, ZeroPageX (R132, R73). -/
def execSbcZpx (z : Byte) (s : State) : Host.Outcome State Fault Refusal :=
  .next (argument sbc (.zeroPageX z) s)

/-- SBC, Absolute (R132, R76). -/
def execSbcAbs (w : Word) (s : State) : Host.Outcome State Fault Refusal :=
  .next (argument sbc (.absolute w) s)

/-- SBC, AbsoluteX (R132, R77). -/
def execSbcAbx (w : Word) (s : State) : Host.Outcome State Fault Refusal :=
  .next (argument sbc (.absoluteX w) s)

/-- SBC, AbsoluteY (R132, R78). -/
def execSbcAby (w : Word) (s : State) : Host.Outcome State Fault Refusal :=
  .next (argument sbc (.absoluteY w) s)

/-- SBC, IndirectX (R132, R80). -/
def execSbcIzx (z : Byte) (s : State) : Host.Outcome State Fault Refusal :=
  .next (argument sbc (.indirectX z) s)

/-- SBC, IndirectY (R132, R81). -/
def execSbcIzy (z : Byte) (s : State) : Host.Outcome State Fault Refusal :=
  .next (argument sbc (.indirectY z) s)

/-- AND (R133): `A <- A & M; SetNZ(A)`. -/
def andA (m : Byte) (s : State) : State :=
  loadA (s.A &&& m) s

/-- AND, Immediate (R133, R71). -/
def execAndImm (m : Byte) (s : State) : Host.Outcome State Fault Refusal :=
  .next (andA m s)

/-- AND, ZeroPage (R133, R72). -/
def execAndZp (z : Byte) (s : State) : Host.Outcome State Fault Refusal :=
  .next (argument andA (.zeroPage z) s)

/-- AND, ZeroPageX (R133, R73). -/
def execAndZpx (z : Byte) (s : State) : Host.Outcome State Fault Refusal :=
  .next (argument andA (.zeroPageX z) s)

/-- AND, Absolute (R133, R76). -/
def execAndAbs (w : Word) (s : State) : Host.Outcome State Fault Refusal :=
  .next (argument andA (.absolute w) s)

/-- AND, AbsoluteX (R133, R77). -/
def execAndAbx (w : Word) (s : State) : Host.Outcome State Fault Refusal :=
  .next (argument andA (.absoluteX w) s)

/-- AND, AbsoluteY (R133, R78). -/
def execAndAby (w : Word) (s : State) : Host.Outcome State Fault Refusal :=
  .next (argument andA (.absoluteY w) s)

/-- AND, IndirectX (R133, R80). -/
def execAndIzx (z : Byte) (s : State) : Host.Outcome State Fault Refusal :=
  .next (argument andA (.indirectX z) s)

/-- AND, IndirectY (R133, R81). -/
def execAndIzy (z : Byte) (s : State) : Host.Outcome State Fault Refusal :=
  .next (argument andA (.indirectY z) s)

/-- EOR (R134): `A <- A ^ M; SetNZ(A)`. -/
def eorA (m : Byte) (s : State) : State :=
  loadA (s.A ^^^ m) s

/-- EOR, Immediate (R134, R71). -/
def execEorImm (m : Byte) (s : State) : Host.Outcome State Fault Refusal :=
  .next (eorA m s)

/-- EOR, ZeroPage (R134, R72). -/
def execEorZp (z : Byte) (s : State) : Host.Outcome State Fault Refusal :=
  .next (argument eorA (.zeroPage z) s)

/-- EOR, ZeroPageX (R134, R73). -/
def execEorZpx (z : Byte) (s : State) : Host.Outcome State Fault Refusal :=
  .next (argument eorA (.zeroPageX z) s)

/-- EOR, Absolute (R134, R76). -/
def execEorAbs (w : Word) (s : State) : Host.Outcome State Fault Refusal :=
  .next (argument eorA (.absolute w) s)

/-- EOR, AbsoluteX (R134, R77). -/
def execEorAbx (w : Word) (s : State) : Host.Outcome State Fault Refusal :=
  .next (argument eorA (.absoluteX w) s)

/-- EOR, AbsoluteY (R134, R78). -/
def execEorAby (w : Word) (s : State) : Host.Outcome State Fault Refusal :=
  .next (argument eorA (.absoluteY w) s)

/-- EOR, IndirectX (R134, R80). -/
def execEorIzx (z : Byte) (s : State) : Host.Outcome State Fault Refusal :=
  .next (argument eorA (.indirectX z) s)

/-- EOR, IndirectY (R134, R81). -/
def execEorIzy (z : Byte) (s : State) : Host.Outcome State Fault Refusal :=
  .next (argument eorA (.indirectY z) s)

/-- ORA (R135): `A <- A | M; SetNZ(A)`. -/
def oraA (m : Byte) (s : State) : State :=
  loadA (s.A ||| m) s

/-- ORA, Immediate (R135, R71). -/
def execOraImm (m : Byte) (s : State) : Host.Outcome State Fault Refusal :=
  .next (oraA m s)

/-- ORA, ZeroPage (R135, R72). -/
def execOraZp (z : Byte) (s : State) : Host.Outcome State Fault Refusal :=
  .next (argument oraA (.zeroPage z) s)

/-- ORA, ZeroPageX (R135, R73). -/
def execOraZpx (z : Byte) (s : State) : Host.Outcome State Fault Refusal :=
  .next (argument oraA (.zeroPageX z) s)

/-- ORA, Absolute (R135, R76). -/
def execOraAbs (w : Word) (s : State) : Host.Outcome State Fault Refusal :=
  .next (argument oraA (.absolute w) s)

/-- ORA, AbsoluteX (R135, R77). -/
def execOraAbx (w : Word) (s : State) : Host.Outcome State Fault Refusal :=
  .next (argument oraA (.absoluteX w) s)

/-- ORA, AbsoluteY (R135, R78). -/
def execOraAby (w : Word) (s : State) : Host.Outcome State Fault Refusal :=
  .next (argument oraA (.absoluteY w) s)

/-- ORA, IndirectX (R135, R80). -/
def execOraIzx (z : Byte) (s : State) : Host.Outcome State Fault Refusal :=
  .next (argument oraA (.indirectX z) s)

/-- ORA, IndirectY (R135, R81). -/
def execOraIzy (z : Byte) (s : State) : Host.Outcome State Fault Refusal :=
  .next (argument oraA (.indirectY z) s)

/-- BIT (R136): N, V, Z; A is not written. -/
def bitTest (m : Byte) (s : State) : State :=
  s.bitFlags m

/-- BIT, ZeroPage (R136, R72). -/
def execBitZp (z : Byte) (s : State) : Host.Outcome State Fault Refusal :=
  .next (argument bitTest (.zeroPage z) s)

/-- BIT, Absolute (R136, R76). -/
def execBitAbs (w : Word) (s : State) : Host.Outcome State Fault Refusal :=
  .next (argument bitTest (.absolute w) s)

/-- CMP (R137): the flags of A against M. -/
def cmpA (m : Byte) (s : State) : State :=
  s.compare s.A m

/-- CMP, Immediate (R137, R71). -/
def execCmpImm (m : Byte) (s : State) : Host.Outcome State Fault Refusal :=
  .next (cmpA m s)

/-- CMP, ZeroPage (R137, R72). -/
def execCmpZp (z : Byte) (s : State) : Host.Outcome State Fault Refusal :=
  .next (argument cmpA (.zeroPage z) s)

/-- CMP, ZeroPageX (R137, R73). -/
def execCmpZpx (z : Byte) (s : State) : Host.Outcome State Fault Refusal :=
  .next (argument cmpA (.zeroPageX z) s)

/-- CMP, Absolute (R137, R76). -/
def execCmpAbs (w : Word) (s : State) : Host.Outcome State Fault Refusal :=
  .next (argument cmpA (.absolute w) s)

/-- CMP, AbsoluteX (R137, R77). -/
def execCmpAbx (w : Word) (s : State) : Host.Outcome State Fault Refusal :=
  .next (argument cmpA (.absoluteX w) s)

/-- CMP, AbsoluteY (R137, R78). -/
def execCmpAby (w : Word) (s : State) : Host.Outcome State Fault Refusal :=
  .next (argument cmpA (.absoluteY w) s)

/-- CMP, IndirectX (R137, R80). -/
def execCmpIzx (z : Byte) (s : State) : Host.Outcome State Fault Refusal :=
  .next (argument cmpA (.indirectX z) s)

/-- CMP, IndirectY (R137, R81). -/
def execCmpIzy (z : Byte) (s : State) : Host.Outcome State Fault Refusal :=
  .next (argument cmpA (.indirectY z) s)

/-- CPX (R138): the flags of X against M. -/
def cmpX (m : Byte) (s : State) : State :=
  s.compare s.X m

/-- CPX, Immediate (R138, R71). -/
def execCpxImm (m : Byte) (s : State) : Host.Outcome State Fault Refusal :=
  .next (cmpX m s)

/-- CPX, ZeroPage (R138, R72). -/
def execCpxZp (z : Byte) (s : State) : Host.Outcome State Fault Refusal :=
  .next (argument cmpX (.zeroPage z) s)

/-- CPX, Absolute (R138, R76). -/
def execCpxAbs (w : Word) (s : State) : Host.Outcome State Fault Refusal :=
  .next (argument cmpX (.absolute w) s)

/-- CPY (R139): the flags of Y against M. -/
def cmpY (m : Byte) (s : State) : State :=
  s.compare s.Y m

/-- CPY, Immediate (R139, R71). -/
def execCpyImm (m : Byte) (s : State) : Host.Outcome State Fault Refusal :=
  .next (cmpY m s)

/-- CPY, ZeroPage (R139, R72). -/
def execCpyZp (z : Byte) (s : State) : Host.Outcome State Fault Refusal :=
  .next (argument cmpY (.zeroPage z) s)

/-- CPY, Absolute (R139, R76). -/
def execCpyAbs (w : Word) (s : State) : Host.Outcome State Fault Refusal :=
  .next (argument cmpY (.absolute w) s)

/-- LDA, Immediate (R140, R71). -/
def execLdaImm (m : Byte) (s : State) : Host.Outcome State Fault Refusal :=
  .next (loadA m s)

/-- LDA, ZeroPage (R140, R72). -/
def execLdaZp (z : Byte) (s : State) : Host.Outcome State Fault Refusal :=
  .next (argument loadA (.zeroPage z) s)

/-- LDA, ZeroPageX (R140, R73). -/
def execLdaZpx (z : Byte) (s : State) : Host.Outcome State Fault Refusal :=
  .next (argument loadA (.zeroPageX z) s)

/-- LDA, Absolute (R140, R76). -/
def execLdaAbs (w : Word) (s : State) : Host.Outcome State Fault Refusal :=
  .next (argument loadA (.absolute w) s)

/-- LDA, AbsoluteX (R140, R77). -/
def execLdaAbx (w : Word) (s : State) : Host.Outcome State Fault Refusal :=
  .next (argument loadA (.absoluteX w) s)

/-- LDA, AbsoluteY (R140, R78). -/
def execLdaAby (w : Word) (s : State) : Host.Outcome State Fault Refusal :=
  .next (argument loadA (.absoluteY w) s)

/-- LDA, IndirectX (R140, R80). -/
def execLdaIzx (z : Byte) (s : State) : Host.Outcome State Fault Refusal :=
  .next (argument loadA (.indirectX z) s)

/-- LDA, IndirectY (R140, R81). -/
def execLdaIzy (z : Byte) (s : State) : Host.Outcome State Fault Refusal :=
  .next (argument loadA (.indirectY z) s)

/-- LDX, Immediate (R141, R71). -/
def execLdxImm (m : Byte) (s : State) : Host.Outcome State Fault Refusal :=
  .next (loadX m s)

/-- LDX, ZeroPage (R141, R72). -/
def execLdxZp (z : Byte) (s : State) : Host.Outcome State Fault Refusal :=
  .next (argument loadX (.zeroPage z) s)

/-- LDX, ZeroPageY (R141, R74). -/
def execLdxZpy (z : Byte) (s : State) : Host.Outcome State Fault Refusal :=
  .next (argument loadX (.zeroPageY z) s)

/-- LDX, Absolute (R141, R76). -/
def execLdxAbs (w : Word) (s : State) : Host.Outcome State Fault Refusal :=
  .next (argument loadX (.absolute w) s)

/-- LDX, AbsoluteY (R141, R78). -/
def execLdxAby (w : Word) (s : State) : Host.Outcome State Fault Refusal :=
  .next (argument loadX (.absoluteY w) s)

/-- LDY, Immediate (R142, R71). -/
def execLdyImm (m : Byte) (s : State) : Host.Outcome State Fault Refusal :=
  .next (loadY m s)

/-- LDY, ZeroPage (R142, R72). -/
def execLdyZp (z : Byte) (s : State) : Host.Outcome State Fault Refusal :=
  .next (argument loadY (.zeroPage z) s)

/-- LDY, ZeroPageX (R142, R73). -/
def execLdyZpx (z : Byte) (s : State) : Host.Outcome State Fault Refusal :=
  .next (argument loadY (.zeroPageX z) s)

/-- LDY, Absolute (R142, R76). -/
def execLdyAbs (w : Word) (s : State) : Host.Outcome State Fault Refusal :=
  .next (argument loadY (.absolute w) s)

/-- LDY, AbsoluteX (R142, R77). -/
def execLdyAbx (w : Word) (s : State) : Host.Outcome State Fault Refusal :=
  .next (argument loadY (.absoluteX w) s)

end Sys2Proof.Machine
end

