-- ==== Sys2Proof/Machine/Branch.lean ====
section
/-! DEFINITION. Branch instructions: relative (spec/42_branch.md). On entry PC is already past the
instruction (spec/40_dispatch_and_addressing.md R67). None of them stops the machine. -/

namespace Sys2Proof.Machine

/-- BCC (R121): taken if `P.C == 0`. -/
def execBcc (d : Byte) (s : State) : Host.Outcome State Fault Refusal :=
  .next (branchIf (!s.flag .c) d s)

/-- BCS (R122): taken if `P.C == 1`. -/
def execBcs (d : Byte) (s : State) : Host.Outcome State Fault Refusal :=
  .next (branchIf (s.flag .c) d s)

/-- BNE (R123): taken if `P.Z == 0`. -/
def execBne (d : Byte) (s : State) : Host.Outcome State Fault Refusal :=
  .next (branchIf (!s.flag .z) d s)

/-- BEQ (R124): taken if `P.Z == 1`. -/
def execBeq (d : Byte) (s : State) : Host.Outcome State Fault Refusal :=
  .next (branchIf (s.flag .z) d s)

/-- BPL (R125): taken if `P.N == 0`. -/
def execBpl (d : Byte) (s : State) : Host.Outcome State Fault Refusal :=
  .next (branchIf (!s.flag .n) d s)

/-- BMI (R126): taken if `P.N == 1`. -/
def execBmi (d : Byte) (s : State) : Host.Outcome State Fault Refusal :=
  .next (branchIf (s.flag .n) d s)

/-- BVC (R127): taken if `P.V == 0`. -/
def execBvc (d : Byte) (s : State) : Host.Outcome State Fault Refusal :=
  .next (branchIf (!s.flag .v) d s)

/-- BVS (R128): taken if `P.V == 1`. -/
def execBvs (d : Byte) (s : State) : Host.Outcome State Fault Refusal :=
  .next (branchIf (s.flag .v) d s)

end Sys2Proof.Machine
end

