-- ==== Sys2Proof/Machine/Command.lean ====
section
/-! DEFINITION. Command instructions: implied, no operand bytes (spec/41_command.md). On entry PC is already past the
instruction (spec/40_dispatch_and_addressing.md R67). None of them stops the machine. -/

namespace Sys2Proof.Machine

/-- CLC (R90): `P.C <- 0`. -/
def execClc (s : State) : Host.Outcome State Fault Refusal :=
  .next (s.setFlag .c false)

/-- CLD (R91): `P.D <- 0`. -/
def execCld (s : State) : Host.Outcome State Fault Refusal :=
  .next (s.setFlag .d false)

/-- CLI (R92): `P.I <- 0`. -/
def execCli (s : State) : Host.Outcome State Fault Refusal :=
  .next (s.setFlag .i false)

/-- CLV (R93): `P.V <- 0`. -/
def execClv (s : State) : Host.Outcome State Fault Refusal :=
  .next (s.setFlag .v false)

/-- SEC (R94): `P.C <- 1`. -/
def execSec (s : State) : Host.Outcome State Fault Refusal :=
  .next (s.setFlag .c true)

/-- SED (R95): `P.D <- 1`; arithmetic stays binary. -/
def execSed (s : State) : Host.Outcome State Fault Refusal :=
  .next (s.setFlag .d true)

/-- SEI (R96): `P.I <- 1`. -/
def execSei (s : State) : Host.Outcome State Fault Refusal :=
  .next (s.setFlag .i true)

/-- DEX (R97): `X <- (X - 1) mod 256; SetNZ(X)`. -/
def execDex (s : State) : Host.Outcome State Fault Refusal :=
  .next (loadX (s.X - 1) s)

/-- DEY (R98): `Y <- (Y - 1) mod 256; SetNZ(Y)`. -/
def execDey (s : State) : Host.Outcome State Fault Refusal :=
  .next (loadY (s.Y - 1) s)

/-- INX (R99): `X <- (X + 1) mod 256; SetNZ(X)`. -/
def execInx (s : State) : Host.Outcome State Fault Refusal :=
  .next (loadX (s.X + 1) s)

/-- INY (R100): `Y <- (Y + 1) mod 256; SetNZ(Y)`. -/
def execIny (s : State) : Host.Outcome State Fault Refusal :=
  .next (loadY (s.Y + 1) s)

/-- TAX (R101): `X <- A; SetNZ(X)`. -/
def execTax (s : State) : Host.Outcome State Fault Refusal :=
  .next (loadX s.A s)

/-- TAY (R102): `Y <- A; SetNZ(Y)`. -/
def execTay (s : State) : Host.Outcome State Fault Refusal :=
  .next (loadY s.A s)

/-- TXA (R103): `A <- X; SetNZ(A)`. -/
def execTxa (s : State) : Host.Outcome State Fault Refusal :=
  .next (loadA s.X s)

/-- TYA (R104): `A <- Y; SetNZ(A)`. -/
def execTya (s : State) : Host.Outcome State Fault Refusal :=
  .next (loadA s.Y s)

/-- TSX (R105): `X <- S; SetNZ(X)`. -/
def execTsx (s : State) : Host.Outcome State Fault Refusal :=
  .next (loadX s.S s)

/-- TXS (R106): `S <- X`, no flags. -/
def execTxs (s : State) : Host.Outcome State Fault Refusal :=
  .next ({ s with S := s.X })

/-- NOP (R107): no effect. -/
def execNop (s : State) : Host.Outcome State Fault Refusal :=
  .next s

/-- PHA (R108): `Push8(A)`. -/
def execPha (s : State) : Host.Outcome State Fault Refusal :=
  .next (push8 s.A s)

/-- PHP (R109): `Push8(P)`, P as held: B is not forced (D10, log 14). -/
def execPhp (s : State) : Host.Outcome State Fault Refusal :=
  .next (push8 s.readP s)

/-- PLA (R110): `A <- Pop8(); SetNZ(A)`. -/
def execPla (s : State) : Host.Outcome State Fault Refusal :=
  .next (loadA (pop8 s).1 (pop8 s).2)

/-- PLP (R111): `WriteP(Pop8())`. -/
def execPlp (s : State) : Host.Outcome State Fault Refusal :=
  .next ((pop8 s).2.writeP (pop8 s).1)

/-- BRK (R112): the trap entry with B = 1 and I as it was; PC is already the address of the byte after the opcode (D9, log 14). -/
def execBrk (s : State) : Host.Outcome State Fault Refusal :=
  .next (takeTrap true false irqVector s)

/-- RTI (R113): the return from a trap: P pulled plainly (C2), then PC, no + 1. -/
def execRti (s : State) : Host.Outcome State Fault Refusal :=
  .next (returnFromTrap s)

/-- RTS (R114): `PC <- (Pop16() + 1) mod 65536`. -/
def execRts (s : State) : Host.Outcome State Fault Refusal :=
  .next ({ (pop16 s).2 with PC := (pop16 s).1 + 1 })

end Sys2Proof.Machine
end

