-- ==== Sys2Proof/Machine/MemoryWrite.lean ====
section
/-! DEFINITION. MemoryWrite instructions: they use the effective address (spec/44_memory_write.md). On entry PC is already past the
instruction (spec/40_dispatch_and_addressing.md R67). None of them stops the machine. -/

namespace Sys2Proof.Machine

/-- JMP (R147): `PC <- ea`. -/
def jump (ea : Word) (s : State) : State :=
  { s with PC := ea }

/-- JMP, Absolute (R147, R76). -/
def execJmpAbs (w : Word) (s : State) : Host.Outcome State Fault Refusal :=
  .next (memoryWrite jump (.absolute w) s)

/-- JMP, Indirect (R147, R79). -/
def execJmpInd (w : Word) (s : State) : Host.Outcome State Fault Refusal :=
  .next (memoryWrite jump (.indirect w) s)

/-- JSR (R148): push `(PC - 1) mod 65536`, the address of JSR's last byte, then `PC <- ea`. -/
def callSub (ea : Word) (s : State) : State :=
  { push16 (s.PC - 1) s with PC := ea }

/-- JSR, Absolute (R148, R76). -/
def execJsrAbs (w : Word) (s : State) : Host.Outcome State Fault Refusal :=
  .next (memoryWrite callSub (.absolute w) s)

/-- INC (R149): read, add 1 modulo 256, write back, SetNZ. -/
def incMem (ea : Word) (s : State) : State :=
  let d := memRead ea s
  (memWrite ea (d.1 + 1) d.2).setNZ (d.1 + 1)

/-- INC, ZeroPage (R149, R72). -/
def execIncZp (z : Byte) (s : State) : Host.Outcome State Fault Refusal :=
  .next (memoryWrite incMem (.zeroPage z) s)

/-- INC, ZeroPageX (R149, R73). -/
def execIncZpx (z : Byte) (s : State) : Host.Outcome State Fault Refusal :=
  .next (memoryWrite incMem (.zeroPageX z) s)

/-- INC, Absolute (R149, R76). -/
def execIncAbs (w : Word) (s : State) : Host.Outcome State Fault Refusal :=
  .next (memoryWrite incMem (.absolute w) s)

/-- INC, AbsoluteX (R149, R77). -/
def execIncAbx (w : Word) (s : State) : Host.Outcome State Fault Refusal :=
  .next (memoryWrite incMem (.absoluteX w) s)

/-- DEC (R150): read, subtract 1 modulo 256, write back, SetNZ. -/
def decMem (ea : Word) (s : State) : State :=
  let d := memRead ea s
  (memWrite ea (d.1 - 1) d.2).setNZ (d.1 - 1)

/-- DEC, ZeroPage (R150, R72). -/
def execDecZp (z : Byte) (s : State) : Host.Outcome State Fault Refusal :=
  .next (memoryWrite decMem (.zeroPage z) s)

/-- DEC, ZeroPageX (R150, R73). -/
def execDecZpx (z : Byte) (s : State) : Host.Outcome State Fault Refusal :=
  .next (memoryWrite decMem (.zeroPageX z) s)

/-- DEC, Absolute (R150, R76). -/
def execDecAbs (w : Word) (s : State) : Host.Outcome State Fault Refusal :=
  .next (memoryWrite decMem (.absolute w) s)

/-- DEC, AbsoluteX (R150, R77). -/
def execDecAbx (w : Word) (s : State) : Host.Outcome State Fault Refusal :=
  .next (memoryWrite decMem (.absoluteX w) s)

/-- STA (R151): `MemWrite(ea, 1, A)`. -/
def storeA (ea : Word) (s : State) : State :=
  memWrite ea s.A s

/-- STA, ZeroPage (R151, R72). -/
def execStaZp (z : Byte) (s : State) : Host.Outcome State Fault Refusal :=
  .next (memoryWrite storeA (.zeroPage z) s)

/-- STA, ZeroPageX (R151, R73). -/
def execStaZpx (z : Byte) (s : State) : Host.Outcome State Fault Refusal :=
  .next (memoryWrite storeA (.zeroPageX z) s)

/-- STA, Absolute (R151, R76). -/
def execStaAbs (w : Word) (s : State) : Host.Outcome State Fault Refusal :=
  .next (memoryWrite storeA (.absolute w) s)

/-- STA, AbsoluteX (R151, R77). -/
def execStaAbx (w : Word) (s : State) : Host.Outcome State Fault Refusal :=
  .next (memoryWrite storeA (.absoluteX w) s)

/-- STA, AbsoluteY (R151, R78). -/
def execStaAby (w : Word) (s : State) : Host.Outcome State Fault Refusal :=
  .next (memoryWrite storeA (.absoluteY w) s)

/-- STA, IndirectX (R151, R80). -/
def execStaIzx (z : Byte) (s : State) : Host.Outcome State Fault Refusal :=
  .next (memoryWrite storeA (.indirectX z) s)

/-- STA, IndirectY (R151, R81). -/
def execStaIzy (z : Byte) (s : State) : Host.Outcome State Fault Refusal :=
  .next (memoryWrite storeA (.indirectY z) s)

/-- STX (R152): `MemWrite(ea, 1, X)`. -/
def storeX (ea : Word) (s : State) : State :=
  memWrite ea s.X s

/-- STX, ZeroPage (R152, R72). -/
def execStxZp (z : Byte) (s : State) : Host.Outcome State Fault Refusal :=
  .next (memoryWrite storeX (.zeroPage z) s)

/-- STX, ZeroPageY (R152, R74). -/
def execStxZpy (z : Byte) (s : State) : Host.Outcome State Fault Refusal :=
  .next (memoryWrite storeX (.zeroPageY z) s)

/-- STX, Absolute (R152, R76). -/
def execStxAbs (w : Word) (s : State) : Host.Outcome State Fault Refusal :=
  .next (memoryWrite storeX (.absolute w) s)

/-- STY (R153): `MemWrite(ea, 1, Y)`. -/
def storeY (ea : Word) (s : State) : State :=
  memWrite ea s.Y s

/-- STY, ZeroPage (R153, R72). -/
def execStyZp (z : Byte) (s : State) : Host.Outcome State Fault Refusal :=
  .next (memoryWrite storeY (.zeroPage z) s)

/-- STY, ZeroPageX (R153, R73). -/
def execStyZpx (z : Byte) (s : State) : Host.Outcome State Fault Refusal :=
  .next (memoryWrite storeY (.zeroPageX z) s)

/-- STY, Absolute (R153, R76). -/
def execStyAbs (w : Word) (s : State) : Host.Outcome State Fault Refusal :=
  .next (memoryWrite storeY (.absolute w) s)

end Sys2Proof.Machine
end

