-- ==== Sys2Proof/Machine/Fetch.lean ====
section
/-! DEFINITION. The first half of `STEP` (spec/40_dispatch_and_addressing.md R65 to R67): fetch the opcode, look it up,
fetch the operand bytes; and what `STEP` returns (R65, R84, R166). -/

namespace Sys2Proof.Machine

/-- `n` times `Fetch8()`: the bytes in address order (R66, R67). -/
def fetchBytes : Nat → State → List Byte × State
  | 0, s => ([], s)
  | n + 1, s =>
    let b := fetch8 s
    let r := fetchBytes n b.2
    (b.1 :: r.1, r.2)

/-- What the fetch gives. -/
inductive Fetched where
  /-- An instruction, its base cycle count, and the state in which `Execute` starts (R67). -/
  | instr (i : Instr) (cycles : Byte) (s : State)
  /-- An unofficial opcode, its address, and the state with PC past it (R166). -/
  | unofficial (opcode : Byte) (addr : Word) (s : State)
  /-- A decode entry of another opcode map whose mnemonic and mode are no row of R57, its operand bytes, and the state
  in which `Execute` starts (R4; log 22). -/
  | entry (e : DecodeEntry) (ops : List Byte) (s : State)
  deriving DecidableEq, Repr

/-- Fetch and decode the instruction at PC with the opcode map `om` (R65). -/
def fetchInstr (om : OpcodeMap) (s : State) : Fetched :=
  let op := fetch8 s
  match om.lookup op.1 with
  | none => .unofficial op.1 s.PC op.2
  | some e =>
    let ops := fetchBytes e.mode.operandBytes op.2
    match assemble e.mnemonic e.mode ops.1 with
    | some i => .instr i e.cycles ops.2
    | none   => .entry e ops.1 ops.2

/-- `return (cycles = base_cycles, unofficial = 0)` (R65). -/
def State.returnCycles (n : Byte) (s : State) : State :=
  { s with out := some { cycles := n, unofficial := none } }

/-- `signal Unofficial(opcode, a0)` and `return (cycles = 1, unofficial = 1)`; the sticky mark is set (R166, U1). -/
def State.signalUnofficial (opcode : Byte) (addr : Word) (s : State) : State :=
  { s with
    out := some { cycles := 1, unofficial := some { opcode := opcode, addr := addr } }
    unofficialSeen := true }

/-- `f` applied to the next state, if there is one. -/
def mapNext (f : State → State) : Host.Outcome State Fault Refusal → Host.Outcome State Fault Refusal
  | .next s    => .next (f s)
  | .fault r   => .fault r
  | .refused r => .refused r

/-- Store bytes at consecutive addresses, modulo 65536, as memory contents: no bus access of the core. -/
def State.placeBytes (s : State) (a : Word) : List Byte → State
  | [] => s
  | b :: bs => State.placeBytes { s with mem := Memory.put s.mem a.toNat b } (a + 1) bs

end Sys2Proof.Machine
end

