-- ==== Sys2Proof/Machine/HostOps.lean ====
section
/-! DEFINITION. The operations of the host other than `STEP`: `RESET` (spec/70_reset_and_hazards.md R186, R187), `IRQ`
and `NMI` (spec/60_exceptions.md R171 to R173), and a change of memory between operations (R177). -/

namespace Sys2Proof.Machine

/-- `RESET` (R186): the registers, then PC from the reset vector; memory is not touched and nothing is pushed. -/
def opReset (s : State) : State :=
  jumpThrough resetVector
    { s.beginOp with A := 0x00, X := 0x00, Y := 0x00, S := 0xFF, P := 0x20, resetSeen := true }

/-- `IRQ` (R172): taken if I is 0; else dropped, with no register change and no bus access, and not remembered
(R171). -/
def opIrq (s : State) : State :=
  if s.flag .i then s.beginOp else takeTrap false true irqVector s.beginOp

/-- `NMI` (R173): taken whatever I is. -/
def opNmi (s : State) : State :=
  takeTrap false true nmiVector s.beginOp

/-- The host changes one byte of memory between operations (R177): no operation of the core, so its outputs stay. -/
def opWrite (a : Word) (v : Byte) (s : State) : State :=
  { s with mem := Memory.put s.mem a.toNat v }

/-- The move that the host makes now: the front of its queue, or STEP if the queue is empty (log 3). -/
def State.nextOp (s : State) : HostOp :=
  match s.host with
  | [] => .step
  | op :: _ => op

/-- The state with the host's next move taken off its queue. -/
def State.popOp (s : State) : State :=
  { s with host := s.host.tail }

end Sys2Proof.Machine
end

