-- ==== Sys2Proof/Machine/Rules.lean ====
section
/-! DEFINITION. `Execute(mnemonic, mode, operand)` by category (spec/40_dispatch_and_addressing.md R82), for any pair of
mnemonic and mode whose category fits: the 56 rules, and the dispatch over them. With the opcode map of R57 it is `exec`
in another form; a step with another opcode map runs through it the pairs that R57 does not have (log 22). -/

namespace Sys2Proof

open Machine

/-- The rule of a Command mnemonic (R90 to R114). -/
def Mnemonic.commandRule : Mnemonic → State → State
  | .clc, s => s.setFlag .c false
  | .cld, s => s.setFlag .d false
  | .cli, s => s.setFlag .i false
  | .clv, s => s.setFlag .v false
  | .sec, s => s.setFlag .c true
  | .sed, s => s.setFlag .d true
  | .sei, s => s.setFlag .i true
  | .dex, s => loadX (s.X - 1) s
  | .dey, s => loadY (s.Y - 1) s
  | .inx, s => loadX (s.X + 1) s
  | .iny, s => loadY (s.Y + 1) s
  | .tax, s => loadX s.A s
  | .tay, s => loadY s.A s
  | .txa, s => loadA s.X s
  | .tya, s => loadA s.Y s
  | .tsx, s => loadX s.S s
  | .txs, s => { s with S := s.X }
  | .pha, s => push8 s.A s
  | .php, s => push8 s.readP s
  | .pla, s => loadA (pop8 s).1 (pop8 s).2
  | .plp, s => (pop8 s).2.writeP (pop8 s).1
  | .brk, s => takeTrap true false irqVector s
  | .rti, s => returnFromTrap s
  | .rts, s => { (pop16 s).2 with PC := (pop16 s).1 + 1 }
  | _, s => s

/-- The rule of an Argument mnemonic (R131 to R142). -/
def Mnemonic.argumentRule : Mnemonic → Byte → State → State
  | .adc, m, s => Machine.adc m s
  | .sbc, m, s => Machine.sbc m s
  | .and, m, s => andA m s
  | .eor, m, s => eorA m s
  | .ora, m, s => oraA m s
  | .bit, m, s => bitTest m s
  | .cmp, m, s => cmpA m s
  | .cpx, m, s => cmpX m s
  | .cpy, m, s => cmpY m s
  | .lda, m, s => loadA m s
  | .ldx, m, s => loadX m s
  | .ldy, m, s => loadY m s
  | _, _, s => s

/-- The rule of a MemoryWrite mnemonic (R147 to R153). -/
def Mnemonic.memoryRule : Mnemonic → Word → State → State
  | .jmp, ea, s => jump ea s
  | .jsr, ea, s => callSub ea s
  | .inc, ea, s => incMem ea s
  | .dec, ea, s => decMem ea s
  | .sta, ea, s => storeA ea s
  | .stx, ea, s => storeX ea s
  | .sty, ea, s => storeY ea s
  | _, _, s => s

/-- The function of an AccumulatorWrite mnemonic (R157 to R160). -/
def Mnemonic.shiftFn : Mnemonic → Byte → Bool → Byte × Bool
  | .asl => aslFn
  | .lsr => lsrFn
  | .rol => rolFn
  | .ror => rorFn
  | _ => fun m c => (m, c)

/-- The condition of a branch mnemonic on P (R121 to R128); none for any other mnemonic. -/
def branchTaken (mn : Mnemonic) (p : Byte) : Option Bool :=
  match mn with
  | .bcc => some (!flagOf .c p)
  | .bcs => some (flagOf .c p)
  | .bne => some (!flagOf .z p)
  | .beq => some (flagOf .z p)
  | .bpl => some (!flagOf .n p)
  | .bmi => some (flagOf .n p)
  | .bvc => some (!flagOf .v p)
  | .bvs => some (flagOf .v p)
  | _ => none

/-- The table of R82: what is done for a category and a kind of operand; none for a pairing it does not have (R60). -/
def Machine.execute (mn : Mnemonic) (f : OperandForm) (s : State) : Option State :=
  match mn.category, f with
  | .command, .none => some (mn.commandRule s)
  | .branch, .relative d => (branchTaken mn s.P).map (fun c => branchIf c d s)
  | .argument, .immediate m => some (mn.argumentRule m s)
  | .argument, .memory am => some (argument mn.argumentRule am s)
  | .memoryWrite, .memory am => some (memoryWrite mn.memoryRule am s)
  | .accumulatorWrite, .accumulator => some (shiftAccumulator mn.shiftFn s)
  | .accumulatorWrite, .memory am => some (shiftMemory mn.shiftFn am s)
  | _, _ => none

/-- `Execute` of a decode entry's mnemonic and mode with its operand bytes (R82). -/
def Machine.dispatch (mn : Mnemonic) (md : Mode) (ops : List Byte) (s : State) : Option State :=
  match operandForm md ops with
  | some f => execute mn f s
  | none => none

end Sys2Proof
end

