-- ==== Sys2Proof/Machine/Step.lean ====
section
/-! DEFINITION. One step of the machine: the host's next move, which is one whole operation of the core
(spec/00_scope.md R5) or a change of memory between operations. -/

namespace Sys2Proof.Machine

/-- The operation `STEP` (R65) with the opcode map `om`: fetch, execute, return; an unofficial opcode is skipped (R166).
An entry that is a row of R57 is an instruction, and `exec` runs it; any other entry runs through `dispatch` (R82; log 22). -/
def opStep (om : OpcodeMap) (s : State) : Host.Outcome State Fault Refusal :=
  match fetchInstr om s.beginOp with
  | .instr i n t       => mapNext (State.returnCycles n) (exec i t)
  | .unofficial op a t => .next (t.signalUnofficial op a)
  | .entry e ops t     =>
    match dispatch e.mnemonic e.mode ops t with
    | some u => .next (u.returnCycles e.cycles)
    | none   => .refused (.badDecodeEntry e.opcode)

/-- One step of the machine whose opcode map is `om`: the host's next move is taken off its queue and made. Before the
first RESET, `STEP`, `IRQ` and `NMI` are refused (R27, D2). -/
def stepWith (om : OpcodeMap) (s : State) : Host.Outcome State Fault Refusal :=
  match s.nextOp with
  | .reset     => .next (opReset s.popOp)
  | .irq       => if s.resetSeen then .next (opIrq s.popOp) else .refused .beforeFirstReset
  | .nmi       => if s.resetSeen then .next (opNmi s.popOp) else .refused .beforeFirstReset
  | .step      => if s.resetSeen then opStep om s.popOp else .refused .beforeFirstReset
  | .write a v => .next (opWrite a v s.popOp)
  | .busError  => .fault .busError

/-- One step of the machine with the default opcode map (R4, R57). -/
def step (s : State) : Host.Outcome State Fault Refusal :=
  stepWith Config.opcodeMap s

/-- `s` with the instruction whose bits are `w` (bits above `nbits` zero) stored at PC, the bus being the flat RAM, the
next move of the host `STEP` and a RESET issued, so that the very next step fetches and runs it (log 7). -/
def State.withFetchWord (s : State) (nbits w : Nat) : State :=
  { s.placeBytes s.PC [tableByte nbits w 0, tableByte nbits w 1, tableByte nbits w 2] with
    answers := []
    host := []
    resetSeen := true }

end Sys2Proof.Machine
end

