-- ==== Sys2Proof/Machine/Bus.lean ====
section
/-! DEFINITION. The bus as the open parameter of spec/00_scope.md R4 and spec/20_memory.md R30 (D7): any pair of total
functions, with a state of its own behind them; the reference bus of R31; and a step of the core on a bus. -/

namespace Sys2Proof.Machine

/-- A conforming implementor of the bus with internal state `σ` (R30): `read` answers a byte and may change what is
behind the bus, `write` only changes it. -/
structure Bus (σ : Type) where
  read  : σ → Word → Byte × σ
  write : σ → Word → Byte → σ

/-- A bus serves accesses one after another, each in effect before the next (R30): the answers to the reads, in order,
and what is behind the bus after them. -/
def Bus.serve {σ : Type} (b : Bus σ) : σ → List BusAccess → List Byte × σ
  | q, [] => ([], q)
  | q, .read a :: l =>
    let x := b.read q a
    let r := b.serve x.2 l
    (x.1 :: r.1, r.2)
  | q, .write a v :: l => b.serve (b.write q a v) l

/-- The reference bus: a flat RAM with no side effects (R31). -/
def flatRam : Bus (List Host.Cell) where
  read m a := (Memory.get m a.toNat, m)
  write m a v := Memory.put m a.toNat v

/-- One step of the core, with the opcode map `om`, attached to the bus `b`, from the state `s` of the core and `q` behind
the bus to `t` and `q'`: the bytes that the core reads are those that the bus answers to the very accesses that the step
makes, in order. -/
def StepOn {σ : Type} (om : OpcodeMap) (b : Bus σ) (s : State) (q : σ) (t : State) (q' : σ) : Prop :=
  ∃ l : List Byte, stepWith om { s with answers := l.map some } = .next t ∧ t.answers = [] ∧
    b.serve q t.bus = (l, q')

end Sys2Proof.Machine
end

