-- ==== Sys2Proof/Safety.lean ====
section
/-! DEFINITION. The terms in which claims about the machine are stated: what an instruction's operands denote, which bits
of P an instruction may change, the bus accesses of the spec's table, what a safe run is, and the invariant. No
meaning uses these definitions. -/

namespace Sys2Proof

open Machine

/-- The operand form of each instruction (R53, R57). -/
def Instr.form : Instr → OperandForm
  | .clc => .none
  | .cld => .none
  | .cli => .none
  | .clv => .none
  | .sec => .none
  | .sed => .none
  | .sei => .none
  | .dex => .none
  | .dey => .none
  | .inx => .none
  | .iny => .none
  | .tax => .none
  | .tay => .none
  | .txa => .none
  | .tya => .none
  | .tsx => .none
  | .txs => .none
  | .nop => .none
  | .pha => .none
  | .php => .none
  | .pla => .none
  | .plp => .none
  | .brk => .none
  | .rti => .none
  | .rts => .none
  | .bcc d => .relative d
  | .bcs d => .relative d
  | .bne d => .relative d
  | .beq d => .relative d
  | .bpl d => .relative d
  | .bmi d => .relative d
  | .bvc d => .relative d
  | .bvs d => .relative d
  | .adcImm m => .immediate m
  | .adcZp z => .memory (.zeroPage z)
  | .adcZpx z => .memory (.zeroPageX z)
  | .adcAbs w => .memory (.absolute w)
  | .adcAbx w => .memory (.absoluteX w)
  | .adcAby w => .memory (.absoluteY w)
  | .adcIzx z => .memory (.indirectX z)
  | .adcIzy z => .memory (.indirectY z)
  | .sbcImm m => .immediate m
  | .sbcZp z => .memory (.zeroPage z)
  | .sbcZpx z => .memory (.zeroPageX z)
  | .sbcAbs w => .memory (.absolute w)
  | .sbcAbx w => .memory (.absoluteX w)
  | .sbcAby w => .memory (.absoluteY w)
  | .sbcIzx z => .memory (.indirectX z)
  | .sbcIzy z => .memory (.indirectY z)
  | .andImm m => .immediate m
  | .andZp z => .memory (.zeroPage z)
  | .andZpx z => .memory (.zeroPageX z)
  | .andAbs w => .memory (.absolute w)
  | .andAbx w => .memory (.absoluteX w)
  | .andAby w => .memory (.absoluteY w)
  | .andIzx z => .memory (.indirectX z)
  | .andIzy z => .memory (.indirectY z)
  | .eorImm m => .immediate m
  | .eorZp z => .memory (.zeroPage z)
  | .eorZpx z => .memory (.zeroPageX z)
  | .eorAbs w => .memory (.absolute w)
  | .eorAbx w => .memory (.absoluteX w)
  | .eorAby w => .memory (.absoluteY w)
  | .eorIzx z => .memory (.indirectX z)
  | .eorIzy z => .memory (.indirectY z)
  | .oraImm m => .immediate m
  | .oraZp z => .memory (.zeroPage z)
  | .oraZpx z => .memory (.zeroPageX z)
  | .oraAbs w => .memory (.absolute w)
  | .oraAbx w => .memory (.absoluteX w)
  | .oraAby w => .memory (.absoluteY w)
  | .oraIzx z => .memory (.indirectX z)
  | .oraIzy z => .memory (.indirectY z)
  | .bitZp z => .memory (.zeroPage z)
  | .bitAbs w => .memory (.absolute w)
  | .cmpImm m => .immediate m
  | .cmpZp z => .memory (.zeroPage z)
  | .cmpZpx z => .memory (.zeroPageX z)
  | .cmpAbs w => .memory (.absolute w)
  | .cmpAbx w => .memory (.absoluteX w)
  | .cmpAby w => .memory (.absoluteY w)
  | .cmpIzx z => .memory (.indirectX z)
  | .cmpIzy z => .memory (.indirectY z)
  | .cpxImm m => .immediate m
  | .cpxZp z => .memory (.zeroPage z)
  | .cpxAbs w => .memory (.absolute w)
  | .cpyImm m => .immediate m
  | .cpyZp z => .memory (.zeroPage z)
  | .cpyAbs w => .memory (.absolute w)
  | .ldaImm m => .immediate m
  | .ldaZp z => .memory (.zeroPage z)
  | .ldaZpx z => .memory (.zeroPageX z)
  | .ldaAbs w => .memory (.absolute w)
  | .ldaAbx w => .memory (.absoluteX w)
  | .ldaAby w => .memory (.absoluteY w)
  | .ldaIzx z => .memory (.indirectX z)
  | .ldaIzy z => .memory (.indirectY z)
  | .ldxImm m => .immediate m
  | .ldxZp z => .memory (.zeroPage z)
  | .ldxZpy z => .memory (.zeroPageY z)
  | .ldxAbs w => .memory (.absolute w)
  | .ldxAby w => .memory (.absoluteY w)
  | .ldyImm m => .immediate m
  | .ldyZp z => .memory (.zeroPage z)
  | .ldyZpx z => .memory (.zeroPageX z)
  | .ldyAbs w => .memory (.absolute w)
  | .ldyAbx w => .memory (.absoluteX w)
  | .jmpAbs w => .memory (.absolute w)
  | .jmpInd w => .memory (.indirect w)
  | .jsrAbs w => .memory (.absolute w)
  | .incZp z => .memory (.zeroPage z)
  | .incZpx z => .memory (.zeroPageX z)
  | .incAbs w => .memory (.absolute w)
  | .incAbx w => .memory (.absoluteX w)
  | .decZp z => .memory (.zeroPage z)
  | .decZpx z => .memory (.zeroPageX z)
  | .decAbs w => .memory (.absolute w)
  | .decAbx w => .memory (.absoluteX w)
  | .staZp z => .memory (.zeroPage z)
  | .staZpx z => .memory (.zeroPageX z)
  | .staAbs w => .memory (.absolute w)
  | .staAbx w => .memory (.absoluteX w)
  | .staAby w => .memory (.absoluteY w)
  | .staIzx z => .memory (.indirectX z)
  | .staIzy z => .memory (.indirectY z)
  | .stxZp z => .memory (.zeroPage z)
  | .stxZpy z => .memory (.zeroPageY z)
  | .stxAbs w => .memory (.absolute w)
  | .styZp z => .memory (.zeroPage z)
  | .styZpx z => .memory (.zeroPageX z)
  | .styAbs w => .memory (.absolute w)
  | .aslAcc => .accumulator
  | .aslZp z => .memory (.zeroPage z)
  | .aslZpx z => .memory (.zeroPageX z)
  | .aslAbs w => .memory (.absolute w)
  | .aslAbx w => .memory (.absoluteX w)
  | .lsrAcc => .accumulator
  | .lsrZp z => .memory (.zeroPage z)
  | .lsrZpx z => .memory (.zeroPageX z)
  | .lsrAbs w => .memory (.absolute w)
  | .lsrAbx w => .memory (.absoluteX w)
  | .rolAcc => .accumulator
  | .rolZp z => .memory (.zeroPage z)
  | .rolZpx z => .memory (.zeroPageX z)
  | .rolAbs w => .memory (.absolute w)
  | .rolAbx w => .memory (.absoluteX w)
  | .rorAcc => .accumulator
  | .rorZp z => .memory (.zeroPage z)
  | .rorZpx z => .memory (.zeroPageX z)
  | .rorAbs w => .memory (.absolute w)
  | .rorAbx w => .memory (.absoluteX w)

/-- The effective address of an instruction whose mode has one: the function the meanings use, applied to the state in
which `Execute` starts (R68). -/
def Instr.address (i : Instr) (s : State) : Option Word :=
  match i.form with
  | .memory am => some (effAddr am s).1
  | _ => none

/-- The byte an instruction operates on: the operand byte, A, or what the bus answers at the effective address,
after the pointer reads (R82). -/
def Instr.operand (i : Instr) (s : State) : Option Byte :=
  match i.form with
  | .none => none
  | .accumulator => some s.A
  | .immediate m => some m
  | .relative d => some d
  | .memory am => some (s.answer am.reads (effAddr am s).1)

/-- The encodings of a mnemonic, in opcode order: opcode byte, mode, base cycles (R57). -/
def formsOf (mn : Mnemonic) : List (Byte × Mode × Nat) :=
  (opcodeTable.filter (fun e => e.mnemonic == mn)).map (fun e => (e.opcode, e.mode, e.cycles.toNat))

/-- `q` has the bits of `p` but for those of the flags `fs` ("Flags not mentioned are preserved", R6). Bit 5 is the bit
of no flag, so it is kept too. -/
def keepsExcept (fs : List Flag) (p q : Byte) : Prop :=
  ∀ k, k < 8 → (∀ f ∈ fs, f.bit ≠ k) → q.getLsbD k = p.getLsbD k

/-- Z and N of `p` are those of the result `v` (R20). -/
def showsNZ (v p : Byte) : Prop :=
  (flagOf .z p = true ↔ v = 0) ∧ flagOf .n p = v.getLsbD 7

/-- `sp(k)` of R85: the stack address `k` above the one S names, in the ring of page 1 (R43). -/
def stackSlot (s : State) (k : Byte) : Word :=
  mkWord 0x01 (s.S + k)

/-- The three bytes that the bus answers from PC on, enough for the longest instruction (R50, R66). -/
def bytesAtPC (s : State) : List Byte :=
  [s.answer 0 s.PC, s.answer 1 (s.PC + 1), s.answer 2 (s.PC + 2)]

/-- The next step is a `STEP` of the instruction `i`: a RESET has been issued (R27), the host's next move is STEP, and
the bytes at PC decode to `i`. -/
def RunsNext (s : State) (i : Instr) : Prop :=
  s.resetSeen = true ∧ s.nextOp = .step ∧ ∃ rest, decode (bytesAtPC s) = .instr i rest

/-- The reads of the fetch of an instruction, one per byte, at PC and following addresses modulo 65536 (R66, R85). -/
def fetchReads (pc : Word) : Nat → List BusAccess
  | 0 => []
  | n + 1 => .read pc :: fetchReads (pc + 1) n

/-- The state in which `Execute` of an instruction of `n` bytes starts when `STEP` is issued in `s` (R67): PC past the
instruction, its bytes read, nothing returned yet, the move taken off the host's queue. -/
def afterFetchOf (s : State) (n : Nat) : State :=
  { s with
    PC := s.PC + BitVec.ofNat 16 n
    answers := s.answers.drop n
    bus := fetchReads s.PC n
    out := none
    host := s.host.tail }

/-- The state in which `Execute` of `i` starts when `STEP` is issued in `s`. -/
def afterFetch (s : State) (i : Instr) : State :=
  afterFetchOf s i.length

/-- A bus access without the byte written: is it a write, and where. -/
def Machine.BusAccess.place : BusAccess → Bool × Word
  | .read a => (false, a)
  | .write a _ => (true, a)

/-- The memory that results from the writes of a list of bus accesses, in order (R44). -/
def replay : List BusAccess → List Host.Cell → List Host.Cell
  | [], m => m
  | .read _ :: l, m => replay l m
  | .write a v :: l, m => replay l (Memory.put m a.toNat v)

/-- The number of reads in a list of bus accesses. -/
def readsIn : List BusAccess → Nat
  | [] => 0
  | .read _ :: l => readsIn l + 1
  | .write _ _ :: l => readsIn l

/-- Every read to come is answered by the flat RAM: the reference bus (R31). -/
def OnRam (s : State) : Prop :=
  ∀ x ∈ s.answers, x = none

/-- The pointer reads of an addressing mode (column "resolver" of R85): low byte, then high byte (D6). -/
def pointerReads (am : AddrMode) (s : State) : List BusAccess :=
  match am with
  | .indirect w  => [.read w, .read (mkWord (hiByte w) (loByte w + 1))]
  | .indirectX z => [.read (mkWord 0 (z + s.X)), .read (mkWord 0 (z + s.X + 1))]
  | .indirectY z => [.read (mkWord 0 z), .read (mkWord 0 (z + 1))]
  | _ => []

/-- Column "resolver" of R85: the pointer reads of an indirect mode. -/
def resolverPlaces (i : Instr) (s : State) : List (Bool × Word) :=
  match i.form with
  | .memory am => (pointerReads am s).map BusAccess.place
  | _ => []

/-- Reads of `ea`, writes of `ea`, or both, where there is an `ea`. -/
def eaPlaces (i : Instr) (s : State) (kinds : List Bool) : List (Bool × Word) :=
  match i.address s with
  | some ea => kinds.map (fun w => (w, ea))
  | none => []

/-- Column "execute" of R85. -/
def executePlaces (i : Instr) (s : State) : List (Bool × Word) :=
  match i.mnemonic with
  | .pha | .php => [(true, stackSlot s 0)]
  | .pla | .plp => [(false, stackSlot s 1)]
  | .brk => [(true, stackSlot s 0), (true, stackSlot s (-1)), (true, stackSlot s (-2)), (false, 0xFFFE), (false, 0xFFFF)]
  | .rti => [(false, stackSlot s 1), (false, stackSlot s 2), (false, stackSlot s 3)]
  | .rts => [(false, stackSlot s 1), (false, stackSlot s 2)]
  | .jsr => [(true, stackSlot s 0), (true, stackSlot s (-1))]
  | .adc | .sbc | .and | .eor | .ora | .bit | .cmp | .cpx | .cpy | .lda | .ldx | .ldy => eaPlaces i s [false]
  | .sta | .stx | .sty => eaPlaces i s [true]
  | .inc | .dec | .asl | .lsr | .rol | .ror => eaPlaces i s [false, true]
  | _ => []

/-- Memory after a trap entry from `s` that pushed PC and then the status byte `p` (R175), byte by byte: three slots of
the stack ring written, every other byte as before. -/
def TrapFrame (s : State) (p : Byte) (m : List Host.Cell) : Prop :=
  ∀ a : Word, Memory.get m a.toNat =
    if a = stackSlot s 0 then hiByte s.PC
    else if a = stackSlot s (-1) then loByte s.PC
    else if a = stackSlot s (-2) then p
    else s.byteAt a

/-- The little-endian word that the bus answers in the next two reads, of `v` and then of `v + 1` (R32, D6). -/
def wordAt (s : State) (v : Word) : Word :=
  mkWord (s.answer 1 (v + 1)) (s.answer 0 v)

/-- A run has been free of unofficial opcodes: the premise R166 and U1 ask of a claim meant for a physical 6502. -/
def OfficialOnly (s : State) : Prop :=
  s.unofficialSeen = false

/-- What `STEP` returned is consistent: 2 to 7 cycles for a legal opcode; for an unofficial one 1 cycle, an opcode that
has no decode entry, and the sticky mark set (R84, R166). -/
def returnOk (s : State) : Prop :=
  match s.out with
  | none => True
  | some r =>
    match r.unofficial with
    | none => 2 ≤ r.cycles.toNat ∧ r.cycles.toNat ≤ 7
    | some d => r.cycles = 1 ∧ lookup d.opcode = none ∧ s.unofficialSeen = true

/-- The invariant: memory is in its canonical form; from the first RESET on bit 5 of P is 1 (R17); no operation makes
more than six bus accesses (R85); what `STEP` returned is consistent. -/
structure Inv (s : State) : Prop where
  memory : Memory.wf s.mem = true
  bitFive : s.resetSeen = true → s.P.getLsbD 5 = true
  accesses : s.bus.length ≤ 6
  returned : returnOk s

end Sys2Proof
end

