-- ==== Sys2Proof/Certificates/Slice0/Obligations.lean ====
section
/-! DEFINITION. The statements for the provers. Where a rule of spec/ marks a clause as the spec's own decision (D<n>),
the docstring names it, and the statement's basis is derived. An instruction's statement speaks of `exec`, whose state
has PC already past the instruction (spec/40_dispatch_and_addressing.md R67). -/

open Sys2Proof Sys2Proof.Machine

/-- The seven opcodes DOC0 shows and one instruction of each mode and category, with the operand bytes of the examples
of spec/30_encoding.md R61 and spec/40 R69 to R81; the other opcode bytes are general knowledge by D14 (log 10). -/
def Obligations.WordsOfEveryFamilyDecode : Prop :=
  decode [0xE8] = .instr .inx [] ∧
  decode [0x0A] = .instr .aslAcc [] ∧
  decode [0xA9, 0x7F] = .instr (.ldaImm 0x7F) [] ∧
  decode [0x69, 0x50] = .instr (.adcImm 0x50) [] ∧
  decode [0xA5, 0x80] = .instr (.ldaZp 0x80) [] ∧
  decode [0xB5, 0xF0] = .instr (.ldaZpx 0xF0) [] ∧
  decode [0xB6, 0xFF] = .instr (.ldxZpy 0xFF) [] ∧
  decode [0xD0, 0xFB] = .instr (.bne 0xFB) [] ∧
  decode [0xAD, 0x34, 0x12] = .instr (.ldaAbs 0x1234) [] ∧
  decode [0xBD, 0xFF, 0x12] = .instr (.ldaAbx 0x12FF) [] ∧
  decode [0xB9, 0x00, 0x20] = .instr (.ldaAby 0x2000) [] ∧
  decode [0x6C, 0xFF, 0x10] = .instr (.jmpInd 0x10FF) [] ∧
  decode [0xA1, 0x20] = .instr (.ldaIzx 0x20) [] ∧
  decode [0xB1, 0x86] = .instr (.ldaIzy 0x86) [] ∧
  decode [0x4C, 0x00, 0x00] = .instr (.jmpAbs 0x0000) [] ∧
  decode [0x20, 0x05, 0x00, 0xEA] = .instr (.jsrAbs 0x0005) [0xEA] ∧
  decode [0x60] = .instr .rts [] ∧
  decode [0x7E, 0xFF, 0x12] = .instr (.rorAbx 0x12FF) [] ∧
  decode [0x02, 0xE8, 0xE8] = .unofficial 0x02 [0xE8, 0xE8]

/-- Both directions: no bit of an encoding is dropped (decode of encode is the instruction, at every operand value), and
no other bytes decode to it. Rests on the opcode map of R57 (D14, log 10). -/
def Obligations.DecodeInvertsEncode : Prop :=
  ∀ (i : Instr) (bs rest : List Byte), decode bs = .instr i rest ↔ bs = encode i ++ rest

/-- The list of R58, which the spec derives from the map of R57 (general knowledge, D14, log 10). -/
def Obligations.UnofficialOpcodesAreTheListed105 : Prop :=
  ∀ b : Byte, lookup b = none ↔ b ∈ ([
    0x02, 0x03, 0x04, 0x07, 0x0B, 0x0C, 0x0F, 0x12, 0x13, 0x14, 0x17, 0x1A, 0x1B, 0x1C, 0x1F, 0x22, 0x23, 0x27,
    0x2B, 0x2F, 0x32, 0x33, 0x34, 0x37, 0x3A, 0x3B, 0x3C, 0x3F, 0x42, 0x43, 0x44, 0x47, 0x4B, 0x4F, 0x52, 0x53,
    0x54, 0x57, 0x5A, 0x5B, 0x5C, 0x5F, 0x62, 0x63, 0x64, 0x67, 0x6B, 0x6F, 0x72, 0x73, 0x74, 0x77, 0x7A, 0x7B,
    0x7C, 0x7F, 0x80, 0x82, 0x83, 0x87, 0x89, 0x8B, 0x8F, 0x92, 0x93, 0x97, 0x9B, 0x9C, 0x9E, 0x9F, 0xA3, 0xA7,
    0xAB, 0xAF, 0xB2, 0xB3, 0xB7, 0xBB, 0xBF, 0xC2, 0xC3, 0xC7, 0xCB, 0xCF, 0xD2, 0xD3, 0xD4, 0xD7, 0xDA, 0xDB,
    0xDC, 0xDF, 0xE2, 0xE3, 0xE7, 0xEB, 0xEF, 0xF2, 0xF3, 0xF4, 0xF7, 0xFA, 0xFB, 0xFC, 0xFF] : List Byte)

/-- R60: the internal invariant violation "must never occur for a correctly populated table"; the table is that of R57
(D14, D15, logs 10 and 11). So the refusal badDecodeEntry is never reached (log 21). -/
def Obligations.OpcodeTableIsConsistent : Prop :=
  tableWf opcodeTable = true ∧ opcodeTable.length = 151 ∧
  ∀ e ∈ opcodeTable, ∀ ops : List Byte, ops.length = e.mode.operandBytes →
    ∃ i, assemble e.mnemonic e.mode ops = some i ∧ i.mnemonic = e.mnemonic ∧ i.mode = e.mode

/-- The table of R51, for the bytes of every instruction. -/
def Obligations.InstructionLengthFollowsMode : Prop :=
  ∀ i : Instr, (encode i).length = 1 + i.mode.operandBytes ∧
    (i.mode ∈ [Mode.implied, .accumulator] → i.mode.operandBytes = 0 ∧ (encode i).length = 1) ∧
    (i.mode ∈ [Mode.immediate, .zeroPage, .zeroPageX, .zeroPageY, .relative, .indirectX, .indirectY] →
      i.mode.operandBytes = 1 ∧ (encode i).length = 2) ∧
    (i.mode ∈ [Mode.absolute, .absoluteX, .absoluteY, .indirect] →
      i.mode.operandBytes = 2 ∧ (encode i).length = 3)

/-- R65 to R67. The queue of the host's moves and the returned value in the state are the model's (logs 3 and 9); PC
modulo 65536 is D3; the list of reads is D16. -/
def Obligations.StepExecutesTheDecodedInstruction : Prop :=
  ∀ (s : State) (i : Instr), RunsNext s i →
    ∃ e, lookup (s.answer 0 s.PC) = some e ∧ e.mnemonic = i.mnemonic ∧ e.mode = i.mode ∧
      step s = mapNext (State.returnCycles e.cycles) (exec i (afterFetch s i))

/-- R166 and R58. The form of the diagnostic is D13, and the sticky mark is the model's (log 9); PC modulo 65536 is D3. -/
def Obligations.UnofficialOpcodeIsSkipped : Prop :=
  ∀ s : State, s.resetSeen = true → s.nextOp = .step → lookup (s.answer 0 s.PC) = none →
    step s = .next { s with
      PC := s.PC + 1
      answers := s.answers.drop 1
      bus := [.read s.PC]
      out := some { cycles := 1, unofficial := some { opcode := s.answer 0 s.PC, addr := s.PC } }
      host := s.host.tail
      unofficialSeen := true }

/-- R65: "STEP never fails and never blocks (given a total bus)"; R198: every opcode value, legal or not, lets the next
STEP proceed. The total bus is D7 (logs 1 and 5). -/
def Obligations.StepAlwaysCompletes : Prop :=
  ∀ s : State, s.resetSeen = true → s.nextOp = .step →
    ∃ t r, step s = .next t ∧ t.out = some r ∧ (r.unofficial.isSome = true ↔ lookup (s.answer 0 s.PC) = none)

/-- R83. The premise that a RESET has been issued and that the next move is STEP is RunsNext (logs 3 and 6). -/
def Obligations.PcAfterStepIsTheNextOpcode : Prop :=
  (∀ (s : State) (i : Instr), RunsNext s i →
    i.mnemonic ∉ [Mnemonic.jmp, .jsr, .rts, .rti, .brk] → branchTaken i.mnemonic s.P ≠ some true →
    ∃ t, step s = .next t ∧ t.PC.toNat = (s.PC.toNat + (encode i).length) % 65536) ∧
  (∀ s : State, s.resetSeen = true → s.nextOp = .step → lookup (s.answer 0 s.PC) = none →
    ∃ t, step s = .next t ∧ t.PC.toNat = (s.PC.toNat + 1) % 65536)

/-- R84. The counts themselves are general knowledge (D15, log 11). -/
def Obligations.ReturnedCyclesDependOnTheOpcodeAlone : Prop :=
  ∀ (s : State) (i : Instr), RunsNext s i →
    ∃ t n, step s = .next t ∧ t.out = some { cycles := BitVec.ofNat 8 n, unofficial := none } ∧
      2 ≤ n ∧ n ≤ 7 ∧ (s.answer 0 s.PC, i.mode, n) ∈ formsOf i.mnemonic ∧
      ∀ mn m k, (s.answer 0 s.PC, m, k) ∈ formsOf mn → k = n

/-- R27 with D2 (log 6), R49 and R167 with D7 (log 5), and R198. In particular no instruction ends in a fault or a
refusal. -/
def Obligations.StepStopsOnlyBeforeResetOrOnABusFailure : Prop :=
  ∀ s : State,
    (∀ r, step s = .fault r ↔ s.nextOp = .busError ∧ r = .busError) ∧
    (∀ r, step s = .refused r ↔
      s.resetSeen = false ∧ s.nextOp ∈ [HostOp.step, .irq, .nmi] ∧ r = .beforeFirstReset)

/-- The table of R85 with R34; the addresses are computed in the state after the fetch (afterFetch), with the answers of
the bus to the pointer reads. The list is the spec's own (D6, D16; log 8); the values written are stated with each
instruction. -/
def Obligations.BusAccessesOfStep : Prop :=
  ∀ (s : State) (i : Instr), RunsNext s i →
    ∃ t, step s = .next t ∧
      t.bus.map BusAccess.place =
        (fetchReads s.PC i.length).map BusAccess.place ++
          resolverPlaces i (afterFetch s i) ++ executePlaces i (afterFetch s i)

/-- R44 on the reference bus (D7, log 1). It ties the recorded accesses to their effect. -/
def Obligations.MemoryFollowsTheWritesOnTheBus : Prop :=
  ∀ s t : State, step s = .next t → (∀ a v, s.nextOp ≠ .write a v) → t.mem = replay t.bus s.mem

/-- R186 and R26. It does not depend on the registers before (R187), and it is accepted before the first RESET too. The
queue and resetSeen are the model's (logs 3 and 6, DESIGN CHOICE), and so are the answers of the bus (log 1); that
0xFFFC is read before 0xFFFD is D6 (log 8). -/
def Obligations.ResetOperationSetsTheRegisters : Prop :=
  ∀ s : State, s.nextOp = .reset →
    step s = .next { s with
      A := 0x00
      X := 0x00
      Y := 0x00
      S := 0xFF
      P := 0x20
      PC := wordAt s 0xFFFC
      answers := s.answers.drop 2
      bus := [.read 0xFFFC, .read 0xFFFD]
      out := none
      host := s.host.tail
      resetSeen := true }

/-- R26 and R186 at the model's own power-on state (D2, log 6). PC = 0x0000 there rests on the model's choice that an
unlisted byte reads 0x00 (log 2). -/
def Obligations.ResetStateIsWhatResetLeaves : Prop :=
  State.reset.A = 0x00 ∧ State.reset.X = 0x00 ∧ State.reset.Y = 0x00 ∧ State.reset.S = 0xFF ∧
  State.reset.P = 0x20 ∧ State.reset.PC = wordAt State.reset 0xFFFC ∧ State.reset.mem = [] ∧
  step State.powerOn = .next State.reset

/-- R172 and R175. That the pushed P already has I = 1 is the spec's reading (D8, log 14). -/
def Obligations.IrqIsTakenWhenIIsClear : Prop :=
  ∀ s : State, s.nextOp = .irq → s.resetSeen = true → flagOf .i s.P = false →
    ∃ p m, step s = .next { s with
        S := s.S - 3
        P := p
        PC := wordAt s 0xFFFE
        mem := m
        answers := s.answers.drop 2
        bus := [.write (stackSlot s 0) (hiByte s.PC), .write (stackSlot s (-1)) (loByte s.PC),
          .write (stackSlot s (-2)) (p ||| 0x20), .read 0xFFFE, .read (0xFFFE + 1)]
        out := none
        host := s.host.tail } ∧
      flagOf .b p = false ∧ flagOf .i p = true ∧ keepsExcept [.b, .i] s.P p ∧ TrapFrame s (p ||| 0x20) m

/-- R171: "the operation does nothing at all: no register changes, no bus access, and the request is not remembered"
(D11). -/
def Obligations.IrqIsDroppedWhenIIsSet : Prop :=
  ∀ s : State, s.nextOp = .irq → s.resetSeen = true → flagOf .i s.P = true →
    step s = .next { s with bus := [], out := none, host := s.host.tail }

/-- R173 and R175, with D8 (log 14). -/
def Obligations.NmiIsAlwaysTaken : Prop :=
  ∀ s : State, s.nextOp = .nmi → s.resetSeen = true →
    ∃ p m, step s = .next { s with
        S := s.S - 3
        P := p
        PC := wordAt s 0xFFFA
        mem := m
        answers := s.answers.drop 2
        bus := [.write (stackSlot s 0) (hiByte s.PC), .write (stackSlot s (-1)) (loByte s.PC),
          .write (stackSlot s (-2)) (p ||| 0x20), .read 0xFFFA, .read (0xFFFA + 1)]
        out := none
        host := s.host.tail } ∧
      flagOf .b p = false ∧ flagOf .i p = true ∧ keepsExcept [.b, .i] s.P p ∧ TrapFrame s (p ||| 0x20) m

/-- R177, row "memory". The queue is the model's (logs 3 and 4). -/
def Obligations.HostMemoryWriteChangesOneByte : Prop :=
  ∀ (s : State) (a : Word) (v : Byte), s.nextOp = .write a v →
    ∃ m, step s = .next { s with mem := m, host := s.host.tail } ∧
      ∀ b : Word, Memory.get m b.toNat = if b = a then v else s.byteAt b

/-- R112, R169, R175. That the word pushed is the opcode address plus 1, that I is left and that B stays set is the
spec's reading (D9, log 14). -/
def Obligations.BrkTakesTheTrap : Prop :=
  formsOf .brk = [(0x00, .implied, 7)] ∧
  ∀ s : State, ∃ p m b, exec .brk s = .next { s with
      S := s.S - 3
      P := p
      PC := wordAt s 0xFFFE
      mem := m
      answers := s.answers.drop 2
      bus := b } ∧
    flagOf .b p = true ∧ keepsExcept [.b] s.P p ∧ TrapFrame s (p ||| 0x20) m

/-- R113, the plain pull of C2. The opcode byte and the cycles are general knowledge (log 10, log 11). -/
def Obligations.RtiPullsStatusThenPc : Prop :=
  formsOf .rti = [(0x40, .implied, 6)] ∧
  ∀ s : State, ∃ l b, exec .rti s = .next { s with
      S := s.S + 3
      P := s.answer 0 (stackSlot s 1) ||| 0x20
      PC := mkWord (s.answer 2 (stackSlot s 3)) (s.answer 1 (stackSlot s 2))
      answers := l
      bus := b }

/-- Property 8 of spec/95_test_vectors.md, on the reference bus of R31 (D7, log 1), from R112 (D9, log 14) and R113. -/
def Obligations.BrkThenRtiResumesAfterTheOpcode : Prop :=
  ∀ s t u : State, OnRam s → exec .brk s = .next t → exec .rti t = .next u →
    u.PC = s.PC ∧ u.S = s.S ∧ flagOf .b u.P = true ∧ u.P.getLsbD 5 = true ∧
    keepsExcept [.b] (s.P ||| 0x20) u.P ∧ u.A = s.A ∧ u.X = s.X ∧ u.Y = s.Y ∧ u.mem = t.mem

/-- Property 9 of spec/95_test_vectors.md, on the reference bus of R31 (D7, log 1); that I is 1 after the return follows
from D8 (log 14). -/
def Obligations.InterruptThenRtiResumesWithIrqMasked : Prop :=
  ∀ s t u : State, OnRam s → s.resetSeen = true → (s.nextOp = .nmi ∨ (s.nextOp = .irq ∧ flagOf .i s.P = false)) →
    step s = .next t → exec .rti t = .next u →
    u.PC = s.PC ∧ u.S = s.S ∧ flagOf .b u.P = false ∧ flagOf .i u.P = true ∧
    keepsExcept [.b, .i] (s.P ||| 0x20) u.P ∧ u.A = s.A ∧ u.X = s.X ∧ u.Y = s.Y

/-- DOC0's property "After any sequence ending in JSR then RTS, PC equals the instruction after JSR's 2-byte operand"
(R114, R148), for the pair itself, on the reference bus of R31 (D7, log 1); the state of exec has PC at that
instruction. -/
def Obligations.JsrThenRtsReturns : Prop :=
  ∀ (s t u : State) (w : Word), OnRam s → exec (.jsrAbs w) s = .next t → exec .rts t = .next u →
    t.PC = w ∧ u.PC = s.PC ∧ u.S = s.S ∧ u.P = s.P ∧ u.A = s.A ∧ u.X = s.X ∧ u.Y = s.Y

/-- DOC0's property "for every byte b: PHA;PLA restores A=b and updates N,Z accordingly", and property 6 of
spec/95_test_vectors.md, on the reference bus of R31 (D7, log 1). Bit 5 is D5 (log 12), PHP pushing P as held is D10
(log 14). -/
def Obligations.PushThenPullRestores : Prop :=
  ∀ s t u : State, OnRam s →
    (exec .pha s = .next t → exec .pla t = .next u →
      u.A = s.A ∧ u.S = s.S ∧ showsNZ s.A u.P ∧ keepsExcept [.n, .z] s.P u.P) ∧
    (exec .php s = .next t → exec .plp t = .next u → u.S = s.S ∧ u.P = s.P ||| 0x20 ∧ u.A = s.A)

/-- R39 to R42. -/
def Obligations.StackHelpersPushAndPop : Prop :=
  ∀ (s : State) (v : Byte) (w : Word),
    (∃ m, push8 v s = { s with S := s.S - 1, mem := m, bus := s.bus ++ [.write (0x0100 + s.S.setWidth 16) v] } ∧
      ∀ a : Word, Memory.get m a.toNat = if a = 0x0100 + s.S.setWidth 16 then v else s.byteAt a) ∧
    (∃ l, pop8 s = (s.answer 0 (0x0100 + (s.S + 1).setWidth 16),
      { s with S := s.S + 1, answers := l, bus := s.bus ++ [.read (0x0100 + (s.S + 1).setWidth 16)] })) ∧
    push16 w s = push8 (loByte w) (push8 (hiByte w) s) ∧
    (pop16 s).1 = mkWord (pop8 (pop8 s).2).1 (pop8 s).1 ∧ (pop16 s).2 = (pop8 (pop8 s).2).2

/-- R43, with DOC0's property "pushing with S=0 then popping restores the value; S becomes 0xFF after the push" (the
value on the reference bus of R31, D7, log 1). -/
def Obligations.StackIsARingInPageOne : Prop :=
  ∀ (s : State) (v : Byte) (w : Word),
    (s.S = 0x00 → (push8 v s).byteAt 0x0100 = v ∧ (push8 v s).S = 0xFF ∧
      (push16 w s).byteAt 0x0100 = hiByte w ∧ (push16 w s).byteAt 0x01FF = loByte w) ∧
    (s.S = 0xFF → (pop8 s).2.S = 0x00 ∧ (pop8 s).1 = s.answer 0 0x0100 ∧
      (pop8 s).2.bus = s.bus ++ [.read 0x0100]) ∧
    (OnRam s → (pop8 (push8 v s)).1 = v ∧ (pop16 (push16 w s)).1 = w) ∧
    (pop8 (push8 v s)).2.S = s.S ∧ (pop16 (push16 w s)).2.S = s.S ∧
    (push8 v s).S = s.S - 1 ∧ (pop8 s).2.S = s.S + 1 ∧
    ∃ a, (push8 v s).bus = s.bus ++ [.write a v] ∧ (pop8 (push8 v s)).2.bus = s.bus ++ [.write a v, .read a] ∧
      0x0100 ≤ a.toNat ∧ a.toNat ≤ 0x01FF

/-- R36, R37, R38. That the low byte is read first is D6 (log 8). -/
def Obligations.PointerReadsWrapWhereTheSpecSays : Prop :=
  ∀ (s : State) (a : Word) (z : Byte),
    (∃ b : Word, b.toNat = (a.toNat + 1) % 65536 ∧
      read16 a s = (mkWord (s.answer 1 b) (s.answer 0 a),
        { s with answers := s.answers.drop 2, bus := s.bus ++ [.read a, .read b] })) ∧
    (∃ l h : Word, l.toNat = z.toNat ∧ h.toNat = (z.toNat + 1) % 256 ∧
      read16ZP z s = (mkWord (s.answer 1 h) (s.answer 0 l),
        { s with answers := s.answers.drop 2, bus := s.bus ++ [.read l, .read h] })) ∧
    (∃ b : Word, b.toNat = a.toNat / 256 * 256 + (a.toNat + 1) % 256 ∧
      read16Bug a s = (mkWord (s.answer 1 b) (s.answer 0 a),
        { s with answers := s.answers.drop 2, bus := s.bus ++ [.read a, .read b] })) ∧
    (a.toNat % 256 ≠ 255 → read16Bug a s = read16 a s)

/-- R72 to R74, R76, R79, R80. That the low byte of a pointer is the answer to the first read and the high byte to the
second is D6 (log 8); PointerReadsWrapWhereTheSpecSays states the order of the addresses. -/
def Obligations.EffectiveAddressesWithoutCarry : Prop :=
  ∀ (s : State) (z op1 op2 : Byte) (w : Word),
    ((effAddr (.zeroPage z) s).1.toNat = z.toNat ∧ (effAddr (.zeroPage z) s).2 = s) ∧
    ((effAddr (.zeroPageX z) s).1.toNat = (z.toNat + s.X.toNat) % 256 ∧ (effAddr (.zeroPageX z) s).2 = s) ∧
    ((effAddr (.zeroPageY z) s).1.toNat = (z.toNat + s.Y.toNat) % 256 ∧ (effAddr (.zeroPageY z) s).2 = s) ∧
    ((effAddr (.absolute (mkWord op2 op1)) s).1.toNat = op2.toNat * 256 + op1.toNat ∧
      (effAddr (.absolute w) s).2 = s) ∧
    ((effAddr (.indirect w) s).1 =
        mkWord (s.answer 1 (if w.toNat % 256 = 255 then w - 255 else w + 1)) (s.answer 0 w) ∧
      ∃ x y, (effAddr (.indirect w) s).2 =
        { s with answers := s.answers.drop 2, bus := s.bus ++ [.read x, .read y] }) ∧
    ((effAddr (.indirectX z) s).1 =
        mkWord (s.answer 1 (BitVec.ofNat 16 ((z.toNat + s.X.toNat + 1) % 256)))
          (s.answer 0 (BitVec.ofNat 16 ((z.toNat + s.X.toNat) % 256))) ∧
      ∃ x y, (effAddr (.indirectX z) s).2 =
        { s with answers := s.answers.drop 2, bus := s.bus ++ [.read x, .read y] })

/-- R77, R78, R81. The reduction modulo 65536 is D4 (log 13), and that the low byte of the pointer is the answer to the
first read is D6 (log 8). -/
def Obligations.IndexedAddressesCarryIntoTheHighByte : Prop :=
  ∀ (s : State) (w : Word) (z : Byte),
    ((effAddr (.absoluteX w) s).1.toNat = (w.toNat + s.X.toNat) % 65536 ∧ (effAddr (.absoluteX w) s).2 = s) ∧
    ((effAddr (.absoluteY w) s).1.toNat = (w.toNat + s.Y.toNat) % 65536 ∧ (effAddr (.absoluteY w) s).2 = s) ∧
    ((effAddr (.indirectY z) s).1.toNat =
        ((s.answer 1 (BitVec.ofNat 16 ((z.toNat + 1) % 256))).toNat * 256 +
          (s.answer 0 (BitVec.ofNat 16 z.toNat)).toNat + s.Y.toNat) % 65536 ∧
      ∃ x y, (effAddr (.indirectY z) s).2 =
        { s with answers := s.answers.drop 2, bus := s.bus ++ [.read x, .read y] })

/-- R20. -/
def Obligations.SetNzWritesZeroAndNegative : Prop :=
  ∀ (v : Byte) (s : State), ∃ p, s.setNZ v = { s with P := p } ∧ showsNZ v p ∧ keepsExcept [.n, .z] s.P p

/-- R17, R19, R25, with D5 (log 12) and D20 (log 18). -/
def Obligations.BitFiveOfStatusReadsAsOne : Prop :=
  ∀ (s : State) (v : Byte) (f : Flag) (b : Bool),
    ((s.writeP v).P.getLsbD 5 = true ∧ ∀ k, k < 8 → k ≠ 5 → (s.writeP v).P.getLsbD k = v.getLsbD k) ∧
    (flagOf f (s.setFlag f b).P = b ∧ keepsExcept [f] s.P (s.setFlag f b).P) ∧
    (∃ p, debugRead s = { A := s.A, X := s.X, Y := s.Y, S := s.S, PC := s.PC, P := p } ∧
      p.getLsbD 5 = true ∧ ∀ k, k < 8 → k ≠ 5 → p.getLsbD k = s.P.getLsbD k)

/-- R90 to R96. The opcode bytes and cycles the rules print are general knowledge (logs 10 and 11). -/
def Obligations.FlagInstructionsWriteOneFlag : Prop :=
  formsOf .clc = [(0x18, .implied, 2)] ∧
  formsOf .cld = [(0xD8, .implied, 2)] ∧
  formsOf .cli = [(0x58, .implied, 2)] ∧
  formsOf .clv = [(0xB8, .implied, 2)] ∧
  formsOf .sec = [(0x38, .implied, 2)] ∧
  formsOf .sed = [(0xF8, .implied, 2)] ∧
  formsOf .sei = [(0x78, .implied, 2)] ∧
  ∀ x ∈ [(Instr.clc, Flag.c, false), (.cld, .d, false), (.cli, .i, false), (.clv, .v, false),
      (.sec, .c, true), (.sed, .d, true), (.sei, .i, true)],
    ∀ s : State, ∃ p, exec x.1 s = .next { s with P := p } ∧ flagOf x.2.1 p = x.2.2 ∧
      keepsExcept [x.2.1] s.P p

/-- R97 to R100. The opcode bytes (but 0xE8) and cycles are general knowledge (logs 10 and 11). -/
def Obligations.IndexRegistersCountModulo256 : Prop :=
  formsOf .dex = [(0xCA, .implied, 2)] ∧
  formsOf .dey = [(0x88, .implied, 2)] ∧
  formsOf .inx = [(0xE8, .implied, 2)] ∧
  formsOf .iny = [(0xC8, .implied, 2)] ∧
  ∀ s : State,
    (∃ v p, exec .dex s = .next { s with X := v, P := p } ∧ v.toNat = (s.X.toNat + 255) % 256 ∧
      showsNZ v p ∧ keepsExcept [.n, .z] s.P p) ∧
    (∃ v p, exec .dey s = .next { s with Y := v, P := p } ∧ v.toNat = (s.Y.toNat + 255) % 256 ∧
      showsNZ v p ∧ keepsExcept [.n, .z] s.P p) ∧
    (∃ v p, exec .inx s = .next { s with X := v, P := p } ∧ v.toNat = (s.X.toNat + 1) % 256 ∧
      showsNZ v p ∧ keepsExcept [.n, .z] s.P p) ∧
    (∃ v p, exec .iny s = .next { s with Y := v, P := p } ∧ v.toNat = (s.Y.toNat + 1) % 256 ∧
      showsNZ v p ∧ keepsExcept [.n, .z] s.P p)

/-- R101 to R106. The opcode bytes and cycles are general knowledge (logs 10 and 11). -/
def Obligations.TransfersCopyARegister : Prop :=
  formsOf .tax = [(0xAA, .implied, 2)] ∧
  formsOf .tay = [(0xA8, .implied, 2)] ∧
  formsOf .txa = [(0x8A, .implied, 2)] ∧
  formsOf .tya = [(0x98, .implied, 2)] ∧
  formsOf .tsx = [(0xBA, .implied, 2)] ∧
  formsOf .txs = [(0x9A, .implied, 2)] ∧
  ∀ s : State,
    (∃ p, exec .tax s = .next { s with X := s.A, P := p } ∧ showsNZ s.A p ∧ keepsExcept [.n, .z] s.P p) ∧
    (∃ p, exec .tay s = .next { s with Y := s.A, P := p } ∧ showsNZ s.A p ∧ keepsExcept [.n, .z] s.P p) ∧
    (∃ p, exec .txa s = .next { s with A := s.X, P := p } ∧ showsNZ s.X p ∧ keepsExcept [.n, .z] s.P p) ∧
    (∃ p, exec .tya s = .next { s with A := s.Y, P := p } ∧ showsNZ s.Y p ∧ keepsExcept [.n, .z] s.P p) ∧
    (∃ p, exec .tsx s = .next { s with X := s.S, P := p } ∧ showsNZ s.S p ∧ keepsExcept [.n, .z] s.P p) ∧
    exec .txs s = .next { s with S := s.X }

/-- R107. The opcode byte and the cycles are general knowledge (logs 10 and 11). -/
def Obligations.NopChangesNothing : Prop :=
  formsOf .nop = [(0xEA, .implied, 2)] ∧ (∀ s : State, exec .nop s = .next s) ∧
  ∀ s : State, RunsNext s .nop →
    ∃ t, step s = .next t ∧ t.PC = s.PC + 1 ∧ t.out = some { cycles := 2, unofficial := none }

/-- R108 and R110. The opcode bytes and cycles are general knowledge (logs 10 and 11). -/
def Obligations.AccumulatorIsPushedAndPulled : Prop :=
  formsOf .pha = [(0x48, .implied, 3)] ∧
  formsOf .pla = [(0x68, .implied, 4)] ∧
  ∀ s : State,
    (∃ m b, exec .pha s = .next { s with S := s.S - 1, mem := m, bus := b } ∧
      ∀ a : Word, Memory.get m a.toNat = if a = stackSlot s 0 then s.A else s.byteAt a) ∧
    (∃ p l b, exec .pla s = .next { s with
        A := s.answer 0 (stackSlot s 1)
        S := s.S + 1
        P := p
        answers := l
        bus := b } ∧
      showsNZ (s.answer 0 (stackSlot s 1)) p ∧ keepsExcept [.n, .z] s.P p)

/-- R109 and R111. That PHP does not force B is D10 (log 14); bit 5 is D5 (log 12). -/
def Obligations.StatusIsPushedAndPulled : Prop :=
  formsOf .php = [(0x08, .implied, 3)] ∧
  formsOf .plp = [(0x28, .implied, 4)] ∧
  ∀ s : State,
    (∃ m b, exec .php s = .next { s with S := s.S - 1, mem := m, bus := b } ∧
      ∀ a : Word, Memory.get m a.toNat = if a = stackSlot s 0 then s.P ||| 0x20 else s.byteAt a) ∧
    (∃ p b, exec .plp s = .next { s with S := s.S + 1, P := p, answers := s.answers.drop 1, bus := b } ∧
      p.getLsbD 5 = true ∧
      ∀ k, k < 8 → k ≠ 5 → p.getLsbD k = (s.answer 0 (stackSlot s 1)).getLsbD k)

/-- R114. The cycles are general knowledge (log 11). -/
def Obligations.RtsReturnsPastThePoppedWord : Prop :=
  formsOf .rts = [(0x60, .implied, 6)] ∧
  ∀ s : State, ∃ pc l b, exec .rts s = .next { s with
      S := s.S + 2
      PC := pc
      answers := l
      bus := b } ∧
    pc.toNat =
      ((s.answer 1 (stackSlot s 2)).toNat * 256 + (s.answer 0 (stackSlot s 1)).toNat + 1) % 65536

/-- R120 to R128. The reduction modulo 65536 is D3 (log 13); the opcode bytes and cycles are general knowledge (logs 10
and 11). -/
def Obligations.BranchesMovePcByTheSignedDisplacement : Prop :=
  formsOf .bcc = [(0x90, .relative, 2)] ∧
  formsOf .bcs = [(0xB0, .relative, 2)] ∧
  formsOf .bne = [(0xD0, .relative, 2)] ∧
  formsOf .beq = [(0xF0, .relative, 2)] ∧
  formsOf .bpl = [(0x10, .relative, 2)] ∧
  formsOf .bmi = [(0x30, .relative, 2)] ∧
  formsOf .bvc = [(0x50, .relative, 2)] ∧
  formsOf .bvs = [(0x70, .relative, 2)] ∧
  ∀ (d : Byte) (s : State), ∀ x ∈ [(Instr.bcc d, Flag.c, false), (.bcs d, .c, true), (.bne d, .z, false),
      (.beq d, .z, true), (.bpl d, .n, false), (.bmi d, .n, true), (.bvc d, .v, false), (.bvs d, .v, true)],
    ∃ pc, exec x.1 s = .next { s with PC := pc } ∧
      (flagOf x.2.1 s.P = x.2.2 → (pc.toNat : Int) = ((s.PC.toNat : Int) + d.toInt) % 65536) ∧
      (flagOf x.2.1 s.P ≠ x.2.2 → pc = s.PC)

/-- R131. D is not read, so the flags are those of the binary sum. The opcode bytes and cycles are general knowledge
(logs 10 and 11). -/
def Obligations.AdcAddsWithCarry : Prop :=
  formsOf .adc = [(0x61, .indirectX, 6), (0x65, .zeroPage, 3), (0x69, .immediate, 2), (0x6D, .absolute, 4), (0x71, .indirectY, 5), (0x75, .zeroPageX, 4), (0x79, .absoluteY, 4), (0x7D, .absoluteX, 4)] ∧
  ∀ (i : Instr) (s : State), i.mnemonic = .adc →
    ∃ m r p l b, i.operand s = some m ∧ exec i s = .next { s with A := r, P := p, answers := l, bus := b } ∧
      r.toNat = (s.A.toNat + m.toNat + (flagOf .c s.P).toNat) % 256 ∧
      (flagOf .c p = true ↔ s.A.toNat + m.toNat + (flagOf .c s.P).toNat > 255) ∧
      (flagOf .v p = true ↔ s.A.getLsbD 7 ≠ r.getLsbD 7 ∧ s.A.getLsbD 7 = m.getLsbD 7) ∧
      (flagOf .v p = true ↔ s.A.toInt + m.toInt + ((flagOf .c s.P).toNat : Int) < -128 ∨
        127 < s.A.toInt + m.toInt + ((flagOf .c s.P).toNat : Int)) ∧
      showsNZ r p ∧ keepsExcept [.n, .v, .z, .c] s.P p

/-- R132, with the overflow rule of C3. The last clause is property 4 of spec/95_test_vectors.md section 4, the sentence
of R132 that the spec marks as its own inference, [derived: ...]: "SBC with operand M gives the same A, N, V, Z, C
as ADC with operand ~M". The opcode bytes and cycles are general knowledge (logs 10 and 11). -/
def Obligations.SbcSubtractsWithBorrow : Prop :=
  formsOf .sbc = [(0xE1, .indirectX, 6), (0xE5, .zeroPage, 3), (0xE9, .immediate, 2), (0xED, .absolute, 4), (0xF1, .indirectY, 5), (0xF5, .zeroPageX, 4), (0xF9, .absoluteY, 4), (0xFD, .absoluteX, 4)] ∧
  ∀ (i : Instr) (s : State), i.mnemonic = .sbc →
    ∃ m r p l b, i.operand s = some m ∧ exec i s = .next { s with A := r, P := p, answers := l, bus := b } ∧
      (r.toNat : Int) = ((s.A.toNat : Int) - m.toNat - (1 - (flagOf .c s.P).toNat)) % 256 ∧
      (flagOf .c p = true ↔ (s.A.toNat : Int) - m.toNat - (1 - (flagOf .c s.P).toNat) ≥ 0) ∧
      (flagOf .v p = true ↔ s.A.getLsbD 7 ≠ r.getLsbD 7 ∧ s.A.getLsbD 7 ≠ m.getLsbD 7) ∧
      showsNZ r p ∧ keepsExcept [.n, .v, .z, .c] s.P p ∧
      exec (.adcImm (~~~ m)) s = .next { s with A := r, P := p }

/-- R131, R132, R143: "ADC/SBC operate in binary regardless of D" (D22, log 17). -/
def Obligations.DecimalFlagDoesNotChangeArithmetic : Prop :=
  ∀ (i : Instr) (s : State) (d : Bool), i.mnemonic ∈ [Mnemonic.adc, .sbc] →
    exec i (s.setFlag .d d) = mapNext (State.setFlag .d d) (exec i s) ∧ ∃ t, exec i s = .next t

/-- R133 to R135. The opcode bytes and cycles are general knowledge (logs 10 and 11). -/
def Obligations.LogicInstructionsCombineBits : Prop :=
  formsOf .and = [(0x21, .indirectX, 6), (0x25, .zeroPage, 3), (0x29, .immediate, 2), (0x2D, .absolute, 4), (0x31, .indirectY, 5), (0x35, .zeroPageX, 4), (0x39, .absoluteY, 4), (0x3D, .absoluteX, 4)] ∧
  formsOf .eor = [(0x41, .indirectX, 6), (0x45, .zeroPage, 3), (0x49, .immediate, 2), (0x4D, .absolute, 4), (0x51, .indirectY, 5), (0x55, .zeroPageX, 4), (0x59, .absoluteY, 4), (0x5D, .absoluteX, 4)] ∧
  formsOf .ora = [(0x01, .indirectX, 6), (0x05, .zeroPage, 3), (0x09, .immediate, 2), (0x0D, .absolute, 4), (0x11, .indirectY, 5), (0x15, .zeroPageX, 4), (0x19, .absoluteY, 4), (0x1D, .absoluteX, 4)] ∧
  ∀ (i : Instr) (s : State), i.mnemonic ∈ [Mnemonic.and, .eor, .ora] →
    ∃ m r p l b, i.operand s = some m ∧ exec i s = .next { s with A := r, P := p, answers := l, bus := b } ∧
      (∀ k, k < 8 →
        (i.mnemonic = .and → r.getLsbD k = (s.A.getLsbD k && m.getLsbD k)) ∧
        (i.mnemonic = .eor → r.getLsbD k = (s.A.getLsbD k != m.getLsbD k)) ∧
        (i.mnemonic = .ora → r.getLsbD k = (s.A.getLsbD k || m.getLsbD k))) ∧
      showsNZ r p ∧ keepsExcept [.n, .z] s.P p

/-- R136 (C8). The opcode bytes and cycles are general knowledge (logs 10 and 11). -/
def Obligations.BitTestsMemoryAgainstA : Prop :=
  formsOf .bit = [(0x24, .zeroPage, 3), (0x2C, .absolute, 4)] ∧
  ∀ (i : Instr) (s : State), i.mnemonic = .bit →
    ∃ m p l b, i.operand s = some m ∧ exec i s = .next { s with P := p, answers := l, bus := b } ∧
      flagOf .n p = m.getLsbD 7 ∧ flagOf .v p = m.getLsbD 6 ∧
      (flagOf .z p = true ↔ ∀ k, k < 8 → ¬ (s.A.getLsbD k = true ∧ m.getLsbD k = true)) ∧
      keepsExcept [.n, .v, .z] s.P p

/-- R137 to R139. The opcode bytes and cycles are general knowledge (logs 10 and 11). -/
def Obligations.ComparesSetCarryZeroNegative : Prop :=
  formsOf .cmp = [(0xC1, .indirectX, 6), (0xC5, .zeroPage, 3), (0xC9, .immediate, 2), (0xCD, .absolute, 4), (0xD1, .indirectY, 5), (0xD5, .zeroPageX, 4), (0xD9, .absoluteY, 4), (0xDD, .absoluteX, 4)] ∧
  formsOf .cpx = [(0xE0, .immediate, 2), (0xE4, .zeroPage, 3), (0xEC, .absolute, 4)] ∧
  formsOf .cpy = [(0xC0, .immediate, 2), (0xC4, .zeroPage, 3), (0xCC, .absolute, 4)] ∧
  ∀ (i : Instr) (s : State), i.mnemonic ∈ [Mnemonic.cmp, .cpx, .cpy] →
    ∃ (m t : Byte) (p : Byte) (l : List (Option Byte)) (b : List BusAccess) (r : Byte),
      i.operand s = some m ∧ exec i s = .next { s with P := p, answers := l, bus := b } ∧
      (i.mnemonic = .cmp → r = s.A) ∧ (i.mnemonic = .cpx → r = s.X) ∧ (i.mnemonic = .cpy → r = s.Y) ∧
      (t.toNat : Int) = ((r.toNat : Int) - m.toNat) % 256 ∧
      (flagOf .c p = true ↔ r.toNat ≥ m.toNat) ∧ showsNZ t p ∧ keepsExcept [.n, .z, .c] s.P p

/-- R140 to R142. The opcode bytes (but 0xA9) and cycles are general knowledge (logs 10 and 11). -/
def Obligations.LoadsCopyTheOperand : Prop :=
  formsOf .lda = [(0xA1, .indirectX, 6), (0xA5, .zeroPage, 3), (0xA9, .immediate, 2), (0xAD, .absolute, 4), (0xB1, .indirectY, 5), (0xB5, .zeroPageX, 4), (0xB9, .absoluteY, 4), (0xBD, .absoluteX, 4)] ∧
  formsOf .ldx = [(0xA2, .immediate, 2), (0xA6, .zeroPage, 3), (0xAE, .absolute, 4), (0xB6, .zeroPageY, 4), (0xBE, .absoluteY, 4)] ∧
  formsOf .ldy = [(0xA0, .immediate, 2), (0xA4, .zeroPage, 3), (0xAC, .absolute, 4), (0xB4, .zeroPageX, 4), (0xBC, .absoluteX, 4)] ∧
  ∀ (i : Instr) (s : State), i.mnemonic ∈ [Mnemonic.lda, .ldx, .ldy] →
    ∃ m p l b, i.operand s = some m ∧ showsNZ m p ∧ keepsExcept [.n, .z] s.P p ∧
      (i.mnemonic = .lda → exec i s = .next { s with A := m, P := p, answers := l, bus := b }) ∧
      (i.mnemonic = .ldx → exec i s = .next { s with X := m, P := p, answers := l, bus := b }) ∧
      (i.mnemonic = .ldy → exec i s = .next { s with Y := m, P := p, answers := l, bus := b })

/-- R147 with R79 and R38. That the pointer is read low byte first, at w and then at x, is D6 (log 8, DESIGN CHOICE).
The cycles are general knowledge (log 11). -/
def Obligations.JmpGoesToTheEffectiveAddress : Prop :=
  formsOf .jmp = [(0x4C, .absolute, 3), (0x6C, .indirect, 5)] ∧
  ∀ (s : State) (w : Word),
    exec (.jmpAbs w) s = .next { s with PC := w } ∧
    ∃ x, x.toNat = w.toNat / 256 * 256 + (w.toNat + 1) % 256 ∧
      exec (.jmpInd w) s = .next { s with
        PC := mkWord (s.answer 1 x) (s.answer 0 w)
        answers := s.answers.drop 2
        bus := s.bus ++ [.read w, .read x] }

/-- R148. The cycles are general knowledge (log 11). -/
def Obligations.JsrPushesTheReturnAddress : Prop :=
  formsOf .jsr = [(0x20, .absolute, 6)] ∧
  ∀ (s : State) (w : Word), ∃ m b,
    exec (.jsrAbs w) s = .next { s with S := s.S - 2, PC := w, mem := m, bus := b } ∧
    ∀ a : Word, Memory.get m a.toNat =
      if a = stackSlot s 0 then hiByte (s.PC - 1)
      else if a = stackSlot s (-1) then loByte (s.PC - 1)
      else s.byteAt a

/-- R149 and R150. The opcode bytes and cycles are general knowledge (logs 10 and 11). -/
def Obligations.IncAndDecCountInMemory : Prop :=
  formsOf .inc = [(0xE6, .zeroPage, 5), (0xEE, .absolute, 6), (0xF6, .zeroPageX, 6), (0xFE, .absoluteX, 7)] ∧
  formsOf .dec = [(0xC6, .zeroPage, 5), (0xCE, .absolute, 6), (0xD6, .zeroPageX, 6), (0xDE, .absoluteX, 7)] ∧
  ∀ (i : Instr) (s : State), i.mnemonic ∈ [Mnemonic.inc, .dec] →
    ∃ ea r p m l, i.address s = some ea ∧
      exec i s = .next { s with
        P := p
        mem := m
        answers := l
        bus := s.bus ++ [.read ea, .write ea r] } ∧
      (i.mnemonic = .inc → r.toNat = ((s.answer 0 ea).toNat + 1) % 256) ∧
      (i.mnemonic = .dec → r.toNat = ((s.answer 0 ea).toNat + 255) % 256) ∧
      (∀ a : Word, Memory.get m a.toNat = if a = ea then r else s.byteAt a) ∧
      showsNZ r p ∧ keepsExcept [.n, .z] s.P p

/-- R151 to R153. The accesses before the write are the pointer reads of the mode in the order of the table of R85 (R80
and R81 for IndirectX and IndirectY): low byte, then high byte, which is D6 (log 8, DESIGN CHOICE). The opcode bytes
and cycles are general knowledge (logs 10 and 11). -/
def Obligations.StoresWriteTheRegister : Prop :=
  formsOf .sta = [(0x81, .indirectX, 6), (0x85, .zeroPage, 3), (0x8D, .absolute, 4), (0x91, .indirectY, 6), (0x95, .zeroPageX, 4), (0x99, .absoluteY, 5), (0x9D, .absoluteX, 5)] ∧
  formsOf .stx = [(0x86, .zeroPage, 3), (0x8E, .absolute, 4), (0x96, .zeroPageY, 4)] ∧
  formsOf .sty = [(0x84, .zeroPage, 3), (0x8C, .absolute, 4), (0x94, .zeroPageX, 4)] ∧
  ∀ (i : Instr) (s : State), i.mnemonic ∈ [Mnemonic.sta, .stx, .sty] →
    ∃ ea v m l b, i.address s = some ea ∧
      exec i s = .next { s with mem := m, answers := l, bus := s.bus ++ b ++ [.write ea v] } ∧
      b.map BusAccess.place = resolverPlaces i s ∧
      (i.mnemonic = .sta → v = s.A) ∧ (i.mnemonic = .stx → v = s.X) ∧ (i.mnemonic = .sty → v = s.Y) ∧
      ∀ a : Word, Memory.get m a.toNat = if a = ea then v else s.byteAt a

/-- R156 to R160 (C9). The opcode bytes and cycles are general knowledge (logs 10 and 11). -/
def Obligations.ShiftsAndRotatesMoveByOneBit : Prop :=
  formsOf .asl = [(0x06, .zeroPage, 5), (0x0A, .accumulator, 2), (0x0E, .absolute, 6), (0x16, .zeroPageX, 6), (0x1E, .absoluteX, 7)] ∧
  formsOf .lsr = [(0x46, .zeroPage, 5), (0x4A, .accumulator, 2), (0x4E, .absolute, 6), (0x56, .zeroPageX, 6), (0x5E, .absoluteX, 7)] ∧
  formsOf .rol = [(0x26, .zeroPage, 5), (0x2A, .accumulator, 2), (0x2E, .absolute, 6), (0x36, .zeroPageX, 6), (0x3E, .absoluteX, 7)] ∧
  formsOf .ror = [(0x66, .zeroPage, 5), (0x6A, .accumulator, 2), (0x6E, .absolute, 6), (0x76, .zeroPageX, 6), (0x7E, .absoluteX, 7)] ∧
  ∀ (i : Instr) (s : State), i.mnemonic ∈ [Mnemonic.asl, .lsr, .rol, .ror] →
    ∃ m r p, i.operand s = some m ∧
      (i.mnemonic = .asl → r.toNat = 2 * m.toNat % 256 ∧ flagOf .c p = m.getLsbD 7) ∧
      (i.mnemonic = .lsr → r.toNat = m.toNat / 2 ∧ flagOf .c p = m.getLsbD 0) ∧
      (i.mnemonic = .rol → r.toNat = 2 * m.toNat % 256 + (flagOf .c s.P).toNat ∧ flagOf .c p = m.getLsbD 7) ∧
      (i.mnemonic = .ror → r.toNat = m.toNat / 2 + 128 * (flagOf .c s.P).toNat ∧ flagOf .c p = m.getLsbD 0) ∧
      showsNZ r p ∧ keepsExcept [.n, .z, .c] s.P p ∧
      (i.mode = .accumulator → exec i s = .next { s with A := r, P := p }) ∧
      (i.mode ≠ .accumulator → ∃ ea mm l, i.address s = some ea ∧
        exec i s = .next { s with
          P := p
          mem := mm
          answers := l
          bus := s.bus ++ [.read ea, .write ea r] } ∧
        ∀ a : Word, Memory.get mm a.toNat = if a = ea then r else s.byteAt a)

/-- Whole-machine rules: R17 and R19 (bit 5, D5, log 12), R31 (D7, log 1), R85 (no operation makes more than six
accesses), R84 and R166 (logs 9 and 11). -/
def Obligations.EveryStepKeepsTheInvariant : Prop :=
  ∀ s t : State, Inv s → step s = .next t → Inv t

/-- R26; the power-on state is the model's (D2, log 6). -/
def Obligations.ResetStateMeetsTheInvariant : Prop :=
  Inv State.reset ∧ Inv State.powerOn

/-- The lists "Written by" of R11 to R15, over all instructions. -/
def Obligations.WhoWritesARegister : Prop :=
  ∀ (i : Instr) (s : State), ∃ t, exec i s = .next t ∧
    (t.A ≠ s.A → i.mnemonic ∈ [Mnemonic.lda, .pla, .txa, .tya, .adc, .sbc, .and, .eor, .ora] ∨
      (i.mnemonic ∈ [Mnemonic.asl, .lsr, .rol, .ror] ∧ i.mode = .accumulator)) ∧
    (t.X ≠ s.X → i.mnemonic ∈ [Mnemonic.ldx, .tax, .tsx, .inx, .dex]) ∧
    (t.Y ≠ s.Y → i.mnemonic ∈ [Mnemonic.ldy, .tay, .iny, .dey]) ∧
    (t.S ≠ s.S → i.mnemonic ∈ [Mnemonic.txs, .pha, .php, .pla, .plp, .jsr, .rts, .brk, .rti]) ∧
    (t.PC ≠ s.PC → branchTaken i.mnemonic s.P = some true ∨
      i.mnemonic ∈ [Mnemonic.jmp, .jsr, .rts, .rti, .brk])

/-- The columns "Set or computed by" and "Cleared by" of R18, over all instructions. -/
def Obligations.WhoWritesAFlag : Prop :=
  ∀ (i : Instr) (s t : State), exec i s = .next t →
    (flagOf .c t.P ≠ flagOf .c s.P → i.mnemonic ∈ [Mnemonic.sec, .clc, .adc, .sbc, .cmp, .cpx, .cpy, .asl, .rol,
      .lsr, .ror, .plp, .rti]) ∧
    (flagOf .z t.P ≠ flagOf .z s.P → i.mnemonic ∈ [Mnemonic.dex, .dey, .inx, .iny, .tax, .tay, .txa, .tya, .tsx,
      .pla, .adc, .sbc, .and, .eor, .ora, .cmp, .cpx, .cpy, .lda, .ldx, .ldy, .inc, .dec, .asl, .lsr, .rol, .ror,
      .bit, .plp, .rti]) ∧
    (flagOf .i t.P ≠ flagOf .i s.P → i.mnemonic ∈ [Mnemonic.sei, .cli, .plp, .rti]) ∧
    (flagOf .d t.P ≠ flagOf .d s.P → i.mnemonic ∈ [Mnemonic.sed, .cld, .plp, .rti]) ∧
    (flagOf .b t.P ≠ flagOf .b s.P → i.mnemonic ∈ [Mnemonic.brk, .plp, .rti]) ∧
    (flagOf .v t.P ≠ flagOf .v s.P → i.mnemonic ∈ [Mnemonic.adc, .sbc, .bit, .clv, .plp, .rti]) ∧
    (flagOf .n t.P ≠ flagOf .n s.P → i.mnemonic ∈ [Mnemonic.dex, .dey, .inx, .iny, .tax, .tay, .txa, .tya, .tsx,
      .pla, .adc, .sbc, .and, .eor, .ora, .cmp, .cpx, .cpy, .lda, .ldx, .ldy, .inc, .dec, .asl, .lsr, .rol, .ror,
      .bit, .plp, .rti])

/-- R34 and R85 (D16, log 8), over all instructions, with the effective address computed by the function the meanings
use. -/
def Obligations.WhoWritesMemory : Prop :=
  ∀ (i : Instr) (s t : State) (a : Word), exec i s = .next t → t.byteAt a ≠ s.byteAt a →
    (true, a) ∈ executePlaces i s

/-- The frame of exec for the model's own fields and the interface (logs 1, 3, 6, 8, 9): R24, R25, R30. -/
def Obligations.InstructionsLeaveTheHostInterface : Prop :=
  ∀ (i : Instr) (s t : State), exec i s = .next t →
    t.host = s.host ∧ t.out = s.out ∧ t.resetSeen = s.resetSeen ∧ t.unofficialSeen = s.unofficialSeen ∧
    ∃ b, t.bus = s.bus ++ b ∧ t.answers = s.answers.drop (readsIn b) ∧ b.map BusAccess.place = resolverPlaces i s ++ executePlaces i s

/-- R4 and R30: "any conforming implementor (RAM-only, memory-mapped IO) plugs in"; D7: any total pair. That the answers
of the bus stand in the state is the model's (log 1). -/
def Obligations.AnyBusPlugsIn : Prop :=
  ∀ (om : OpcodeMap) (σ : Type) (b : Bus σ) (q : σ) (s : State),
    s.nextOp = .reset ∨ (s.resetSeen = true ∧ s.nextOp ∈ [HostOp.irq, .nmi, .step]) →
    (∃ t q', StepOn om b s q t q' ∧ ∀ t₂ q₂, StepOn om b s q t₂ q₂ → t₂ = t ∧ q₂ = q') ∧
    ∃ t, stepWith om { s with answers := [] } = .next t ∧ StepOn om flatRam s s.mem t t.mem

/-- R4 and U9: OPCODE_MAP is a configuration value whose default is the table of R57; R60: a table that fails the check
is refused; R65 and R82. How the parameter is taken is the model's (log 22). -/
def Obligations.AnyOpcodeMapPlugsIn : Prop :=
  (∀ (om : OpcodeMap) (s : State), s.resetSeen = true → s.nextOp = .step →
    (∀ e, om.lookup (s.answer 0 s.PC) = some e →
      ∃ u, dispatch e.mnemonic e.mode ((bytesAtPC s).tail.take e.mode.operandBytes)
          (afterFetchOf s (1 + e.mode.operandBytes)) = some u ∧
        stepWith om s = .next { u with out := some { cycles := e.cycles, unofficial := none } }) ∧
    (om.lookup (s.answer 0 s.PC) = none →
      stepWith om s = .next { s with
        PC := s.PC + 1
        answers := s.answers.drop 1
        bus := [.read s.PC]
        out := some { cycles := 1, unofficial := some { opcode := s.answer 0 s.PC, addr := s.PC } }
        host := s.host.tail
        unofficialSeen := true })) ∧
  (∀ t : List DecodeEntry, (OpcodeMap.ofTable t).map OpcodeMap.entries = if tableWf t then some t else none) ∧
  (∀ s : State, step s = stepWith Config.opcodeMap s) ∧ Config.opcodeMap.entries = opcodeTable
end

