-- ==== Sys2Proof/Laws/Decode.lean ====
section
/-! SUPPORT. Laws of the decoder's parts: bytes and words, the table, and the relation of `decode` to its parts. -/

namespace Sys2Proof

theorem mkWord_toNat (hi lo : Byte) : (mkWord hi lo).toNat = hi.toNat * 256 + lo.toNat := by
  have := hi.isLt
  have := lo.isLt
  simp only [mkWord, BitVec.toNat_ofNat]
  omega

theorem loByte_toNat (w : Word) : (loByte w).toNat = w.toNat % 256 := by
  simp [loByte]

theorem hiByte_toNat (w : Word) : (hiByte w).toNat = w.toNat / 256 := by
  have := w.isLt
  simp only [hiByte, BitVec.extractLsb'_toNat, Nat.shiftRight_eq_div_pow]
  omega

@[simp] theorem loByte_mkWord (hi lo : Byte) : loByte (mkWord hi lo) = lo := by
  have := lo.isLt
  apply BitVec.eq_of_toNat_eq
  rw [loByte_toNat, mkWord_toNat]
  omega

@[simp] theorem hiByte_mkWord (hi lo : Byte) : hiByte (mkWord hi lo) = hi := by
  have := lo.isLt
  apply BitVec.eq_of_toNat_eq
  rw [hiByte_toNat, mkWord_toNat]
  omega

@[simp] theorem mkWord_hiByte_loByte (w : Word) : mkWord (hiByte w) (loByte w) = w := by
  apply BitVec.eq_of_toNat_eq
  rw [mkWord_toNat, hiByte_toNat, loByte_toNat]
  omega

/-- Words built from two bytes are equal only if the bytes are. -/
theorem mkWord_inj {h l h' l' : Byte} (e : mkWord h l = mkWord h' l') : h = h' ∧ l = l' :=
  ⟨by simpa using congrArg hiByte e, by simpa using congrArg loByte e⟩

/-- `takeBytes` gives the first `n` bytes and the rest, and nothing else. -/
theorem takeBytes_eq_some {n : Nat} {bs ops rest : List Byte} (h : takeBytes n bs = some (ops, rest)) :
    bs = ops ++ rest ∧ ops.length = n := by
  induction n generalizing bs ops with
  | zero =>
    simp only [takeBytes, Option.some.injEq, Prod.mk.injEq] at h
    obtain ⟨rfl, rfl⟩ := h
    exact ⟨rfl, rfl⟩
  | succ n ih =>
    cases bs with
    | nil => simp [takeBytes] at h
    | cons b bs =>
      simp only [takeBytes] at h
      split at h
      · rename_i r hr
        obtain ⟨ops', rest'⟩ := r
        simp only [Option.some.injEq, Prod.mk.injEq] at h
        obtain ⟨rfl, rfl⟩ := h
        obtain ⟨h1, h2⟩ := ih hr
        exact ⟨by simp [h1], by simp [h2]⟩
      · exact absurd h (by simp)

/-- An entry that `lookup` answers is a row of the map, for that opcode. -/
theorem OpcodeMap.lookup_eq_some {om : OpcodeMap} {b : Byte} {e : DecodeEntry} (h : om.lookup b = some e) :
    e ∈ om.entries ∧ e.opcode = b := by
  refine ⟨List.mem_of_find?_eq_some h, ?_⟩
  simpa using List.find?_some h

theorem lookup_eq_some {b : Byte} {e : DecodeEntry} (h : lookup b = some e) : e ∈ opcodeTable ∧ e.opcode = b :=
  OpcodeMap.lookup_eq_some (om := Config.opcodeMap) h

/-- An entry of an opcode map has a category that fits its mode, and 2 to 7 cycles (R60, R84). -/
theorem OpcodeMap.entry_wf {om : OpcodeMap} {e : DecodeEntry} (h : e ∈ om.entries) :
    e.mnemonic.category.fits e.mode = true ∧ 2 ≤ e.cycles.toNat ∧ e.cycles.toNat ≤ 7 := by
  have hw := om.wf
  simp only [tableWf, Bool.and_eq_true, List.all_eq_true] at hw
  have he := hw.1 e h
  simp only [DecodeEntry.wf, Bool.and_eq_true, decide_eq_true_eq] at he
  exact ⟨he.1.1, he.1.2, he.2⟩

/-- When `decode` answers an instruction, its entry, operand bytes and assembly are these (R52). -/
theorem OpcodeMap.decode_eq_instr {om : OpcodeMap} {bs rest : List Byte} {i : Instr}
    (h : om.decode bs = .instr i rest) :
    ∃ op e ops, om.lookup op = some e ∧ assemble e.mnemonic e.mode ops = some i ∧
      ops.length = e.mode.operandBytes ∧ bs = op :: (ops ++ rest) := by
  cases bs with
  | nil => simp [OpcodeMap.decode] at h
  | cons op bs =>
    simp only [OpcodeMap.decode] at h
    split at h
    · simp at h
    · rename_i e he
      split at h
      · simp at h
      · rename_i r hr
        split at h
        · rename_i j hj
          simp only [Decoded.instr.injEq] at h
          obtain ⟨rfl, rfl⟩ := h
          obtain ⟨h1, h2⟩ := takeBytes_eq_some hr
          exact ⟨op, e, r.1, he, hj, h2, by rw [h1]⟩
        · simp at h

theorem decode_eq_instr {bs rest : List Byte} {i : Instr} (h : decode bs = .instr i rest) :
    ∃ op e ops, lookup op = some e ∧ assemble e.mnemonic e.mode ops = some i ∧
      ops.length = e.mode.operandBytes ∧ bs = op :: (ops ++ rest) :=
  OpcodeMap.decode_eq_instr (om := Config.opcodeMap) h

end Sys2Proof
end

