-- ==== Sys2Proof/Laws/State.lean ====
section
/-! SUPPORT. Laws of the state: what each update does to each field. -/

namespace Sys2Proof.Machine

variable (s : State)

@[simp] theorem note_A (x : BusAccess) : (s.note x).A = s.A := rfl
@[simp] theorem note_X (x : BusAccess) : (s.note x).X = s.X := rfl
@[simp] theorem note_Y (x : BusAccess) : (s.note x).Y = s.Y := rfl
@[simp] theorem note_S (x : BusAccess) : (s.note x).S = s.S := rfl
@[simp] theorem note_P (x : BusAccess) : (s.note x).P = s.P := rfl
@[simp] theorem note_PC (x : BusAccess) : (s.note x).PC = s.PC := rfl
@[simp] theorem note_mem (x : BusAccess) : (s.note x).mem = s.mem := rfl
@[simp] theorem note_answers (x : BusAccess) : (s.note x).answers = s.answers := rfl
@[simp] theorem note_bus (x : BusAccess) : (s.note x).bus = s.bus ++ [x] := rfl
@[simp] theorem note_out (x : BusAccess) : (s.note x).out = s.out := rfl
@[simp] theorem note_resetSeen (x : BusAccess) : (s.note x).resetSeen = s.resetSeen := rfl
@[simp] theorem note_host (x : BusAccess) : (s.note x).host = s.host := rfl
@[simp] theorem note_unofficialSeen (x : BusAccess) : (s.note x).unofficialSeen = s.unofficialSeen := rfl

@[simp] theorem memWrite_A (a : Word) (v : Byte) : (memWrite a v s).A = s.A := rfl
@[simp] theorem memWrite_X (a : Word) (v : Byte) : (memWrite a v s).X = s.X := rfl
@[simp] theorem memWrite_Y (a : Word) (v : Byte) : (memWrite a v s).Y = s.Y := rfl
@[simp] theorem memWrite_S (a : Word) (v : Byte) : (memWrite a v s).S = s.S := rfl
@[simp] theorem memWrite_P (a : Word) (v : Byte) : (memWrite a v s).P = s.P := rfl
@[simp] theorem memWrite_PC (a : Word) (v : Byte) : (memWrite a v s).PC = s.PC := rfl
@[simp] theorem memWrite_mem (a : Word) (v : Byte) : (memWrite a v s).mem = Memory.put s.mem a.toNat v := rfl
@[simp] theorem memWrite_answers (a : Word) (v : Byte) : (memWrite a v s).answers = s.answers := rfl
@[simp] theorem memWrite_bus (a : Word) (v : Byte) : (memWrite a v s).bus = s.bus ++ [.write a v] := rfl
@[simp] theorem memWrite_out (a : Word) (v : Byte) : (memWrite a v s).out = s.out := rfl
@[simp] theorem memWrite_resetSeen (a : Word) (v : Byte) : (memWrite a v s).resetSeen = s.resetSeen := rfl
@[simp] theorem memWrite_host (a : Word) (v : Byte) : (memWrite a v s).host = s.host := rfl
@[simp] theorem memWrite_unofficialSeen (a : Word) (v : Byte) : (memWrite a v s).unofficialSeen = s.unofficialSeen := rfl

@[simp] theorem setFlag_A (f : Flag) (b : Bool) : (s.setFlag f b).A = s.A := rfl
@[simp] theorem setFlag_X (f : Flag) (b : Bool) : (s.setFlag f b).X = s.X := rfl
@[simp] theorem setFlag_Y (f : Flag) (b : Bool) : (s.setFlag f b).Y = s.Y := rfl
@[simp] theorem setFlag_S (f : Flag) (b : Bool) : (s.setFlag f b).S = s.S := rfl
@[simp] theorem setFlag_P (f : Flag) (b : Bool) : (s.setFlag f b).P = putFlag f b s.P := rfl
@[simp] theorem setFlag_PC (f : Flag) (b : Bool) : (s.setFlag f b).PC = s.PC := rfl
@[simp] theorem setFlag_mem (f : Flag) (b : Bool) : (s.setFlag f b).mem = s.mem := rfl
@[simp] theorem setFlag_answers (f : Flag) (b : Bool) : (s.setFlag f b).answers = s.answers := rfl
@[simp] theorem setFlag_bus (f : Flag) (b : Bool) : (s.setFlag f b).bus = s.bus := rfl
@[simp] theorem setFlag_out (f : Flag) (b : Bool) : (s.setFlag f b).out = s.out := rfl
@[simp] theorem setFlag_resetSeen (f : Flag) (b : Bool) : (s.setFlag f b).resetSeen = s.resetSeen := rfl
@[simp] theorem setFlag_host (f : Flag) (b : Bool) : (s.setFlag f b).host = s.host := rfl
@[simp] theorem setFlag_unofficialSeen (f : Flag) (b : Bool) : (s.setFlag f b).unofficialSeen = s.unofficialSeen := rfl

@[simp] theorem writeP_A (v : Byte) : (s.writeP v).A = s.A := rfl
@[simp] theorem writeP_X (v : Byte) : (s.writeP v).X = s.X := rfl
@[simp] theorem writeP_Y (v : Byte) : (s.writeP v).Y = s.Y := rfl
@[simp] theorem writeP_S (v : Byte) : (s.writeP v).S = s.S := rfl
@[simp] theorem writeP_P (v : Byte) : (s.writeP v).P = v ||| bit5 := rfl
@[simp] theorem writeP_PC (v : Byte) : (s.writeP v).PC = s.PC := rfl
@[simp] theorem writeP_mem (v : Byte) : (s.writeP v).mem = s.mem := rfl
@[simp] theorem writeP_answers (v : Byte) : (s.writeP v).answers = s.answers := rfl
@[simp] theorem writeP_bus (v : Byte) : (s.writeP v).bus = s.bus := rfl
@[simp] theorem writeP_out (v : Byte) : (s.writeP v).out = s.out := rfl
@[simp] theorem writeP_resetSeen (v : Byte) : (s.writeP v).resetSeen = s.resetSeen := rfl
@[simp] theorem writeP_host (v : Byte) : (s.writeP v).host = s.host := rfl
@[simp] theorem writeP_unofficialSeen (v : Byte) : (s.writeP v).unofficialSeen = s.unofficialSeen := rfl

@[simp] theorem setNZ_A (v : Byte) : (s.setNZ v).A = s.A := rfl
@[simp] theorem setNZ_X (v : Byte) : (s.setNZ v).X = s.X := rfl
@[simp] theorem setNZ_Y (v : Byte) : (s.setNZ v).Y = s.Y := rfl
@[simp] theorem setNZ_S (v : Byte) : (s.setNZ v).S = s.S := rfl
@[simp] theorem setNZ_P (v : Byte) : (s.setNZ v).P = putFlag .n v.msb (putFlag .z (v == 0) s.P) := rfl
@[simp] theorem setNZ_PC (v : Byte) : (s.setNZ v).PC = s.PC := rfl
@[simp] theorem setNZ_mem (v : Byte) : (s.setNZ v).mem = s.mem := rfl
@[simp] theorem setNZ_answers (v : Byte) : (s.setNZ v).answers = s.answers := rfl
@[simp] theorem setNZ_bus (v : Byte) : (s.setNZ v).bus = s.bus := rfl
@[simp] theorem setNZ_out (v : Byte) : (s.setNZ v).out = s.out := rfl
@[simp] theorem setNZ_resetSeen (v : Byte) : (s.setNZ v).resetSeen = s.resetSeen := rfl
@[simp] theorem setNZ_host (v : Byte) : (s.setNZ v).host = s.host := rfl
@[simp] theorem setNZ_unofficialSeen (v : Byte) : (s.setNZ v).unofficialSeen = s.unofficialSeen := rfl

@[simp] theorem loadA_A (v : Byte) : (loadA v s).A = v := rfl
@[simp] theorem loadA_X (v : Byte) : (loadA v s).X = s.X := rfl
@[simp] theorem loadA_Y (v : Byte) : (loadA v s).Y = s.Y := rfl
@[simp] theorem loadA_S (v : Byte) : (loadA v s).S = s.S := rfl
@[simp] theorem loadA_P (v : Byte) : (loadA v s).P = (s.setNZ v).P := rfl
@[simp] theorem loadA_PC (v : Byte) : (loadA v s).PC = s.PC := rfl
@[simp] theorem loadA_mem (v : Byte) : (loadA v s).mem = s.mem := rfl
@[simp] theorem loadA_answers (v : Byte) : (loadA v s).answers = s.answers := rfl
@[simp] theorem loadA_bus (v : Byte) : (loadA v s).bus = s.bus := rfl
@[simp] theorem loadA_out (v : Byte) : (loadA v s).out = s.out := rfl
@[simp] theorem loadA_resetSeen (v : Byte) : (loadA v s).resetSeen = s.resetSeen := rfl
@[simp] theorem loadA_host (v : Byte) : (loadA v s).host = s.host := rfl
@[simp] theorem loadA_unofficialSeen (v : Byte) : (loadA v s).unofficialSeen = s.unofficialSeen := rfl

@[simp] theorem loadX_A (v : Byte) : (loadX v s).A = s.A := rfl
@[simp] theorem loadX_X (v : Byte) : (loadX v s).X = v := rfl
@[simp] theorem loadX_Y (v : Byte) : (loadX v s).Y = s.Y := rfl
@[simp] theorem loadX_S (v : Byte) : (loadX v s).S = s.S := rfl
@[simp] theorem loadX_P (v : Byte) : (loadX v s).P = (s.setNZ v).P := rfl
@[simp] theorem loadX_PC (v : Byte) : (loadX v s).PC = s.PC := rfl
@[simp] theorem loadX_mem (v : Byte) : (loadX v s).mem = s.mem := rfl
@[simp] theorem loadX_answers (v : Byte) : (loadX v s).answers = s.answers := rfl
@[simp] theorem loadX_bus (v : Byte) : (loadX v s).bus = s.bus := rfl
@[simp] theorem loadX_out (v : Byte) : (loadX v s).out = s.out := rfl
@[simp] theorem loadX_resetSeen (v : Byte) : (loadX v s).resetSeen = s.resetSeen := rfl
@[simp] theorem loadX_host (v : Byte) : (loadX v s).host = s.host := rfl
@[simp] theorem loadX_unofficialSeen (v : Byte) : (loadX v s).unofficialSeen = s.unofficialSeen := rfl

@[simp] theorem loadY_A (v : Byte) : (loadY v s).A = s.A := rfl
@[simp] theorem loadY_X (v : Byte) : (loadY v s).X = s.X := rfl
@[simp] theorem loadY_Y (v : Byte) : (loadY v s).Y = v := rfl
@[simp] theorem loadY_S (v : Byte) : (loadY v s).S = s.S := rfl
@[simp] theorem loadY_P (v : Byte) : (loadY v s).P = (s.setNZ v).P := rfl
@[simp] theorem loadY_PC (v : Byte) : (loadY v s).PC = s.PC := rfl
@[simp] theorem loadY_mem (v : Byte) : (loadY v s).mem = s.mem := rfl
@[simp] theorem loadY_answers (v : Byte) : (loadY v s).answers = s.answers := rfl
@[simp] theorem loadY_bus (v : Byte) : (loadY v s).bus = s.bus := rfl
@[simp] theorem loadY_out (v : Byte) : (loadY v s).out = s.out := rfl
@[simp] theorem loadY_resetSeen (v : Byte) : (loadY v s).resetSeen = s.resetSeen := rfl
@[simp] theorem loadY_host (v : Byte) : (loadY v s).host = s.host := rfl
@[simp] theorem loadY_unofficialSeen (v : Byte) : (loadY v s).unofficialSeen = s.unofficialSeen := rfl

@[simp] theorem compare_A (r m : Byte) : (s.compare r m).A = s.A := rfl
@[simp] theorem compare_X (r m : Byte) : (s.compare r m).X = s.X := rfl
@[simp] theorem compare_Y (r m : Byte) : (s.compare r m).Y = s.Y := rfl
@[simp] theorem compare_S (r m : Byte) : (s.compare r m).S = s.S := rfl
@[simp] theorem compare_P (r m : Byte) : (s.compare r m).P = ((s.setFlag .c (decide (r.toNat ≥ m.toNat))).setNZ (r - m)).P := rfl
@[simp] theorem compare_PC (r m : Byte) : (s.compare r m).PC = s.PC := rfl
@[simp] theorem compare_mem (r m : Byte) : (s.compare r m).mem = s.mem := rfl
@[simp] theorem compare_answers (r m : Byte) : (s.compare r m).answers = s.answers := rfl
@[simp] theorem compare_bus (r m : Byte) : (s.compare r m).bus = s.bus := rfl
@[simp] theorem compare_out (r m : Byte) : (s.compare r m).out = s.out := rfl
@[simp] theorem compare_resetSeen (r m : Byte) : (s.compare r m).resetSeen = s.resetSeen := rfl
@[simp] theorem compare_host (r m : Byte) : (s.compare r m).host = s.host := rfl
@[simp] theorem compare_unofficialSeen (r m : Byte) : (s.compare r m).unofficialSeen = s.unofficialSeen := rfl

@[simp] theorem beginOp_A : (s.beginOp).A = s.A := rfl
@[simp] theorem beginOp_X : (s.beginOp).X = s.X := rfl
@[simp] theorem beginOp_Y : (s.beginOp).Y = s.Y := rfl
@[simp] theorem beginOp_S : (s.beginOp).S = s.S := rfl
@[simp] theorem beginOp_P : (s.beginOp).P = s.P := rfl
@[simp] theorem beginOp_PC : (s.beginOp).PC = s.PC := rfl
@[simp] theorem beginOp_mem : (s.beginOp).mem = s.mem := rfl
@[simp] theorem beginOp_answers : (s.beginOp).answers = s.answers := rfl
@[simp] theorem beginOp_bus : (s.beginOp).bus = [] := rfl
@[simp] theorem beginOp_out : (s.beginOp).out = none := rfl
@[simp] theorem beginOp_resetSeen : (s.beginOp).resetSeen = s.resetSeen := rfl
@[simp] theorem beginOp_host : (s.beginOp).host = s.host := rfl
@[simp] theorem beginOp_unofficialSeen : (s.beginOp).unofficialSeen = s.unofficialSeen := rfl

@[simp] theorem popOp_A : (s.popOp).A = s.A := rfl
@[simp] theorem popOp_X : (s.popOp).X = s.X := rfl
@[simp] theorem popOp_Y : (s.popOp).Y = s.Y := rfl
@[simp] theorem popOp_S : (s.popOp).S = s.S := rfl
@[simp] theorem popOp_P : (s.popOp).P = s.P := rfl
@[simp] theorem popOp_PC : (s.popOp).PC = s.PC := rfl
@[simp] theorem popOp_mem : (s.popOp).mem = s.mem := rfl
@[simp] theorem popOp_answers : (s.popOp).answers = s.answers := rfl
@[simp] theorem popOp_bus : (s.popOp).bus = s.bus := rfl
@[simp] theorem popOp_out : (s.popOp).out = s.out := rfl
@[simp] theorem popOp_resetSeen : (s.popOp).resetSeen = s.resetSeen := rfl
@[simp] theorem popOp_host : (s.popOp).host = s.host.tail := rfl
@[simp] theorem popOp_unofficialSeen : (s.popOp).unofficialSeen = s.unofficialSeen := rfl

@[simp] theorem returnCycles_A (n : Byte) : (s.returnCycles n).A = s.A := rfl
@[simp] theorem returnCycles_X (n : Byte) : (s.returnCycles n).X = s.X := rfl
@[simp] theorem returnCycles_Y (n : Byte) : (s.returnCycles n).Y = s.Y := rfl
@[simp] theorem returnCycles_S (n : Byte) : (s.returnCycles n).S = s.S := rfl
@[simp] theorem returnCycles_P (n : Byte) : (s.returnCycles n).P = s.P := rfl
@[simp] theorem returnCycles_PC (n : Byte) : (s.returnCycles n).PC = s.PC := rfl
@[simp] theorem returnCycles_mem (n : Byte) : (s.returnCycles n).mem = s.mem := rfl
@[simp] theorem returnCycles_answers (n : Byte) : (s.returnCycles n).answers = s.answers := rfl
@[simp] theorem returnCycles_bus (n : Byte) : (s.returnCycles n).bus = s.bus := rfl
@[simp] theorem returnCycles_out (n : Byte) : (s.returnCycles n).out = some ⟨n, none⟩ := rfl
@[simp] theorem returnCycles_resetSeen (n : Byte) : (s.returnCycles n).resetSeen = s.resetSeen := rfl
@[simp] theorem returnCycles_host (n : Byte) : (s.returnCycles n).host = s.host := rfl
@[simp] theorem returnCycles_unofficialSeen (n : Byte) : (s.returnCycles n).unofficialSeen = s.unofficialSeen := rfl

@[simp] theorem signalUnofficial_A (o : Byte) (a : Word) : (s.signalUnofficial o a).A = s.A := rfl
@[simp] theorem signalUnofficial_X (o : Byte) (a : Word) : (s.signalUnofficial o a).X = s.X := rfl
@[simp] theorem signalUnofficial_Y (o : Byte) (a : Word) : (s.signalUnofficial o a).Y = s.Y := rfl
@[simp] theorem signalUnofficial_S (o : Byte) (a : Word) : (s.signalUnofficial o a).S = s.S := rfl
@[simp] theorem signalUnofficial_P (o : Byte) (a : Word) : (s.signalUnofficial o a).P = s.P := rfl
@[simp] theorem signalUnofficial_PC (o : Byte) (a : Word) : (s.signalUnofficial o a).PC = s.PC := rfl
@[simp] theorem signalUnofficial_mem (o : Byte) (a : Word) : (s.signalUnofficial o a).mem = s.mem := rfl
@[simp] theorem signalUnofficial_answers (o : Byte) (a : Word) : (s.signalUnofficial o a).answers = s.answers := rfl
@[simp] theorem signalUnofficial_bus (o : Byte) (a : Word) : (s.signalUnofficial o a).bus = s.bus := rfl
@[simp] theorem signalUnofficial_out (o : Byte) (a : Word) : (s.signalUnofficial o a).out = some ⟨1, some ⟨o, a⟩⟩ := rfl
@[simp] theorem signalUnofficial_resetSeen (o : Byte) (a : Word) : (s.signalUnofficial o a).resetSeen = s.resetSeen := rfl
@[simp] theorem signalUnofficial_host (o : Byte) (a : Word) : (s.signalUnofficial o a).host = s.host := rfl
@[simp] theorem signalUnofficial_unofficialSeen (o : Byte) (a : Word) : (s.signalUnofficial o a).unofficialSeen = true := rfl

/-- Two states with the same fields are the same. -/
@[ext] theorem State.eq_of_fields {s t : State} (hA : s.A = t.A) (hX : s.X = t.X) (hY : s.Y = t.Y) (hS : s.S = t.S)
    (hP : s.P = t.P) (hPC : s.PC = t.PC) (hmem : s.mem = t.mem)
    (hanswers : s.answers = t.answers) (hbus : s.bus = t.bus) (hout : s.out = t.out)
    (hreset : s.resetSeen = t.resetSeen)
    (hhost : s.host = t.host) (hseen : s.unofficialSeen = t.unofficialSeen) : s = t := by
  cases s
  cases t
  simp_all

end Sys2Proof.Machine
end

