-- ==== Sys2Proof/Laws/Flags.lean ====
section
/-! SUPPORT. Laws of the status register: what a flag write does to each bit, and when only named flags change. -/

namespace Sys2Proof.Machine

theorem Flag.bit_lt (f : Flag) : f.bit < 8 := by
  cases f <;> decide

theorem Flag.bit_ne_five (f : Flag) : f.bit ≠ 5 := by
  cases f <;> decide

theorem Flag.bit_inj {f g : Flag} : f.bit = g.bit ↔ f = g := by
  cases f <;> cases g <;> decide

theorem Flag.mask_getLsbD (f : Flag) (k : Nat) : f.mask.getLsbD k = decide (k = f.bit) := by
  by_cases hk : k < 8
  · cases f <;> interval_cases k <;> rfl
  · rw [BitVec.getLsbD_of_ge _ _ (by omega)]
    have := f.bit_lt
    simp only [Bool.false_eq, decide_eq_false_iff_not]
    omega

/-- A flag write changes the bit of that flag and no other. -/
theorem putFlag_getLsbD (f : Flag) (b : Bool) (p : Byte) (k : Nat) :
    (putFlag f b p).getLsbD k = if k = f.bit then b else p.getLsbD k := by
  have hb := f.bit_lt
  by_cases h : k = f.bit
  · subst h
    cases b <;> simp only [putFlag, if_true, Bool.false_eq_true, if_false, BitVec.getLsbD_or, BitVec.getLsbD_and,
      BitVec.getLsbD_not, Flag.mask_getLsbD, hb] <;> simp
  · rw [if_neg h]
    by_cases hk : k < 8
    · cases b <;> simp only [putFlag, if_true, Bool.false_eq_true, if_false, BitVec.getLsbD_or, BitVec.getLsbD_and,
        BitVec.getLsbD_not, Flag.mask_getLsbD, h, hk] <;> simp
    · rw [BitVec.getLsbD_of_ge _ _ (by omega), BitVec.getLsbD_of_ge p _ (by omega)]

@[simp] theorem flagOf_putFlag (f g : Flag) (b : Bool) (p : Byte) :
    flagOf f (putFlag g b p) = if f = g then b else flagOf f p := by
  simp [flagOf, putFlag_getLsbD, Flag.bit_inj]

@[simp] theorem flag_def (f : Flag) (s : State) : s.flag f = flagOf f s.P := rfl

/-- A flag write leaves bit 5. -/
@[simp] theorem putFlag_bit5 (f : Flag) (b : Bool) (p : Byte) : (putFlag f b p).getLsbD 5 = p.getLsbD 5 := by
  rw [putFlag_getLsbD, if_neg (fun e => f.bit_ne_five e.symm)]

theorem bit5_getLsbD (k : Nat) : bit5.getLsbD k = decide (k = 5) := by
  by_cases hk : k < 8
  · interval_cases k <;> rfl
  · rw [BitVec.getLsbD_of_ge _ _ (by omega)]
    simp only [Bool.false_eq, decide_eq_false_iff_not]
    omega

/-- Forcing bit 5 leaves every other bit. -/
theorem or_bit5_getLsbD (p : Byte) (k : Nat) : (p ||| bit5).getLsbD k = (p.getLsbD k || decide (k = 5)) := by
  rw [BitVec.getLsbD_or, bit5_getLsbD]

@[simp] theorem flagOf_or_bit5 (f : Flag) (p : Byte) : flagOf f (p ||| bit5) = flagOf f p := by
  rw [flagOf, or_bit5_getLsbD, flagOf]
  simp [f.bit_ne_five]

/-- Two status bytes with the same bits are the same. -/
theorem status_ext {p q : Byte} (h : ∀ k, k < 8 → p.getLsbD k = q.getLsbD k) : p = q := by
  ext k hk
  simpa [BitVec.getLsbD_eq_getElem hk] using h k hk

end Sys2Proof.Machine

namespace Sys2Proof

open Machine

theorem keepsExcept_refl (fs : List Flag) (p : Byte) : keepsExcept fs p p :=
  fun _ _ _ => rfl

theorem keepsExcept_trans {fs : List Flag} {p q r : Byte} (h : keepsExcept fs p q) (h' : keepsExcept fs q r) :
    keepsExcept fs p r :=
  fun k hk hf => (h' k hk hf).trans (h k hk hf)

/-- A write of a named flag keeps every bit but those of the named flags. -/
theorem keepsExcept_putFlag {fs : List Flag} {f : Flag} (h : f ∈ fs) (b : Bool) {p q : Byte}
    (hq : keepsExcept fs p q) : keepsExcept fs p (putFlag f b q) := by
  intro k hk hf
  rw [putFlag_getLsbD, if_neg (fun e => hf f h e.symm), hq k hk hf]

/-- A flag that is not named keeps its value. -/
theorem keepsExcept_flagOf {fs : List Flag} {p q : Byte} (h : keepsExcept fs p q) {f : Flag} (hf : f ∉ fs) :
    flagOf f q = flagOf f p :=
  h f.bit f.bit_lt (fun _ hg e => hf (Flag.bit_inj.mp e ▸ hg))

theorem keepsExcept_bit5 {fs : List Flag} {p q : Byte} (h : keepsExcept fs p q) : q.getLsbD 5 = p.getLsbD 5 :=
  h 5 (by decide) (fun f _ => f.bit_ne_five)

/-- SetNZ shows its value in Z and N (R20). -/
theorem showsNZ_setNZ (v : Byte) (s : State) : showsNZ v (s.setNZ v).P := by
  simp [showsNZ, BitVec.msb_eq_getLsbD_last]

/-- SetNZ keeps every bit but N and Z (R20). -/
theorem keepsExcept_setNZ {fs : List Flag} (hn : Flag.n ∈ fs) (hz : Flag.z ∈ fs) (v : Byte) {p : Byte} {s : State}
    (h : keepsExcept fs p s.P) : keepsExcept fs p (s.setNZ v).P :=
  keepsExcept_putFlag hn _ (keepsExcept_putFlag hz _ h)

/-- SetNZ changes P and nothing else (R20). -/
theorem setNZ_eq (v : Byte) (s : State) : s.setNZ v = { s with P := (s.setNZ v).P } := rfl

/-- What ADC's flags and result are, as numbers (R131). -/
theorem adcResult_toNat (a m : Byte) (c : Bool) : (adcResult a m c).toNat = (a.toNat + m.toNat + c.toNat) % 256 := by
  cases c <;> simp [adcResult, adcSum, carryNat]

/-- ADC's carry (R131). -/
theorem adcCarry_iff (a m : Byte) (c : Bool) : adcCarry a m c = true ↔ a.toNat + m.toNat + c.toNat > 255 := by
  cases c <;> simp [adcCarry, adcSum, carryNat]

/-- SBC's difference (R132). -/
theorem sbcDiff_eq (a m : Byte) (c : Bool) :
    sbcDiff a m c = (a.toNat : Int) - m.toNat - (1 - (c.toNat : Int)) := by
  cases c <;> simp [sbcDiff, carryNat]

/-- "SBC with operand M gives the same A, N, V, Z, C as ADC with operand ~M" (R132): the results. -/
theorem sbcResult_eq_adcResult (a m : Byte) (c : Bool) : sbcResult a m c = adcResult a (~~~ m) c := by
  have := a.isLt
  have := m.isLt
  apply BitVec.eq_of_toNat_eq
  rw [adcResult_toNat, BitVec.toNat_not]
  simp only [sbcResult, sbcDiff_eq, BitVec.toNat_ofInt]
  cases c <;> simp <;> omega

end Sys2Proof
end

