-- ==== Sys2Proof/Laws/Memory.lean ====
section
/-! SUPPORT. Laws of memory: read after write, and every memory operation keeps the canonical form. -/

namespace Sys2Proof.Machine

theorem Memory.get_insert (m : List Host.Cell) (a b : Nat) (v : Byte) :
    Memory.get (Memory.insert m a v) b = if b = a then v else Memory.get m b := by
  induction m with
  | nil => simp [Memory.insert, Memory.get, eq_comm]
  | cons c m ih =>
    obtain ⟨k, w⟩ := c
    simp only [Memory.insert]
    split
    · simp [Memory.get, eq_comm]
    · split
      · subst k
        by_cases h : a = b <;> simp [Memory.get, h, eq_comm]
      · simp only [Memory.get, ih]
        by_cases h : k = b
        · subst h
          rw [if_pos rfl, if_neg (fun e => ‹¬ a = k› e.symm), if_pos rfl]
        · simp [h]

theorem Memory.get_erase (m : List Host.Cell) (a b : Nat) :
    Memory.get (Memory.erase m a) b = if b = a then Config.unwrittenByte else Memory.get m b := by
  induction m with
  | nil => simp [Memory.erase, Memory.get]
  | cons c m ih =>
    obtain ⟨k, w⟩ := c
    simp only [Memory.erase]
    by_cases hk : k = a
    · subst hk
      rw [if_pos rfl, ih]
      by_cases hb : b = k
      · simp [hb]
      · rw [if_neg hb, if_neg hb, Memory.get, if_neg (fun e => hb e.symm)]
    · rw [if_neg hk]
      simp only [Memory.get, ih]
      by_cases hb : k = b
      · subst hb
        simp [hk]
      · simp [hb]

/-- Reading any address after a store: the stored byte there, the old byte elsewhere. -/
theorem Memory.get_put (m : List Host.Cell) (a b : Nat) (v : Byte) :
    Memory.get (Memory.put m a v) b = if b = a then v else Memory.get m b := by
  unfold Memory.put
  split
  · rw [Memory.get_erase, ‹v = _›]
  · rw [Memory.get_insert]

theorem Memory.wfAbove_cons {lo : Option Nat} {k : Nat} {v : Byte} {m : List Host.Cell} :
    Memory.wfAbove lo ((k, v) :: m) = true ↔
      (∀ l, lo = some l → l < k) ∧ k < 65536 ∧ v ≠ Config.unwrittenByte ∧ Memory.wfAbove (some k) m = true := by
  cases lo <;> simp [Memory.wfAbove, and_assoc]

theorem Memory.wfAbove_weaken {k : Nat} {lo : Option Nat} {m : List Host.Cell} (h : ∀ l, lo = some l → l ≤ k)
    (hm : Memory.wfAbove (some k) m = true) : Memory.wfAbove lo m = true := by
  cases m with
  | nil => simp [Memory.wfAbove]
  | cons c m =>
    obtain ⟨k', v⟩ := c
    rw [Memory.wfAbove_cons] at hm ⊢
    exact ⟨fun l' hl' => Nat.lt_of_le_of_lt (h l' hl') (hm.1 _ rfl), hm.2⟩

theorem Memory.wfAbove_erase {lo : Option Nat} {m : List Host.Cell} (a : Nat) (h : Memory.wfAbove lo m = true) :
    Memory.wfAbove lo (Memory.erase m a) = true := by
  induction m generalizing lo with
  | nil => simp [Memory.erase, Memory.wfAbove]
  | cons c m ih =>
    obtain ⟨k, v⟩ := c
    rw [Memory.wfAbove_cons] at h
    simp only [Memory.erase]
    split
    · exact ih (Memory.wfAbove_weaken (fun l hl => Nat.le_of_lt (h.1 l hl)) h.2.2.2)
    · exact Memory.wfAbove_cons.mpr ⟨h.1, h.2.1, h.2.2.1, ih h.2.2.2⟩

theorem Memory.wfAbove_insert {lo : Option Nat} {m : List Host.Cell} {a : Nat} {v : Byte} (ha : a < 65536)
    (hv : v ≠ Config.unwrittenByte) (hlo : ∀ l, lo = some l → l < a) (h : Memory.wfAbove lo m = true) :
    Memory.wfAbove lo (Memory.insert m a v) = true := by
  induction m generalizing lo with
  | nil => exact Memory.wfAbove_cons.mpr ⟨hlo, ha, hv, by simp [Memory.wfAbove]⟩
  | cons c m ih =>
    obtain ⟨k, w⟩ := c
    rw [Memory.wfAbove_cons] at h
    simp only [Memory.insert]
    split
    · refine Memory.wfAbove_cons.mpr ⟨hlo, ha, hv, Memory.wfAbove_cons.mpr ⟨?_, h.2⟩⟩
      simpa using ‹a < k›
    · split
      · subst k
        exact Memory.wfAbove_cons.mpr ⟨hlo, ha, hv, h.2.2.2⟩
      · refine Memory.wfAbove_cons.mpr ⟨h.1, h.2.1, h.2.2.1, ih ?_ h.2.2.2⟩
        intro l hl
        cases hl
        omega

/-- A store inside the address space keeps the canonical form. -/
theorem Memory.wf_put {m : List Host.Cell} (a : Word) (v : Byte) (h : Memory.wf m = true) :
    Memory.wf (Memory.put m a.toNat v) = true := by
  unfold Memory.put
  split
  · exact Memory.wfAbove_erase _ h
  · exact Memory.wfAbove_insert a.isLt ‹_› (by simp) h

/-- The memory of the reset state is in canonical form. -/
theorem State.reset_wf : Memory.wf State.reset.mem = true := rfl

theorem byteAt_eq_of_mem {s t : State} (h : t.mem = s.mem) (a : Word) : t.byteAt a = s.byteAt a := by
  unfold State.byteAt
  rw [h]

/-- Reading any address after `MemWrite`. -/
theorem memWrite_byteAt (a b : Word) (v : Byte) (s : State) :
    (memWrite a v s).byteAt b = if b = a then v else s.byteAt b := by
  simp [State.byteAt, memWrite_mem, Memory.get_put, BitVec.toNat_inj]

/-- Answers further on. -/
@[simp] theorem busAnswer_drop (m : List Host.Cell) (l : List (Option Byte)) (n k : Nat) (a : Word) :
    busAnswer m (l.drop n) k a = busAnswer m l (n + k) a := by
  simp only [busAnswer, List.getElem?_drop]

@[simp] theorem busAnswer_tail (m : List Host.Cell) (l : List (Option Byte)) (k : Nat) (a : Word) :
    busAnswer m l.tail k a = busAnswer m l (k + 1) a := by
  rw [← List.drop_one, busAnswer_drop, Nat.add_comm]

/-- Two answers used up, one after the other. -/
@[simp] theorem answers_tail_tail (l : List (Option Byte)) : l.tail.tail = l.drop 2 := by
  simp [← List.drop_one]

/-- A store elsewhere does not change what a read of `a` is answered. -/
theorem busAnswer_put {a b : Word} (h : a ≠ b) (m : List Host.Cell) (l : List (Option Byte)) (k : Nat) (v : Byte) :
    busAnswer (Memory.put m b.toNat v) l k a = busAnswer m l k a := by
  unfold busAnswer
  rw [Memory.get_put, if_neg (fun e => h (BitVec.eq_of_toNat_eq e))]

/-- A bus that has given its answer gives it. -/
@[simp] theorem busAnswer_cons_some (m : List Host.Cell) (v : Byte) (l : List (Option Byte)) (a : Word) :
    busAnswer m (some v :: l) 0 a = v := rfl

/-- With no answer given, the flat RAM answers. -/
@[simp] theorem busAnswer_nil (m : List Host.Cell) (k : Nat) (a : Word) :
    busAnswer m [] k a = Memory.get m a.toNat := rfl

/-- Where the flat RAM is to answer, it does. -/
theorem busAnswer_none {l : List (Option Byte)} (h : ∀ x ∈ l, x = none) (m : List Host.Cell) (k : Nat) (a : Word) :
    busAnswer m l k a = Memory.get m a.toNat := by
  unfold busAnswer
  split
  · rename_i v hv
    exact absurd (h _ (List.mem_of_getElem? hv)) (by simp)
  · rfl

@[simp] theorem note_byteAt (x : BusAccess) (a : Word) (s : State) : (s.note x).byteAt a = s.byteAt a := rfl
@[simp] theorem setFlag_byteAt (f : Flag) (b : Bool) (a : Word) (s : State) :
    (s.setFlag f b).byteAt a = s.byteAt a := rfl
@[simp] theorem setNZ_byteAt (v : Byte) (a : Word) (s : State) : (s.setNZ v).byteAt a = s.byteAt a := rfl
@[simp] theorem writeP_byteAt (v : Byte) (a : Word) (s : State) : (s.writeP v).byteAt a = s.byteAt a := rfl
@[simp] theorem beginOp_byteAt (a : Word) (s : State) : s.beginOp.byteAt a = s.byteAt a := rfl
@[simp] theorem setFlag_answer (f : Flag) (b : Bool) (k : Nat) (a : Word) (s : State) :
    (s.setFlag f b).answer k a = s.answer k a := rfl
@[simp] theorem setNZ_answer (v : Byte) (k : Nat) (a : Word) (s : State) : (s.setNZ v).answer k a = s.answer k a := rfl
@[simp] theorem writeP_answer (v : Byte) (k : Nat) (a : Word) (s : State) :
    (s.writeP v).answer k a = s.answer k a := rfl
@[simp] theorem beginOp_answer (k : Nat) (a : Word) (s : State) : s.beginOp.answer k a = s.answer k a := rfl
@[simp] theorem popOp_answer (k : Nat) (a : Word) (s : State) : s.popOp.answer k a = s.answer k a := rfl
@[simp] theorem popOp_byteAt (a : Word) (s : State) : s.popOp.byteAt a = s.byteAt a := rfl

end Sys2Proof.Machine
end

