-- ==== Sys2Proof/Laws/Ops.lean ====
section
/-! SUPPORT. One law for each shared operation: everything it does to a state. -/

namespace Sys2Proof

open Machine

theorem zext16_eq_mkWord (z : Byte) : zext16 z = mkWord 0 z := by
  apply BitVec.eq_of_toNat_eq
  have := z.isLt
  rw [mkWord_toNat, zext16, BitVec.toNat_setWidth]
  simp only [BitVec.toNat_ofNat, BitVec.ofNat_eq_ofNat]
  omega

theorem stackAddr_eq_mkWord (sp : Byte) : stackAddr sp = mkWord 0x01 sp := by
  apply BitVec.eq_of_toNat_eq
  have := sp.isLt
  rw [mkWord_toNat]
  simp only [stackAddr, zext16, BitVec.toNat_add, BitVec.toNat_setWidth, BitVec.ofNat_eq_ofNat, BitVec.toNat_ofNat]
  omega

/-- Two stack addresses are the same only if the stack pointers are. -/
theorem stackAddr_inj {a b : Byte} : stackAddr a = stackAddr b ↔ a = b := by
  rw [stackAddr_eq_mkWord, stackAddr_eq_mkWord]
  exact ⟨fun e => (mkWord_inj e).2, fun e => by rw [e]⟩

theorem stackSlot_eq (s : State) (k : Byte) : stackSlot s k = stackAddr (s.S + k) :=
  (stackAddr_eq_mkWord _).symm

/-- A stack address is in page 1 (R43). -/
theorem stackAddr_toNat (sp : Byte) : (stackAddr sp).toNat = 256 + sp.toNat := by
  rw [stackAddr_eq_mkWord, mkWord_toNat]
  simp

/-- An address outside page 1 is no stack address. -/
theorem ne_stackAddr {a : Word} (h : a.toNat < 256 ∨ 511 < a.toNat) (sp : Byte) : a ≠ stackAddr sp := by
  intro e
  have := sp.isLt
  rw [e, stackAddr_toNat] at h
  omega

/-- On the reference bus every read is answered by the flat RAM (R31). -/
theorem OnRam.answer {s : State} (h : OnRam s) (k : Nat) (a : Word) : s.answer k a = s.byteAt a :=
  busAnswer_none h _ _ _

/-- Reading leaves the bus as it is: what is left of the answers is still that of the reference bus. -/
theorem OnRam.drop {s t : State} (h : OnRam s) {n : Nat} (ht : t.answers = s.answers.drop n) : OnRam t := by
  intro x hx
  rw [ht] at hx
  exact h x (List.mem_of_mem_drop hx)

theorem memRead_eq (a : Word) (s : State) :
    memRead a s = (s.answer 0 a, { s with answers := s.answers.tail, bus := s.bus ++ [.read a] }) := rfl

theorem memWrite_eq (a : Word) (v : Byte) (s : State) :
    memWrite a v s = { s with mem := Memory.put s.mem a.toNat v, bus := s.bus ++ [.write a v] } := rfl

theorem fetch8_eq (s : State) :
    fetch8 s = (s.answer 0 s.PC,
      { s with PC := s.PC + 1, answers := s.answers.tail, bus := s.bus ++ [.read s.PC] }) := rfl

theorem read16_eq (a : Word) (s : State) :
    read16 a s = (wordAt s a,
      { s with answers := s.answers.drop 2, bus := s.bus ++ [.read a, .read (a + 1)] }) := by
  simp [read16, memRead, wordAt, State.note, State.answer]

theorem read16ZP_eq (z : Byte) (s : State) :
    read16ZP z s = (mkWord (s.answer 1 (mkWord 0 (z + 1))) (s.answer 0 (mkWord 0 z)),
      { s with
        answers := s.answers.drop 2
        bus := s.bus ++ [.read (mkWord 0 z), .read (mkWord 0 (z + 1))] }) := by
  simp [read16ZP, memRead, zext16_eq_mkWord, State.note, State.answer]

theorem read16Bug_eq (a : Word) (s : State) :
    read16Bug a s = (mkWord (s.answer 1 (mkWord (hiByte a) (loByte a + 1))) (s.answer 0 a),
      { s with
        answers := s.answers.drop 2
        bus := s.bus ++ [.read a, .read (mkWord (hiByte a) (loByte a + 1))] }) := by
  simp [read16Bug, memRead, State.note, State.answer]

theorem push8_eq (v : Byte) (s : State) :
    push8 v s = { s with
      S := s.S - 1
      mem := Memory.put s.mem (stackAddr s.S).toNat v
      bus := s.bus ++ [.write (stackAddr s.S) v] } := rfl

theorem pop8_eq (s : State) :
    pop8 s = (s.answer 0 (stackAddr (s.S + 1)),
      { s with
        S := s.S + 1
        answers := s.answers.tail
        bus := s.bus ++ [.read (stackAddr (s.S + 1))] }) := rfl

theorem push16_eq (w : Word) (s : State) :
    push16 w s = { s with
      S := s.S - 2
      mem := Memory.put (Memory.put s.mem (stackAddr s.S).toNat (hiByte w)) (stackAddr (s.S - 1)).toNat (loByte w)
      bus := s.bus ++ [.write (stackAddr s.S) (hiByte w), .write (stackAddr (s.S - 1)) (loByte w)] } := by
  have h : s.S - 1#8 - 1#8 = s.S - 2#8 := by bv_omega
  simp [push16, push8_eq, h]

theorem pop16_eq (s : State) :
    pop16 s = (mkWord (s.answer 1 (stackAddr (s.S + 2))) (s.answer 0 (stackAddr (s.S + 1))),
      { s with
        S := s.S + 2
        answers := s.answers.drop 2
        bus := s.bus ++ [.read (stackAddr (s.S + 1)), .read (stackAddr (s.S + 2))] }) := by
  have h : s.S + 1#8 + 1#8 = s.S + 2#8 := by bv_omega
  simp [pop16, pop8_eq, h, State.answer]

/-- Reading after a store, on the list of cells. -/
theorem get_put_word (m : List Host.Cell) (a b : Word) (v : Byte) :
    Memory.get (Memory.put m a.toNat v) b.toNat = if b = a then v else Memory.get m b.toNat := by
  rw [Memory.get_put]
  simp [BitVec.toNat_inj]

/-- Reading after three stores to distinct addresses. -/
theorem get_put_three (m : List Host.Cell) (a : Word) {a0 a1 a2 : Word} (x y z : Byte) (h01 : a0 ≠ a1) (h02 : a0 ≠ a2)
    (h12 : a1 ≠ a2) :
    Memory.get (Memory.put (Memory.put (Memory.put m a0.toNat x) a1.toNat y) a2.toNat z) a.toNat =
      if a = a0 then x else if a = a1 then y else if a = a2 then z else Memory.get m a.toNat := by
  simp only [get_put_word]
  by_cases h0 : a = a0
  · subst h0
    simp [h01, h02]
  · by_cases h1 : a = a1
    · subst h1
      simp [h0, h12]
    · simp [h0, h1]

/-- The status byte after the flag writes of a trap entry (R175). -/
theorem trapFlags_eq (b masks : Bool) (s : State) :
    s.trapFlags b masks = { s with P := (s.trapFlags b masks).P } := by
  cases masks <;> rfl

/-- Taking a trap, whole (R175): the frame in the stack ring, P, S, PC and the accesses; A, X, Y and the rest stay. -/
theorem takeTrap_eq (b masks : Bool) (v : Word) (s : State) (hv : 511 < v.toNat) (hv' : v.toNat < 65535) :
    ∃ m, takeTrap b masks v s = { s with
        S := s.S - 3
        P := (s.trapFlags b masks).P
        PC := wordAt s v
        mem := m
        answers := s.answers.drop 2
        bus := s.bus ++ [.write (stackSlot s 0) (hiByte s.PC), .write (stackSlot s (-1)) (loByte s.PC),
          .write (stackSlot s (-2)) ((s.trapFlags b masks).P ||| bit5), .read v, .read (v + 1)] } ∧
      TrapFrame s ((s.trapFlags b masks).P ||| bit5) m ∧
      m = Memory.put (Memory.put (Memory.put s.mem (stackSlot s 0).toNat (hiByte s.PC)) (stackSlot s (-1)).toNat
        (loByte s.PC)) (stackSlot s (-2)).toNat ((s.trapFlags b masks).P ||| bit5) := by
  have e0 : stackSlot s 0 = stackAddr s.S := by simp [stackSlot_eq]
  have e1 : stackSlot s (-1) = stackAddr (s.S - 1) := by
    rw [stackSlot_eq]
    exact congrArg _ (by bv_omega)
  have e2 : stackSlot s (-2) = stackAddr (s.S - 2) := by
    rw [stackSlot_eq]
    exact congrArg _ (by bv_omega)
  have hs : s.S - 2#8 - 1#8 = s.S - 3#8 := by bv_omega
  have hv1 : (v + 1#16).toNat = v.toNat + 1 := by
    simp only [BitVec.toNat_add, BitVec.toNat_ofNat]
    omega
  have hP : ((push16 s.PC s).trapFlags b masks).P = (s.trapFlags b masks).P := by
    cases masks <;> simp [State.trapFlags, push16_eq]
  refine ⟨_, ?_, ?_, rfl⟩
  · unfold takeTrap jumpThrough
    simp only [read16_eq]
    rw [trapFlags_eq, hP, e0, e1, e2]
    simp [-BitVec.toNat_add, push16_eq, push8_eq, State.readP, hs, wordAt, State.answer, busAnswer_put,
      ne_stackAddr (a := v) (Or.inr hv), ne_stackAddr (a := v + 1#16) (Or.inr (by rw [hv1]; omega))]
  · intro a
    rw [e0, e1, e2]
    exact get_put_three s.mem a _ _ _ (fun e => by have := stackAddr_inj.mp e; bv_omega)
      (fun e => by have := stackAddr_inj.mp e; bv_omega) (fun e => by have := stackAddr_inj.mp e; bv_omega)

/-- Returning from a trap, whole (R113, R176). -/
theorem returnFromTrap_eq (s : State) :
    returnFromTrap s = { s with
      S := s.S + 3
      P := s.answer 0 (stackSlot s 1) ||| bit5
      PC := mkWord (s.answer 2 (stackSlot s 3)) (s.answer 1 (stackSlot s 2))
      answers := s.answers.drop 3
      bus := s.bus ++ [.read (stackSlot s 1), .read (stackSlot s 2), .read (stackSlot s 3)] } := by
  have h2 : s.S + 1#8 + 1#8 = s.S + 2#8 := by bv_omega
  have h3 : s.S + 1#8 + 2#8 = s.S + 3#8 := by bv_omega
  simp [returnFromTrap, pop8_eq, pop16_eq, State.writeP, h2, h3, stackSlot_eq, State.answer]

/-- A branch changes PC and nothing else (R120). -/
theorem branchIf_eq (c : Bool) (d : Byte) (s : State) :
    branchIf c d s = { s with PC := if c then s.PC + sext16 d else s.PC } := by
  cases c <;> rfl

/-- The resolver changes nothing but the bus, by its pointer reads (R68). -/
theorem effAddr_snd (am : AddrMode) (s : State) :
    (effAddr am s).2 = { s with answers := s.answers.drop am.reads, bus := s.bus ++ pointerReads am s } := by
  cases am <;> simp [effAddr, pointerReads, AddrMode.reads, read16Bug_eq, read16ZP_eq]

/-- Category Argument (R82): one read of `ea`, whose byte goes to the rule. -/
theorem argument_eq (f : Byte → State → State) (am : AddrMode) (s : State) :
    argument f am s = f (s.answer am.reads (effAddr am s).1)
      { s with
        answers := s.answers.drop (am.reads + 1)
        bus := s.bus ++ pointerReads am s ++ [.read (effAddr am s).1] } := by
  simp [argument, memRead_eq, effAddr_snd, State.answer]

/-- Category MemoryWrite (R82): the rule receives `ea`. -/
theorem memoryWrite_eq (f : Word → State → State) (am : AddrMode) (s : State) :
    memoryWrite f am s = f (effAddr am s).1
      { s with answers := s.answers.drop am.reads, bus := s.bus ++ pointerReads am s } := by
  simp [memoryWrite, effAddr_snd]

/-- Category AccumulatorWrite with Accumulator (R156): A and P change. -/
theorem shiftAccumulator_eq (f : Byte → Bool → Byte × Bool) (s : State) :
    shiftAccumulator f s = { s with
      A := (f s.A (s.flag .c)).1
      P := ((s.setFlag .c (f s.A (s.flag .c)).2).setNZ (f s.A (s.flag .c)).1).P } := rfl

/-- Category AccumulatorWrite with an address (R156): P and the byte at `ea` change, one read then one write. -/
theorem shiftMemory_eq (f : Byte → Bool → Byte × Bool) (am : AddrMode) (s : State) :
    shiftMemory f am s =
      let ea := (effAddr am s).1
      let r := f (s.answer am.reads ea) (s.flag .c)
      { s with
        P := ((s.setFlag .c r.2).setNZ r.1).P
        mem := Memory.put s.mem ea.toNat r.1
        answers := s.answers.drop (am.reads + 1)
        bus := s.bus ++ pointerReads am s ++ [.read ea, .write ea r.1] } := by
  simp [shiftMemory, memRead_eq, effAddr_snd, State.answer, memWrite_eq, State.setNZ, State.setFlag]

/-- ADC changes A and P (R131). -/
theorem adc_eq (m : Byte) (s : State) :
    adc m s = { s with
      A := adcResult s.A m (s.flag .c)
      P := (((s.setFlag .c (adcCarry s.A m (s.flag .c))).setFlag .v (adcOverflow s.A m (s.flag .c))).setNZ
        (adcResult s.A m (s.flag .c))).P } := by
  ext <;> simp [adc]

/-- SBC changes A and P (R132). -/
theorem sbc_eq (m : Byte) (s : State) :
    sbc m s = { s with
      A := sbcResult s.A m (s.flag .c)
      P := (((s.setFlag .c (sbcCarry s.A m (s.flag .c))).setFlag .v (sbcOverflow s.A m (s.flag .c))).setNZ
        (sbcResult s.A m (s.flag .c))).P } := by
  ext <;> simp [sbc]

end Sys2Proof
end

