-- ==== Sys2Proof/Laws/Exec.lean ====
section
/-! SUPPORT. Execution by category (spec/40_dispatch_and_addressing.md R82): each of the 151 arms of `exec` is one of 56
rules, applied in the way of its category. A proof over all instructions splits on the mnemonic through these laws. -/

namespace Sys2Proof

open Machine

/-- No instruction stops: `exec` always answers a next state. -/
theorem exec_next (i : Instr) (s : State) : ∃ t, exec i s = .next t := by
  cases i <;> exact ⟨_, rfl⟩

/-- Every instruction is of the category of its mnemonic, and its form fits it (R60, R82). -/
theorem form_fits (i : Instr) :
    match i.mnemonic.category, i.form with
    | .command, .none => True
    | .branch, .relative _ => True
    | .argument, .immediate _ => True
    | .argument, .memory _ => True
    | .memoryWrite, .memory _ => True
    | .accumulatorWrite, .accumulator => True
    | .accumulatorWrite, .memory _ => True
    | _, _ => False := by
  cases i <;> trivial

/-- A Command instruction applies its rule. -/
theorem exec_command {i : Instr} (h : i.mnemonic.category = .command) (s : State) :
    exec i s = .next (i.mnemonic.commandRule s) := by
  cases i <;> first | (cases h; done) | rfl

/-- A Branch instruction moves PC if its condition holds (R120). -/
theorem exec_branch {i : Instr} (h : i.mnemonic.category = .branch) (s : State) :
    ∃ d c, i.form = .relative d ∧ branchTaken i.mnemonic s.P = some c ∧ exec i s = .next (branchIf c d s) := by
  cases i <;> first | (cases h; done) | exact ⟨_, _, rfl, rfl, rfl⟩

/-- The pointer reads of an instruction's mode (column "resolver" of R85). -/
def Instr.pointers (i : Instr) (s : State) : List BusAccess :=
  match i.form with
  | .memory am => pointerReads am s
  | _ => []

/-- The reads an Argument instruction makes: the pointer reads, then one read of `ea` (R82). -/
def Instr.argumentReads (i : Instr) (s : State) : List BusAccess :=
  match i.form with
  | .memory am => pointerReads am s ++ [.read (effAddr am s).1]
  | _ => []

theorem pointers_place (i : Instr) (s : State) : (i.pointers s).map BusAccess.place = resolverPlaces i s := by
  unfold Instr.pointers resolverPlaces
  cases i.form <;> rfl

theorem argumentReads_place (i : Instr) (s : State) :
    (i.argumentReads s).map BusAccess.place = resolverPlaces i s ++ eaPlaces i s [false] := by
  unfold Instr.argumentReads resolverPlaces eaPlaces Instr.address
  cases i.form <;> simp [BusAccess.place]

@[simp] theorem readsIn_nil : readsIn [] = 0 := rfl

@[simp] theorem readsIn_read (a : Word) (l : List BusAccess) : readsIn (.read a :: l) = readsIn l + 1 := rfl

@[simp] theorem readsIn_write (a : Word) (v : Byte) (l : List BusAccess) : readsIn (.write a v :: l) = readsIn l := rfl

@[simp] theorem readsIn_append (x y : List BusAccess) : readsIn (x ++ y) = readsIn x + readsIn y := by
  induction x with
  | nil => simp [readsIn]
  | cons a x ih => cases a <;> simp [readsIn, ih, Nat.add_right_comm]

@[simp] theorem readsIn_pointerReads (am : AddrMode) (s : State) : readsIn (pointerReads am s) = am.reads := by
  cases am <;> rfl

/-- What `exec_argument` says, for Immediate. -/
theorem exec_argument_immediate {i : Instr} {m : Byte} (hf : i.form = .immediate m) {s : State}
    (h : exec i s = .next (i.mnemonic.argumentRule m s)) :
    ∃ m, i.operand s = some m ∧
      exec i s = .next (i.mnemonic.argumentRule m { s with
        answers := s.answers.drop (readsIn (i.argumentReads s))
        bus := s.bus ++ i.argumentReads s }) := by
  refine ⟨m, by simp only [Instr.operand, hf], ?_⟩
  simp only [Instr.argumentReads, hf, List.append_nil, readsIn, List.drop_zero]
  exact h

/-- The same for a mode with an effective address. -/
theorem exec_argument_memory {i : Instr} {am : AddrMode} (hf : i.form = .memory am) {s : State}
    (h : exec i s = .next (argument i.mnemonic.argumentRule am s)) :
    ∃ m, i.operand s = some m ∧
      exec i s = .next (i.mnemonic.argumentRule m { s with
        answers := s.answers.drop (readsIn (i.argumentReads s))
        bus := s.bus ++ i.argumentReads s }) := by
  refine ⟨s.answer am.reads (effAddr am s).1, by simp only [Instr.operand, hf], ?_⟩
  simp only [Instr.argumentReads, hf, readsIn_append, readsIn_pointerReads, readsIn]
  rw [h, argument_eq, List.append_assoc]

/-- An Argument instruction hands its operand byte to its rule, with the reads made on the way recorded. -/
theorem exec_argument {i : Instr} (h : i.mnemonic.category = .argument) (s : State) :
    ∃ m, i.operand s = some m ∧
      exec i s = .next (i.mnemonic.argumentRule m { s with
        answers := s.answers.drop (readsIn (i.argumentReads s))
        bus := s.bus ++ i.argumentReads s }) := by
  cases i <;> first
    | (cases h; done)
    | (refine exec_argument_immediate rfl ?_; rfl)
    | (refine exec_argument_memory rfl ?_; rfl)

/-- A MemoryWrite instruction hands its effective address to its rule. -/
theorem exec_memoryWrite {i : Instr} (h : i.mnemonic.category = .memoryWrite) (s : State) :
    ∃ ea, i.address s = some ea ∧
      exec i s = .next (i.mnemonic.memoryRule ea { s with
        answers := s.answers.drop (readsIn (i.pointers s))
        bus := s.bus ++ i.pointers s }) := by
  have key : ∀ am, i.form = .memory am → exec i s = .next (memoryWrite i.mnemonic.memoryRule am s) →
      ∃ ea, i.address s = some ea ∧
        exec i s = .next (i.mnemonic.memoryRule ea { s with
        answers := s.answers.drop (readsIn (i.pointers s))
        bus := s.bus ++ i.pointers s }) := by
    intro am hf he
    refine ⟨(effAddr am s).1, by simp only [Instr.address, hf], ?_⟩
    simp only [Instr.pointers, hf, readsIn_pointerReads]
    rw [he, memoryWrite_eq]
  cases i <;> first | (cases h; done) | exact key _ rfl rfl

/-- An AccumulatorWrite instruction shifts A, or the byte at its effective address (R156). No mode of these instructions
makes pointer reads. -/
theorem exec_shift {i : Instr} (h : i.mnemonic.category = .accumulatorWrite) (s : State) :
    (i.form = .accumulator ∧ i.mode = .accumulator ∧
      exec i s = .next (shiftAccumulator i.mnemonic.shiftFn s)) ∨
    (∃ am, i.form = .memory am ∧ i.mode ≠ .accumulator ∧ am.reads = 0 ∧ pointerReads am s = [] ∧
      exec i s = .next (shiftMemory i.mnemonic.shiftFn am s)) := by
  cases i <;> first
    | (cases h; done)
    | exact .inl ⟨rfl, rfl, rfl⟩
    | exact .inr ⟨_, rfl, by simp [Instr.mode], rfl, rfl, rfl⟩

/-- `exec` is the dispatch of R82 on the instruction's mnemonic and operand form. -/
theorem exec_eq_execute (i : Instr) (s : State) :
    ∃ t, execute i.mnemonic i.form s = some t ∧ exec i s = .next t := by
  cases i <;> exact ⟨_, rfl, rfl⟩

/-- The dispatch answers for every pair of mnemonic and mode whose category fits (R60, R82). -/
theorem dispatch_isSome {mn : Mnemonic} {md : Mode} (h : mn.category.fits md = true) {ops : List Byte}
    (hl : ops.length = md.operandBytes) (s : State) : ∃ t, dispatch mn md ops s = some t := by
  rcases ops with _ | ⟨x, _ | ⟨y, _ | _⟩⟩ <;> cases md <;> first
    | (cases hl; done)
    | (clear hl; cases mn <;> first | (cases h; done) | exact ⟨_, rfl⟩)

end Sys2Proof
end

