-- ==== Sys2Proof/Laws/Step.lean ====
section
/-! SUPPORT. Laws of the fetch: what `STEP` reads at PC is what `decode` reads in the bytes there
(spec/40_dispatch_and_addressing.md R65 to R67). -/

namespace Sys2Proof

open Machine

/-- What the bus answers to the reads number `k` and on, of `n` bytes from `a` on, addresses modulo 65536. -/
def bytesFrom (s : State) (k : Nat) (a : Word) : Nat → List Byte
  | 0 => []
  | n + 1 => s.answer k a :: bytesFrom s (k + 1) (a + 1) n

theorem bytesFrom_length (s : State) (k : Nat) (a : Word) (n : Nat) : (bytesFrom s k a n).length = n := by
  induction n generalizing k a with
  | zero => rfl
  | succ n ih => simp [bytesFrom, ih]

theorem bytesFrom_take (s : State) (k : Nat) (a : Word) {n j : Nat} (h : n ≤ j) :
    (bytesFrom s k a j).take n = bytesFrom s k a n := by
  induction n generalizing k a j with
  | zero => rfl
  | succ n ih =>
    obtain ⟨j, rfl⟩ : ∃ i, j = i + 1 := ⟨j - 1, by omega⟩
    simp only [bytesFrom, List.take_succ_cons, ih _ _ (Nat.le_of_succ_le_succ h)]

/-- The same bytes, read one answer later. -/
theorem bytesFrom_tail (s : State) (pc : Word) (x : List BusAccess) (k : Nat) (a : Word) (n : Nat) :
    bytesFrom { s with PC := pc, answers := s.answers.tail, bus := x } k a n = bytesFrom s (k + 1) a n := by
  induction n generalizing k a with
  | zero => rfl
  | succ n ih => simp only [bytesFrom, ih, State.answer, busAnswer_tail]

theorem bytesAtPC_eq (s : State) : bytesAtPC s = s.answer 0 s.PC :: bytesFrom s 1 (s.PC + 1) 2 := by
  have h : s.PC + 1#16 + 1#16 = s.PC + 2#16 := by bv_omega
  simp [bytesAtPC, bytesFrom, h]

theorem takeBytes_eq {n : Nat} {bs : List Byte} (h : n ≤ bs.length) :
    takeBytes n bs = some (bs.take n, bs.drop n) := by
  induction n generalizing bs with
  | zero => rfl
  | succ n ih =>
    cases bs with
    | nil => simp at h
    | cons b bs => simp [takeBytes, ih (Nat.le_of_succ_le_succ h)]

/-- PC past one byte and then past `n`. -/
theorem pc_add_succ (pc : Word) (n : Nat) : pc + 1 + BitVec.ofNat 16 n = pc + BitVec.ofNat 16 (1 + n) := by
  rw [BitVec.ofNat_add, BitVec.add_assoc]
  rfl

/-- `n` times `Fetch8()`, whole (R66). -/
theorem fetchBytes_eq (n : Nat) (s : State) :
    fetchBytes n s = (bytesFrom s 0 s.PC n,
      { s with
        PC := s.PC + BitVec.ofNat 16 n
        answers := s.answers.drop n
        bus := s.bus ++ fetchReads s.PC n }) := by
  induction n generalizing s with
  | zero => simp [fetchBytes, bytesFrom, fetchReads]
  | succ n ih =>
    simp only [fetchBytes, fetch8_eq, ih, bytesFrom, fetchReads, pc_add_succ, Nat.add_comm 1 n, bytesFrom_tail,
      List.drop_tail, List.append_assoc, List.singleton_append]

theorem operandBytes_le (m : Mode) : m.operandBytes ≤ 2 := by
  cases m <;> decide

theorem length_bounds (i : Instr) : 1 ≤ i.length ∧ i.length ≤ 3 := by
  have := operandBytes_le i.mode
  unfold Instr.length
  omega

/-- `assemble` answers an instruction of the mnemonic and the mode it is given. -/
theorem assemble_eq_some {mn : Mnemonic} {md : Mode} {ops : List Byte} {i : Instr} (h : assemble mn md ops = some i) :
    i.mnemonic = mn ∧ i.mode = md := by
  unfold assemble at h
  split at h <;> cases mn <;> cases h <;> exact ⟨rfl, rfl⟩

/-- Fetching at an opcode that has an entry reads the entry's operand bytes (R65 to R67). -/
theorem fetchInstr_of_lookup {om : OpcodeMap} {s : State} {e : DecodeEntry}
    (h : om.lookup (s.answer 0 s.PC) = some e) :
    fetchInstr om s =
      let ops := bytesFrom s 1 (s.PC + 1) e.mode.operandBytes
      let n := 1 + e.mode.operandBytes
      let t := { s with
        PC := s.PC + BitVec.ofNat 16 n
        answers := s.answers.drop n
        bus := s.bus ++ fetchReads s.PC n }
      match assemble e.mnemonic e.mode ops with
      | some i => .instr i e.cycles t
      | none => .entry e ops t := by
  cases ha : assemble e.mnemonic e.mode (bytesFrom s 1 (s.PC + 1) e.mode.operandBytes) <;>
    simp only [fetchInstr, fetch8_eq, h, fetchBytes_eq, pc_add_succ, bytesFrom_tail, List.drop_tail,
      List.append_assoc, List.singleton_append, Nat.add_comm 1, Nat.zero_add, fetchReads, ha]

/-- Fetching at PC gives what `decode` gives on the bytes there, and the state in which `Execute` starts (R65 to R67). -/
theorem fetchInstr_of_decode {om : OpcodeMap} {s : State} {i : Instr} {rest : List Byte}
    (h : om.decode (bytesAtPC s) = .instr i rest) :
    ∃ e, om.lookup (s.answer 0 s.PC) = some e ∧ e.mnemonic = i.mnemonic ∧ e.mode = i.mode ∧
      fetchInstr om s = .instr i e.cycles
        { s with
          PC := s.PC + BitVec.ofNat 16 i.length
          answers := s.answers.drop i.length
          bus := s.bus ++ fetchReads s.PC i.length } := by
  obtain ⟨op, e, ops, h1, h2, h3, h4⟩ := OpcodeMap.decode_eq_instr h
  obtain ⟨hmn, hmd⟩ := assemble_eq_some h2
  rw [bytesAtPC_eq, List.cons.injEq] at h4
  obtain ⟨rfl, h4⟩ := h4
  have hops : bytesFrom s 1 (s.PC + 1) e.mode.operandBytes = ops := by
    rw [← bytesFrom_take _ _ _ (operandBytes_le e.mode), h4, ← h3, List.take_left]
  refine ⟨e, h1, hmn.symm, hmd.symm, ?_⟩
  simp only [fetchInstr_of_lookup h1, hops, h2, Instr.length, hmd]

/-- With an opcode that has no entry, the fetch reads one byte (R166). -/
theorem fetchInstr_of_unofficial {om : OpcodeMap} {s : State} (h : om.lookup (s.answer 0 s.PC) = none) :
    fetchInstr om s = .unofficial (s.answer 0 s.PC) s.PC
      { s with PC := s.PC + 1, answers := s.answers.tail, bus := s.bus ++ [.read s.PC] } := by
  simp only [fetchInstr, fetch8_eq, h]

/-- Whether `assemble` answers does not depend on the operand bytes. -/
theorem assemble_isSome {mn : Mnemonic} {md : Mode} {ops : List Byte} (h : ops.length = md.operandBytes)
    (hs : (assemble mn md (List.replicate md.operandBytes 0)).isSome = true) : ∃ i, assemble mn md ops = some i := by
  rcases ops with _ | ⟨x, _ | ⟨y, _ | _⟩⟩ <;> cases md <;> first
    | (cases h; done)
    | (clear h; cases mn <;> first | (cases hs; done) | exact ⟨_, rfl⟩)

theorem rows_assemble : opcodeTable.all
    (fun e => (assemble e.mnemonic e.mode (List.replicate e.mode.operandBytes 0)).isSome) = true := by
  decide +kernel

/-- Every row of the table names an instruction, whatever its operand bytes (R60). -/
theorem assemble_row {e : DecodeEntry} (he : e ∈ opcodeTable) {ops : List Byte}
    (h : ops.length = e.mode.operandBytes) : ∃ i, assemble e.mnemonic e.mode ops = some i :=
  assemble_isSome h (List.all_eq_true.mp rows_assemble e he)

/-- The bytes at PC are an instruction, or the opcode there has no entry. -/
theorem decodes_or_unofficial (s : State) :
    (∃ i rest, decode (bytesAtPC s) = .instr i rest) ∨ lookup (s.answer 0 s.PC) = none := by
  cases h : lookup (s.answer 0 s.PC) with
  | none => exact .inr rfl
  | some e =>
    have hle := operandBytes_le e.mode
    obtain ⟨i, hi⟩ := assemble_row (lookup_eq_some h).1 (bytesFrom_length s 1 (s.PC + 1) e.mode.operandBytes)
    refine .inl ⟨i, (bytesFrom s 1 (s.PC + 1) 2).drop e.mode.operandBytes, ?_⟩
    have h' : Config.opcodeMap.lookup (s.answer 0 s.PC) = some e := h
    rw [bytesAtPC_eq]
    simp only [decode, OpcodeMap.decode, h', takeBytes_eq (hle.trans_eq (bytesFrom_length _ _ _ _).symm),
      bytesFrom_take _ _ _ hle, hi]

/-- What `assemble` answers has the operand form of its mode and operand bytes (R53, R68). -/
theorem assemble_form {mn : Mnemonic} {md : Mode} {ops : List Byte} {i : Instr} (h : assemble mn md ops = some i) :
    operandForm md ops = some i.form := by
  unfold assemble at h
  split at h <;> cases mn <;> cases h <;> rfl

/-- An instruction that `assemble` answers does what the dispatch does on its entry (R82). -/
theorem exec_eq_dispatch {mn : Mnemonic} {md : Mode} {ops : List Byte} {i : Instr} (h : assemble mn md ops = some i)
    (s : State) : ∃ t, dispatch mn md ops s = some t ∧ exec i s = .next t := by
  obtain ⟨t, h1, h2⟩ := exec_eq_execute i s
  refine ⟨t, ?_, h2⟩
  rw [(assemble_eq_some h).1] at h1
  simp only [dispatch, assemble_form h, h1]

end Sys2Proof
end

