-- ==== Sys2Proof/Laws/Bus.lean ====
section
/-! SUPPORT. Laws of the bus as a parameter (spec/20_memory.md R30, R44): an operation that is built from single reads and
writes can be run on any bus, in exactly one way. -/

namespace Sys2Proof

open Machine

variable {α β : Type}

theorem serve_append {σ : Type} (b : Bus σ) (q : σ) (x y : List BusAccess) :
    b.serve q (x ++ y) =
      ((b.serve q x).1 ++ (b.serve (b.serve q x).2 y).1, (b.serve (b.serve q x).2 y).2) := by
  induction x generalizing q with
  | nil => rfl
  | cons a x ih => cases a <;> simp [Bus.serve, ih]

/-- From `s`, `f` answers `x` and goes to `t`, whatever other answers follow, when the bus answers `l`; it makes the
accesses `acc`. -/
def RunsAs (f : State → α × State) (s : State) (l : List Byte) (x : α) (t : State) (acc : List BusAccess) : Prop :=
  t.bus = s.bus ++ acc ∧
    ∀ rest, f { s with answers := l.map some ++ rest } = (x, { t with answers := rest })

/-- `f` from `s` can be run on any bus, in exactly one way, and on the flat RAM that is the run with no answers given. -/
structure Serves (f : State → α × State) (s : State) : Prop where
  adds : ∀ a, ∃ acc, (f { s with answers := a }).2.bus = s.bus ++ acc
  any : ∀ (σ : Type) (b : Bus σ) (q : σ), ∃ l x t acc, RunsAs f s l x t acc ∧ (b.serve q acc).1 = l ∧
    ∀ l' rest acc', (f { s with answers := l'.map some ++ rest }).2.bus = s.bus ++ acc' →
      (b.serve q acc').1 = l' → l' = l
  ram : ∃ l x t acc, RunsAs f s l x t acc ∧ flatRam.serve s.mem acc = (l, t.mem) ∧
    f { s with answers := [] } = (x, { t with answers := [] })

/-- A change of the state that neither uses the bus nor changes what is behind it. -/
theorem serves_pure {f : State → α × State} {s t : State} {x : α} (hb : t.bus = s.bus) (hm : t.mem = s.mem)
    (h : ∀ a, f { s with answers := a } = (x, { t with answers := a })) : Serves f s where
  adds a := ⟨[], by rw [h]; simp [hb]⟩
  any σ b q := by
    refine ⟨[], x, t, [], ⟨by simp [hb], fun rest => h _⟩, rfl, ?_⟩
    intro l' rest acc' h1 h2
    rw [h] at h1
    have h1 : acc' = [] := List.append_cancel_left (h1.symm.trans (hb.trans (List.append_nil _).symm))
    subst h1
    exact h2.symm
  ram := ⟨[], x, t, [], ⟨by simp [hb], fun rest => h _⟩, by simp [Bus.serve, hm], h _⟩

/-- The same, with nothing answered. -/
theorem serves_update {g : State → State} {s : State} (hb : (g s).bus = s.bus) (hm : (g s).mem = s.mem)
    (h : ∀ a, g { s with answers := a } = { g s with answers := a }) : Serves (fun u => ((), g u)) s :=
  serves_pure hb hm (fun a => by rw [h])

theorem serves_read (a : Word) (s : State) : Serves (memRead a) s where
  adds l := ⟨[.read a], rfl⟩
  any σ b q := by
    refine ⟨[(b.read q a).1], _, { s with bus := s.bus ++ [.read a] }, [.read a], ⟨rfl, fun rest => rfl⟩, rfl, ?_⟩
    intro l' rest acc' h1 h2
    have h1 := List.append_cancel_left h1
    subst h1
    exact h2.symm
  ram := ⟨[Memory.get s.mem a.toNat], _, { s with bus := s.bus ++ [.read a] }, [.read a], ⟨rfl, fun rest => rfl⟩, rfl,
    rfl⟩

theorem serves_write (a : Word) (v : Byte) (s : State) : Serves (fun u => ((), memWrite a v u)) s where
  adds l := ⟨[.write a v], rfl⟩
  any σ b q := by
    refine ⟨[], (), memWrite a v s, [.write a v], ⟨rfl, fun rest => rfl⟩, rfl, ?_⟩
    intro l' rest acc' h1 h2
    have h1 := List.append_cancel_left h1
    subst h1
    exact h2.symm
  ram := ⟨[], (), memWrite a v s, [.write a v], ⟨rfl, fun rest => rfl⟩, rfl, rfl⟩

/-- One operation after another. -/
theorem serves_bind {f : State → α × State} {g : α → State → β × State} {s : State} (hf : Serves f s)
    (hg : ∀ x t, Serves (g x) t) : Serves (fun u => g (f u).1 (f u).2) s := by
  have adds : ∀ a, ∃ acc acc', (f { s with answers := a }).2.bus = s.bus ++ acc ∧
      (g (f { s with answers := a }).1 (f { s with answers := a }).2).2.bus = s.bus ++ acc ++ acc' := by
    intro a
    obtain ⟨acc, h⟩ := hf.adds a
    obtain ⟨acc', h'⟩ := (hg (f { s with answers := a }).1 (f { s with answers := a }).2).adds
      (f { s with answers := a }).2.answers
    exact ⟨acc, acc', h, by rw [← h]; exact h'⟩
  refine ⟨fun a => ?_, fun σ b q => ?_, ?_⟩
  · obtain ⟨acc, acc', _, h⟩ := adds a
    exact ⟨acc ++ acc', by rw [h, List.append_assoc]⟩
  · obtain ⟨l, x, t, acc, ⟨hb, hr⟩, hl, hu⟩ := hf.any σ b q
    obtain ⟨l₂, y, u, acc₂, ⟨hb₂, hr₂⟩, hl₂, hu₂⟩ := (hg x t).any σ b (b.serve q acc).2
    refine ⟨l ++ l₂, y, u, acc ++ acc₂, ⟨by rw [hb₂, hb, List.append_assoc], fun rest => ?_⟩, ?_, ?_⟩
    · simp only [List.map_append, List.append_assoc, hr, hr₂]
    · rw [serve_append, hl, hl₂]
    · intro l' rest acc' h1 h2
      obtain ⟨k, k', e, e'⟩ := adds (l'.map some ++ rest)
      rw [e', List.append_assoc] at h1
      have h1 := (List.append_cancel_left h1).symm
      subst h1
      rw [serve_append] at h2
      subst h2
      simp only [List.map_append, List.append_assoc] at e e'
      have hl' := hu _ _ k e rfl
      simp only [hl'] at e e' ⊢
      simp only [hr] at e e'
      have hk : k = acc := List.append_cancel_left (e.symm.trans hb)
      subst hk
      rw [← List.append_assoc, ← hb] at e'
      rw [hu₂ _ _ k' e' rfl]
  · obtain ⟨l, x, t, acc, ⟨hb, hr⟩, hl, h0⟩ := hf.ram
    obtain ⟨l₂, y, u, acc₂, ⟨hb₂, hr₂⟩, hl₂, h0₂⟩ := (hg x t).ram
    refine ⟨l ++ l₂, y, u, acc ++ acc₂, ⟨by rw [hb₂, hb, List.append_assoc], fun rest => ?_⟩, ?_, ?_⟩
    · simp only [List.map_append, List.append_assoc, hr, hr₂]
    · rw [serve_append, hl, hl₂]
    · simp only [h0, h0₂]

/-- An operation that looks at the registers first. -/
theorem serves_look {γ : Type} {p : State → γ} {f : γ → State → α × State} {s : State}
    (hp : ∀ a, p { s with answers := a } = p s) (hf : Serves (f (p s)) s) : Serves (fun u => f (p u) u) s := by
  refine ⟨fun a => ?_, fun σ b q => ?_, ?_⟩
  · simp only [hp]; exact hf.adds a
  · obtain ⟨l, x, t, acc, ⟨hb, hr⟩, hl, hu⟩ := hf.any σ b q
    exact ⟨l, x, t, acc, ⟨hb, fun rest => by simp only [hp, hr]⟩, hl,
      fun l' rest acc' => by simp only [hp]; exact hu l' rest acc'⟩
  · obtain ⟨l, x, t, acc, ⟨hb, hr⟩, hl, h0⟩ := hf.ram
    exact ⟨l, x, t, acc, ⟨hb, fun rest => by simp only [hp, hr]⟩, hl, by simp only [hp, h0]⟩

/-- A change of the state after an operation, one that neither uses the bus nor changes what is behind it. -/
theorem serves_then {f : State → α × State} {g : α → State → State} {s : State} (hf : Serves f s)
    (hb : ∀ x t, (g x t).bus = t.bus) (hm : ∀ x t, (g x t).mem = t.mem)
    (h : ∀ x t a, g x { t with answers := a } = { g x t with answers := a }) :
    Serves (fun u => ((), g (f u).1 (f u).2)) s :=
  serves_bind (g := fun x t => ((), g x t)) hf
    (fun x t => serves_pure (hb x t) (hm x t) (fun a => by rw [h]))

theorem serves_fetch8 (s : State) : Serves fetch8 s :=
  serves_look (p := State.PC) (f := fun a u => ((memRead a u).1, { (memRead a u).2 with PC := (memRead a u).2.PC + 1 }))
    (fun _ => rfl)
    (serves_bind (g := fun x t => (x, { t with PC := t.PC + 1 })) (serves_read _ s)
      (fun _ t => serves_pure (t := { t with PC := t.PC + 1 }) rfl rfl (fun _ => rfl)))

theorem serves_fetchBytes (n : Nat) (s : State) : Serves (fetchBytes n) s := by
  induction n generalizing s with
  | zero => exact serves_pure rfl rfl (fun _ => rfl)
  | succ n ih =>
    exact serves_bind (g := fun x u => (x :: (fetchBytes n u).1, (fetchBytes n u).2)) (serves_fetch8 s)
      (fun x t => serves_bind (g := fun y u => (x :: y, u)) (ih t) (fun _ _ => serves_pure rfl rfl (fun _ => rfl)))

/-- Two reads, the second at an address that does not depend on the first. -/
theorem serves_read2 (a b : Word) (s : State) :
    Serves (fun u => (mkWord (memRead b (memRead a u).2).1 (memRead a u).1, (memRead b (memRead a u).2).2)) s :=
  serves_bind (g := fun x u => (mkWord (memRead b u).1 x, (memRead b u).2)) (serves_read a s)
    (fun x t => serves_bind (g := fun y u => (mkWord y x, u)) (serves_read b t)
      (fun _ _ => serves_pure rfl rfl (fun _ => rfl)))

theorem serves_read16 (a : Word) (s : State) : Serves (read16 a) s := serves_read2 _ _ s
theorem serves_read16ZP (z : Byte) (s : State) : Serves (read16ZP z) s := serves_read2 _ _ s
theorem serves_read16Bug (a : Word) (s : State) : Serves (read16Bug a) s := serves_read2 _ _ s

theorem serves_pop8 (s : State) : Serves pop8 s :=
  serves_bind (f := fun u => ((), { u with S := u.S + 1 })) (g := fun _ u => memRead (stackAddr u.S) u)
    (serves_pure (t := { s with S := s.S + 1 }) rfl rfl (fun _ => rfl))
    (fun _ t => serves_look (p := fun u => stackAddr u.S) (f := memRead) (fun _ => rfl) (serves_read _ t))

theorem serves_pop16 (s : State) : Serves pop16 s :=
  serves_bind (g := fun x u => (mkWord (pop8 u).1 x, (pop8 u).2)) (serves_pop8 s)
    (fun x t => serves_bind (g := fun y u => (mkWord y x, u)) (serves_pop8 t)
      (fun _ _ => serves_pure rfl rfl (fun _ => rfl)))

theorem serves_push8 (v : Byte) (s : State) : Serves (fun u => ((), push8 v u)) s :=
  serves_look (p := fun u => stackAddr u.S) (f := fun a u => ((), { memWrite a v u with S := (memWrite a v u).S - 1 }))
    (fun _ => rfl)
    (serves_then (g := fun _ t => { t with S := t.S - 1 }) (serves_write _ v s) (fun _ _ => rfl) (fun _ _ => rfl)
      (fun _ _ _ => rfl))

theorem serves_push16 (w : Word) (s : State) : Serves (fun u => ((), push16 w u)) s :=
  serves_bind (g := fun _ u => ((), push8 (loByte w) u)) (serves_push8 (hiByte w) s) (fun _ t => serves_push8 _ t)

theorem serves_jumpThrough (v : Word) (s : State) : Serves (fun u => ((), jumpThrough v u)) s :=
  serves_then (g := fun x t => { t with PC := x }) (serves_read16 v s) (fun _ _ => rfl) (fun _ _ => rfl)
    (fun _ _ _ => rfl)

theorem serves_takeTrap (b m : Bool) (v : Word) (s : State) : Serves (fun u => ((), takeTrap b m v u)) s :=
  serves_bind (f := fun u => ((), push16 u.PC u))
    (g := fun _ u => ((), jumpThrough v (push8 (u.trapFlags b m).readP (u.trapFlags b m))))
    (serves_look (p := State.PC) (f := fun w u => ((), push16 w u)) (fun _ => rfl) (serves_push16 _ s))
    (fun _ t => serves_bind (f := fun u => ((), push8 (u.trapFlags b m).readP (u.trapFlags b m)))
      (g := fun _ u => ((), jumpThrough v u))
      (serves_bind (f := fun u => ((), u.trapFlags b m)) (g := fun _ u => ((), push8 u.readP u))
        (serves_pure (t := t.trapFlags b m) (by cases m <;> rfl) (by cases m <;> rfl) (fun _ => by cases m <;> rfl))
        (fun _ t => serves_look (p := State.readP) (f := fun v u => ((), push8 v u)) (fun _ => rfl) (serves_push8 _ t)))
      (fun _ t => serves_jumpThrough v t))

theorem serves_returnFromTrap (s : State) : Serves (fun u => ((), returnFromTrap u)) s :=
  serves_bind (g := fun x u => ((), { (pop16 (u.writeP x)).2 with PC := (pop16 (u.writeP x)).1 })) (serves_pop8 s)
    (fun x t => serves_bind (f := fun u => ((), u.writeP x)) (g := fun _ u => ((), { (pop16 u).2 with PC := (pop16 u).1 }))
      (serves_pure (t := t.writeP x) rfl rfl (fun _ => rfl))
      (fun _ t => serves_then (g := fun w u => { u with PC := w }) (serves_pop16 t) (fun _ _ => rfl) (fun _ _ => rfl)
        (fun _ _ _ => rfl)))

theorem serves_effAddr (am : AddrMode) (s : State) : Serves (effAddr am) s := by
  cases am with
  | zeroPage z => exact serves_pure (x := (effAddr (.zeroPage z) s).1) (t := s) rfl rfl (fun _ => rfl)
  | zeroPageX z => exact serves_pure (x := (effAddr (.zeroPageX z) s).1) (t := s) rfl rfl (fun _ => rfl)
  | zeroPageY z => exact serves_pure (x := (effAddr (.zeroPageY z) s).1) (t := s) rfl rfl (fun _ => rfl)
  | absolute w => exact serves_pure (x := (effAddr (.absolute w) s).1) (t := s) rfl rfl (fun _ => rfl)
  | absoluteX w => exact serves_pure (x := (effAddr (.absoluteX w) s).1) (t := s) rfl rfl (fun _ => rfl)
  | absoluteY w => exact serves_pure (x := (effAddr (.absoluteY w) s).1) (t := s) rfl rfl (fun _ => rfl)
  | indirect w => exact serves_read16Bug w s
  | indirectX z => exact serves_look (p := fun u => z + u.X) (f := read16ZP) (fun _ => rfl) (serves_read16ZP _ s)
  | indirectY z =>
    exact serves_bind (g := fun x u => (x + zext16 u.Y, u)) (serves_read16ZP z s)
      (fun x t => serves_pure (x := x + zext16 t.Y) (t := t) rfl rfl (fun _ => rfl))

/-- Every Command rule. -/
theorem serves_command (mn : Mnemonic) (s : State) : Serves (fun u => ((), mn.commandRule u)) s := by
  cases mn with
  | pha => exact serves_look (p := State.A) (f := fun v u => ((), push8 v u)) (fun _ => rfl) (serves_push8 _ s)
  | php => exact serves_look (p := State.readP) (f := fun v u => ((), push8 v u)) (fun _ => rfl) (serves_push8 _ s)
  | pla => exact serves_then (g := loadA) (serves_pop8 s) (fun _ _ => rfl) (fun _ _ => rfl) (fun _ _ _ => rfl)
  | plp =>
    exact serves_then (g := fun v u => u.writeP v) (serves_pop8 s) (fun _ _ => rfl) (fun _ _ => rfl) (fun _ _ _ => rfl)
  | brk => exact serves_takeTrap _ _ _ s
  | rti => exact serves_returnFromTrap s
  | rts =>
    exact serves_then (g := fun w u => { u with PC := w + 1 }) (serves_pop16 s) (fun _ _ => rfl) (fun _ _ => rfl)
      (fun _ _ _ => rfl)
  | _ => exact serves_update rfl rfl (fun _ => rfl)

/-- Every MemoryWrite rule. -/
theorem serves_memoryRule (mn : Mnemonic) (ea : Word) (s : State) : Serves (fun u => ((), mn.memoryRule ea u)) s := by
  have count : ∀ f : Byte → Byte,
      Serves (fun u => ((), (memWrite ea (f (memRead ea u).1) (memRead ea u).2).setNZ (f (memRead ea u).1))) s :=
    fun f => serves_bind (g := fun x u => ((), (memWrite ea (f x) u).setNZ (f x))) (serves_read ea s)
      (fun x t => serves_then (g := fun _ u => u.setNZ (f x)) (serves_write ea (f x) t) (fun _ _ => rfl) (fun _ _ => rfl)
        (fun _ _ _ => rfl))
  cases mn with
  | jsr =>
    exact serves_then (f := fun u => ((), push16 (u.PC - 1) u)) (g := fun _ u => { u with PC := ea })
      (serves_look (p := fun u => u.PC - 1) (f := fun w u => ((), push16 w u)) (fun _ => rfl) (serves_push16 _ s))
      (fun _ _ => rfl) (fun _ _ => rfl) (fun _ _ _ => rfl)
  | inc => exact count (fun v => v + 1)
  | dec => exact count (fun v => v - 1)
  | sta => exact serves_look (p := State.A) (f := fun v u => ((), memWrite ea v u)) (fun _ => rfl) (serves_write ea _ s)
  | stx => exact serves_look (p := State.X) (f := fun v u => ((), memWrite ea v u)) (fun _ => rfl) (serves_write ea _ s)
  | sty => exact serves_look (p := State.Y) (f := fun v u => ((), memWrite ea v u)) (fun _ => rfl) (serves_write ea _ s)
  | _ => exact serves_update rfl rfl (fun _ => rfl)

/-- Every Argument rule. -/
theorem serves_argumentRule (mn : Mnemonic) (m : Byte) (s : State) :
    Serves (fun u => ((), mn.argumentRule m u)) s :=
  serves_update (by cases mn <;> rfl) (by cases mn <;> rfl) (fun _ => by cases mn <;> rfl)

/-- Category Argument, whatever the mnemonic. -/
theorem serves_argument (mn : Mnemonic) (am : AddrMode) (s : State) :
    Serves (fun u => ((), argument mn.argumentRule am u)) s :=
  serves_bind (g := fun ea u => ((), mn.argumentRule (memRead ea u).1 (memRead ea u).2)) (serves_effAddr am s)
    (fun ea t => serves_bind (serves_read ea t) (fun m t => serves_argumentRule mn m t))

/-- Category AccumulatorWrite with an address, whatever the function. -/
theorem serves_shiftMemory (f : Byte → Bool → Byte × Bool) (am : AddrMode) (s : State) :
    Serves (fun u => ((), shiftMemory f am u)) s :=
  serves_bind (g := fun ea u => ((), memWrite ea (f (memRead ea u).1 ((memRead ea u).2.flag .c)).1
      (((memRead ea u).2.setFlag .c (f (memRead ea u).1 ((memRead ea u).2.flag .c)).2).setNZ
        (f (memRead ea u).1 ((memRead ea u).2.flag .c)).1))) (serves_effAddr am s)
    (fun ea t => serves_bind (g := fun x u => ((), memWrite ea (f x (u.flag .c)).1
        ((u.setFlag .c (f x (u.flag .c)).2).setNZ (f x (u.flag .c)).1))) (serves_read ea t)
      (fun x t => serves_look (p := fun u => f x (u.flag .c))
        (f := fun r u => ((), memWrite ea r.1 ((u.setFlag .c r.2).setNZ r.1))) (fun _ => rfl)
        (serves_bind (f := fun u => ((), (u.setFlag .c (f x (t.flag .c)).2).setNZ (f x (t.flag .c)).1))
          (g := fun _ u => ((), memWrite ea (f x (t.flag .c)).1 u))
          (serves_pure (t := (t.setFlag .c (f x (t.flag .c)).2).setNZ (f x (t.flag .c)).1) rfl rfl (fun _ => rfl))
          (fun _ t => serves_write ea _ t))))

/-- Category Branch, whatever the mnemonic. -/
theorem serves_branch (mn : Mnemonic) (d : Byte) (s : State) :
    Serves (fun u => ((), ((branchTaken mn u.P).map (fun c => branchIf c d u)).getD u)) s := by
  refine serves_look (p := fun u => branchTaken mn u.P) (f := fun o u => ((), (o.map (fun c => branchIf c d u)).getD u))
    (fun _ => rfl) ?_
  rcases branchTaken mn s.P with _ | _ | _ <;> exact serves_update rfl rfl (fun _ => rfl)

/-- The category dispatch, whatever the mnemonic and the kind of operand (R82). -/
theorem serves_execute (mn : Mnemonic) (f : OperandForm) (s : State) :
    Serves (fun u => ((), (execute mn f u).getD u)) s := by
  unfold execute
  cases mn.category <;> cases f
  case command.none => exact serves_command mn s
  case branch.relative d => exact serves_branch mn d s
  case argument.immediate m => exact serves_argumentRule mn m s
  case argument.memory am => exact serves_argument mn am s
  case memoryWrite.memory am => exact serves_bind (serves_effAddr am s) (fun ea t => serves_memoryRule mn ea t)
  case accumulatorWrite.accumulator => exact serves_update rfl rfl (fun _ => rfl)
  case accumulatorWrite.memory am => exact serves_shiftMemory _ am s
  all_goals exact serves_update (g := id) rfl rfl (fun _ => rfl)

end Sys2Proof
end

