-- ==== Sys2Proof/Laws/PerInstr.lean ====
section
/-! SUPPORT. Laws made per instruction: one lemma per constructor of Instr. -/

namespace Sys2Proof

/-- Decoding the bytes of an instruction gives it back, whatever bytes follow, and its length is the one its mode has
(spec/30_encoding.md R50 to R53). -/
def Laws.RoundTrip.Statement (i : Instr) : Prop :=
  (∀ rest, decode (encode i ++ rest) = .instr i rest) ∧ (encode i).length = i.length

theorem Laws.RoundTrip.clc : Laws.RoundTrip.Statement .clc := ⟨fun _ => rfl, rfl⟩
theorem Laws.RoundTrip.cld : Laws.RoundTrip.Statement .cld := ⟨fun _ => rfl, rfl⟩
theorem Laws.RoundTrip.cli : Laws.RoundTrip.Statement .cli := ⟨fun _ => rfl, rfl⟩
theorem Laws.RoundTrip.clv : Laws.RoundTrip.Statement .clv := ⟨fun _ => rfl, rfl⟩
theorem Laws.RoundTrip.sec : Laws.RoundTrip.Statement .sec := ⟨fun _ => rfl, rfl⟩
theorem Laws.RoundTrip.sed : Laws.RoundTrip.Statement .sed := ⟨fun _ => rfl, rfl⟩
theorem Laws.RoundTrip.sei : Laws.RoundTrip.Statement .sei := ⟨fun _ => rfl, rfl⟩
theorem Laws.RoundTrip.dex : Laws.RoundTrip.Statement .dex := ⟨fun _ => rfl, rfl⟩
theorem Laws.RoundTrip.dey : Laws.RoundTrip.Statement .dey := ⟨fun _ => rfl, rfl⟩
theorem Laws.RoundTrip.inx : Laws.RoundTrip.Statement .inx := ⟨fun _ => rfl, rfl⟩
theorem Laws.RoundTrip.iny : Laws.RoundTrip.Statement .iny := ⟨fun _ => rfl, rfl⟩
theorem Laws.RoundTrip.tax : Laws.RoundTrip.Statement .tax := ⟨fun _ => rfl, rfl⟩
theorem Laws.RoundTrip.tay : Laws.RoundTrip.Statement .tay := ⟨fun _ => rfl, rfl⟩
theorem Laws.RoundTrip.txa : Laws.RoundTrip.Statement .txa := ⟨fun _ => rfl, rfl⟩
theorem Laws.RoundTrip.tya : Laws.RoundTrip.Statement .tya := ⟨fun _ => rfl, rfl⟩
theorem Laws.RoundTrip.tsx : Laws.RoundTrip.Statement .tsx := ⟨fun _ => rfl, rfl⟩
theorem Laws.RoundTrip.txs : Laws.RoundTrip.Statement .txs := ⟨fun _ => rfl, rfl⟩
theorem Laws.RoundTrip.nop : Laws.RoundTrip.Statement .nop := ⟨fun _ => rfl, rfl⟩
theorem Laws.RoundTrip.pha : Laws.RoundTrip.Statement .pha := ⟨fun _ => rfl, rfl⟩
theorem Laws.RoundTrip.php : Laws.RoundTrip.Statement .php := ⟨fun _ => rfl, rfl⟩
theorem Laws.RoundTrip.pla : Laws.RoundTrip.Statement .pla := ⟨fun _ => rfl, rfl⟩
theorem Laws.RoundTrip.plp : Laws.RoundTrip.Statement .plp := ⟨fun _ => rfl, rfl⟩
theorem Laws.RoundTrip.brk : Laws.RoundTrip.Statement .brk := ⟨fun _ => rfl, rfl⟩
theorem Laws.RoundTrip.rti : Laws.RoundTrip.Statement .rti := ⟨fun _ => rfl, rfl⟩
theorem Laws.RoundTrip.rts : Laws.RoundTrip.Statement .rts := ⟨fun _ => rfl, rfl⟩
theorem Laws.RoundTrip.bcc (d : Byte) : Laws.RoundTrip.Statement (.bcc d) := ⟨fun _ => rfl, rfl⟩
theorem Laws.RoundTrip.bcs (d : Byte) : Laws.RoundTrip.Statement (.bcs d) := ⟨fun _ => rfl, rfl⟩
theorem Laws.RoundTrip.bne (d : Byte) : Laws.RoundTrip.Statement (.bne d) := ⟨fun _ => rfl, rfl⟩
theorem Laws.RoundTrip.beq (d : Byte) : Laws.RoundTrip.Statement (.beq d) := ⟨fun _ => rfl, rfl⟩
theorem Laws.RoundTrip.bpl (d : Byte) : Laws.RoundTrip.Statement (.bpl d) := ⟨fun _ => rfl, rfl⟩
theorem Laws.RoundTrip.bmi (d : Byte) : Laws.RoundTrip.Statement (.bmi d) := ⟨fun _ => rfl, rfl⟩
theorem Laws.RoundTrip.bvc (d : Byte) : Laws.RoundTrip.Statement (.bvc d) := ⟨fun _ => rfl, rfl⟩
theorem Laws.RoundTrip.bvs (d : Byte) : Laws.RoundTrip.Statement (.bvs d) := ⟨fun _ => rfl, rfl⟩
theorem Laws.RoundTrip.adcImm (m : Byte) : Laws.RoundTrip.Statement (.adcImm m) := ⟨fun _ => rfl, rfl⟩
theorem Laws.RoundTrip.adcZp (z : Byte) : Laws.RoundTrip.Statement (.adcZp z) := ⟨fun _ => rfl, rfl⟩
theorem Laws.RoundTrip.adcZpx (z : Byte) : Laws.RoundTrip.Statement (.adcZpx z) := ⟨fun _ => rfl, rfl⟩
theorem Laws.RoundTrip.adcAbs (w : Word) : Laws.RoundTrip.Statement (.adcAbs w) := ⟨fun rest => congrArg (fun w => Decoded.instr (.adcAbs w) rest) (mkWord_hiByte_loByte w), rfl⟩
theorem Laws.RoundTrip.adcAbx (w : Word) : Laws.RoundTrip.Statement (.adcAbx w) := ⟨fun rest => congrArg (fun w => Decoded.instr (.adcAbx w) rest) (mkWord_hiByte_loByte w), rfl⟩
theorem Laws.RoundTrip.adcAby (w : Word) : Laws.RoundTrip.Statement (.adcAby w) := ⟨fun rest => congrArg (fun w => Decoded.instr (.adcAby w) rest) (mkWord_hiByte_loByte w), rfl⟩
theorem Laws.RoundTrip.adcIzx (z : Byte) : Laws.RoundTrip.Statement (.adcIzx z) := ⟨fun _ => rfl, rfl⟩
theorem Laws.RoundTrip.adcIzy (z : Byte) : Laws.RoundTrip.Statement (.adcIzy z) := ⟨fun _ => rfl, rfl⟩
theorem Laws.RoundTrip.sbcImm (m : Byte) : Laws.RoundTrip.Statement (.sbcImm m) := ⟨fun _ => rfl, rfl⟩
theorem Laws.RoundTrip.sbcZp (z : Byte) : Laws.RoundTrip.Statement (.sbcZp z) := ⟨fun _ => rfl, rfl⟩
theorem Laws.RoundTrip.sbcZpx (z : Byte) : Laws.RoundTrip.Statement (.sbcZpx z) := ⟨fun _ => rfl, rfl⟩
theorem Laws.RoundTrip.sbcAbs (w : Word) : Laws.RoundTrip.Statement (.sbcAbs w) := ⟨fun rest => congrArg (fun w => Decoded.instr (.sbcAbs w) rest) (mkWord_hiByte_loByte w), rfl⟩
theorem Laws.RoundTrip.sbcAbx (w : Word) : Laws.RoundTrip.Statement (.sbcAbx w) := ⟨fun rest => congrArg (fun w => Decoded.instr (.sbcAbx w) rest) (mkWord_hiByte_loByte w), rfl⟩
theorem Laws.RoundTrip.sbcAby (w : Word) : Laws.RoundTrip.Statement (.sbcAby w) := ⟨fun rest => congrArg (fun w => Decoded.instr (.sbcAby w) rest) (mkWord_hiByte_loByte w), rfl⟩
theorem Laws.RoundTrip.sbcIzx (z : Byte) : Laws.RoundTrip.Statement (.sbcIzx z) := ⟨fun _ => rfl, rfl⟩
theorem Laws.RoundTrip.sbcIzy (z : Byte) : Laws.RoundTrip.Statement (.sbcIzy z) := ⟨fun _ => rfl, rfl⟩
theorem Laws.RoundTrip.andImm (m : Byte) : Laws.RoundTrip.Statement (.andImm m) := ⟨fun _ => rfl, rfl⟩
theorem Laws.RoundTrip.andZp (z : Byte) : Laws.RoundTrip.Statement (.andZp z) := ⟨fun _ => rfl, rfl⟩
theorem Laws.RoundTrip.andZpx (z : Byte) : Laws.RoundTrip.Statement (.andZpx z) := ⟨fun _ => rfl, rfl⟩
theorem Laws.RoundTrip.andAbs (w : Word) : Laws.RoundTrip.Statement (.andAbs w) := ⟨fun rest => congrArg (fun w => Decoded.instr (.andAbs w) rest) (mkWord_hiByte_loByte w), rfl⟩
theorem Laws.RoundTrip.andAbx (w : Word) : Laws.RoundTrip.Statement (.andAbx w) := ⟨fun rest => congrArg (fun w => Decoded.instr (.andAbx w) rest) (mkWord_hiByte_loByte w), rfl⟩
theorem Laws.RoundTrip.andAby (w : Word) : Laws.RoundTrip.Statement (.andAby w) := ⟨fun rest => congrArg (fun w => Decoded.instr (.andAby w) rest) (mkWord_hiByte_loByte w), rfl⟩
theorem Laws.RoundTrip.andIzx (z : Byte) : Laws.RoundTrip.Statement (.andIzx z) := ⟨fun _ => rfl, rfl⟩
theorem Laws.RoundTrip.andIzy (z : Byte) : Laws.RoundTrip.Statement (.andIzy z) := ⟨fun _ => rfl, rfl⟩
theorem Laws.RoundTrip.eorImm (m : Byte) : Laws.RoundTrip.Statement (.eorImm m) := ⟨fun _ => rfl, rfl⟩
theorem Laws.RoundTrip.eorZp (z : Byte) : Laws.RoundTrip.Statement (.eorZp z) := ⟨fun _ => rfl, rfl⟩
theorem Laws.RoundTrip.eorZpx (z : Byte) : Laws.RoundTrip.Statement (.eorZpx z) := ⟨fun _ => rfl, rfl⟩
theorem Laws.RoundTrip.eorAbs (w : Word) : Laws.RoundTrip.Statement (.eorAbs w) := ⟨fun rest => congrArg (fun w => Decoded.instr (.eorAbs w) rest) (mkWord_hiByte_loByte w), rfl⟩
theorem Laws.RoundTrip.eorAbx (w : Word) : Laws.RoundTrip.Statement (.eorAbx w) := ⟨fun rest => congrArg (fun w => Decoded.instr (.eorAbx w) rest) (mkWord_hiByte_loByte w), rfl⟩
theorem Laws.RoundTrip.eorAby (w : Word) : Laws.RoundTrip.Statement (.eorAby w) := ⟨fun rest => congrArg (fun w => Decoded.instr (.eorAby w) rest) (mkWord_hiByte_loByte w), rfl⟩
theorem Laws.RoundTrip.eorIzx (z : Byte) : Laws.RoundTrip.Statement (.eorIzx z) := ⟨fun _ => rfl, rfl⟩
theorem Laws.RoundTrip.eorIzy (z : Byte) : Laws.RoundTrip.Statement (.eorIzy z) := ⟨fun _ => rfl, rfl⟩
theorem Laws.RoundTrip.oraImm (m : Byte) : Laws.RoundTrip.Statement (.oraImm m) := ⟨fun _ => rfl, rfl⟩
theorem Laws.RoundTrip.oraZp (z : Byte) : Laws.RoundTrip.Statement (.oraZp z) := ⟨fun _ => rfl, rfl⟩
theorem Laws.RoundTrip.oraZpx (z : Byte) : Laws.RoundTrip.Statement (.oraZpx z) := ⟨fun _ => rfl, rfl⟩
theorem Laws.RoundTrip.oraAbs (w : Word) : Laws.RoundTrip.Statement (.oraAbs w) := ⟨fun rest => congrArg (fun w => Decoded.instr (.oraAbs w) rest) (mkWord_hiByte_loByte w), rfl⟩
theorem Laws.RoundTrip.oraAbx (w : Word) : Laws.RoundTrip.Statement (.oraAbx w) := ⟨fun rest => congrArg (fun w => Decoded.instr (.oraAbx w) rest) (mkWord_hiByte_loByte w), rfl⟩
theorem Laws.RoundTrip.oraAby (w : Word) : Laws.RoundTrip.Statement (.oraAby w) := ⟨fun rest => congrArg (fun w => Decoded.instr (.oraAby w) rest) (mkWord_hiByte_loByte w), rfl⟩
theorem Laws.RoundTrip.oraIzx (z : Byte) : Laws.RoundTrip.Statement (.oraIzx z) := ⟨fun _ => rfl, rfl⟩
theorem Laws.RoundTrip.oraIzy (z : Byte) : Laws.RoundTrip.Statement (.oraIzy z) := ⟨fun _ => rfl, rfl⟩
theorem Laws.RoundTrip.bitZp (z : Byte) : Laws.RoundTrip.Statement (.bitZp z) := ⟨fun _ => rfl, rfl⟩
theorem Laws.RoundTrip.bitAbs (w : Word) : Laws.RoundTrip.Statement (.bitAbs w) := ⟨fun rest => congrArg (fun w => Decoded.instr (.bitAbs w) rest) (mkWord_hiByte_loByte w), rfl⟩
theorem Laws.RoundTrip.cmpImm (m : Byte) : Laws.RoundTrip.Statement (.cmpImm m) := ⟨fun _ => rfl, rfl⟩
theorem Laws.RoundTrip.cmpZp (z : Byte) : Laws.RoundTrip.Statement (.cmpZp z) := ⟨fun _ => rfl, rfl⟩
theorem Laws.RoundTrip.cmpZpx (z : Byte) : Laws.RoundTrip.Statement (.cmpZpx z) := ⟨fun _ => rfl, rfl⟩
theorem Laws.RoundTrip.cmpAbs (w : Word) : Laws.RoundTrip.Statement (.cmpAbs w) := ⟨fun rest => congrArg (fun w => Decoded.instr (.cmpAbs w) rest) (mkWord_hiByte_loByte w), rfl⟩
theorem Laws.RoundTrip.cmpAbx (w : Word) : Laws.RoundTrip.Statement (.cmpAbx w) := ⟨fun rest => congrArg (fun w => Decoded.instr (.cmpAbx w) rest) (mkWord_hiByte_loByte w), rfl⟩
theorem Laws.RoundTrip.cmpAby (w : Word) : Laws.RoundTrip.Statement (.cmpAby w) := ⟨fun rest => congrArg (fun w => Decoded.instr (.cmpAby w) rest) (mkWord_hiByte_loByte w), rfl⟩
theorem Laws.RoundTrip.cmpIzx (z : Byte) : Laws.RoundTrip.Statement (.cmpIzx z) := ⟨fun _ => rfl, rfl⟩
theorem Laws.RoundTrip.cmpIzy (z : Byte) : Laws.RoundTrip.Statement (.cmpIzy z) := ⟨fun _ => rfl, rfl⟩
theorem Laws.RoundTrip.cpxImm (m : Byte) : Laws.RoundTrip.Statement (.cpxImm m) := ⟨fun _ => rfl, rfl⟩
theorem Laws.RoundTrip.cpxZp (z : Byte) : Laws.RoundTrip.Statement (.cpxZp z) := ⟨fun _ => rfl, rfl⟩
theorem Laws.RoundTrip.cpxAbs (w : Word) : Laws.RoundTrip.Statement (.cpxAbs w) := ⟨fun rest => congrArg (fun w => Decoded.instr (.cpxAbs w) rest) (mkWord_hiByte_loByte w), rfl⟩
theorem Laws.RoundTrip.cpyImm (m : Byte) : Laws.RoundTrip.Statement (.cpyImm m) := ⟨fun _ => rfl, rfl⟩
theorem Laws.RoundTrip.cpyZp (z : Byte) : Laws.RoundTrip.Statement (.cpyZp z) := ⟨fun _ => rfl, rfl⟩
theorem Laws.RoundTrip.cpyAbs (w : Word) : Laws.RoundTrip.Statement (.cpyAbs w) := ⟨fun rest => congrArg (fun w => Decoded.instr (.cpyAbs w) rest) (mkWord_hiByte_loByte w), rfl⟩
theorem Laws.RoundTrip.ldaImm (m : Byte) : Laws.RoundTrip.Statement (.ldaImm m) := ⟨fun _ => rfl, rfl⟩
theorem Laws.RoundTrip.ldaZp (z : Byte) : Laws.RoundTrip.Statement (.ldaZp z) := ⟨fun _ => rfl, rfl⟩
theorem Laws.RoundTrip.ldaZpx (z : Byte) : Laws.RoundTrip.Statement (.ldaZpx z) := ⟨fun _ => rfl, rfl⟩
theorem Laws.RoundTrip.ldaAbs (w : Word) : Laws.RoundTrip.Statement (.ldaAbs w) := ⟨fun rest => congrArg (fun w => Decoded.instr (.ldaAbs w) rest) (mkWord_hiByte_loByte w), rfl⟩
theorem Laws.RoundTrip.ldaAbx (w : Word) : Laws.RoundTrip.Statement (.ldaAbx w) := ⟨fun rest => congrArg (fun w => Decoded.instr (.ldaAbx w) rest) (mkWord_hiByte_loByte w), rfl⟩
theorem Laws.RoundTrip.ldaAby (w : Word) : Laws.RoundTrip.Statement (.ldaAby w) := ⟨fun rest => congrArg (fun w => Decoded.instr (.ldaAby w) rest) (mkWord_hiByte_loByte w), rfl⟩
theorem Laws.RoundTrip.ldaIzx (z : Byte) : Laws.RoundTrip.Statement (.ldaIzx z) := ⟨fun _ => rfl, rfl⟩
theorem Laws.RoundTrip.ldaIzy (z : Byte) : Laws.RoundTrip.Statement (.ldaIzy z) := ⟨fun _ => rfl, rfl⟩
theorem Laws.RoundTrip.ldxImm (m : Byte) : Laws.RoundTrip.Statement (.ldxImm m) := ⟨fun _ => rfl, rfl⟩
theorem Laws.RoundTrip.ldxZp (z : Byte) : Laws.RoundTrip.Statement (.ldxZp z) := ⟨fun _ => rfl, rfl⟩
theorem Laws.RoundTrip.ldxZpy (z : Byte) : Laws.RoundTrip.Statement (.ldxZpy z) := ⟨fun _ => rfl, rfl⟩
theorem Laws.RoundTrip.ldxAbs (w : Word) : Laws.RoundTrip.Statement (.ldxAbs w) := ⟨fun rest => congrArg (fun w => Decoded.instr (.ldxAbs w) rest) (mkWord_hiByte_loByte w), rfl⟩
theorem Laws.RoundTrip.ldxAby (w : Word) : Laws.RoundTrip.Statement (.ldxAby w) := ⟨fun rest => congrArg (fun w => Decoded.instr (.ldxAby w) rest) (mkWord_hiByte_loByte w), rfl⟩
theorem Laws.RoundTrip.ldyImm (m : Byte) : Laws.RoundTrip.Statement (.ldyImm m) := ⟨fun _ => rfl, rfl⟩
theorem Laws.RoundTrip.ldyZp (z : Byte) : Laws.RoundTrip.Statement (.ldyZp z) := ⟨fun _ => rfl, rfl⟩
theorem Laws.RoundTrip.ldyZpx (z : Byte) : Laws.RoundTrip.Statement (.ldyZpx z) := ⟨fun _ => rfl, rfl⟩
theorem Laws.RoundTrip.ldyAbs (w : Word) : Laws.RoundTrip.Statement (.ldyAbs w) := ⟨fun rest => congrArg (fun w => Decoded.instr (.ldyAbs w) rest) (mkWord_hiByte_loByte w), rfl⟩
theorem Laws.RoundTrip.ldyAbx (w : Word) : Laws.RoundTrip.Statement (.ldyAbx w) := ⟨fun rest => congrArg (fun w => Decoded.instr (.ldyAbx w) rest) (mkWord_hiByte_loByte w), rfl⟩
theorem Laws.RoundTrip.jmpAbs (w : Word) : Laws.RoundTrip.Statement (.jmpAbs w) := ⟨fun rest => congrArg (fun w => Decoded.instr (.jmpAbs w) rest) (mkWord_hiByte_loByte w), rfl⟩
theorem Laws.RoundTrip.jmpInd (w : Word) : Laws.RoundTrip.Statement (.jmpInd w) := ⟨fun rest => congrArg (fun w => Decoded.instr (.jmpInd w) rest) (mkWord_hiByte_loByte w), rfl⟩
theorem Laws.RoundTrip.jsrAbs (w : Word) : Laws.RoundTrip.Statement (.jsrAbs w) := ⟨fun rest => congrArg (fun w => Decoded.instr (.jsrAbs w) rest) (mkWord_hiByte_loByte w), rfl⟩
theorem Laws.RoundTrip.incZp (z : Byte) : Laws.RoundTrip.Statement (.incZp z) := ⟨fun _ => rfl, rfl⟩
theorem Laws.RoundTrip.incZpx (z : Byte) : Laws.RoundTrip.Statement (.incZpx z) := ⟨fun _ => rfl, rfl⟩
theorem Laws.RoundTrip.incAbs (w : Word) : Laws.RoundTrip.Statement (.incAbs w) := ⟨fun rest => congrArg (fun w => Decoded.instr (.incAbs w) rest) (mkWord_hiByte_loByte w), rfl⟩
theorem Laws.RoundTrip.incAbx (w : Word) : Laws.RoundTrip.Statement (.incAbx w) := ⟨fun rest => congrArg (fun w => Decoded.instr (.incAbx w) rest) (mkWord_hiByte_loByte w), rfl⟩
theorem Laws.RoundTrip.decZp (z : Byte) : Laws.RoundTrip.Statement (.decZp z) := ⟨fun _ => rfl, rfl⟩
theorem Laws.RoundTrip.decZpx (z : Byte) : Laws.RoundTrip.Statement (.decZpx z) := ⟨fun _ => rfl, rfl⟩
theorem Laws.RoundTrip.decAbs (w : Word) : Laws.RoundTrip.Statement (.decAbs w) := ⟨fun rest => congrArg (fun w => Decoded.instr (.decAbs w) rest) (mkWord_hiByte_loByte w), rfl⟩
theorem Laws.RoundTrip.decAbx (w : Word) : Laws.RoundTrip.Statement (.decAbx w) := ⟨fun rest => congrArg (fun w => Decoded.instr (.decAbx w) rest) (mkWord_hiByte_loByte w), rfl⟩
theorem Laws.RoundTrip.staZp (z : Byte) : Laws.RoundTrip.Statement (.staZp z) := ⟨fun _ => rfl, rfl⟩
theorem Laws.RoundTrip.staZpx (z : Byte) : Laws.RoundTrip.Statement (.staZpx z) := ⟨fun _ => rfl, rfl⟩
theorem Laws.RoundTrip.staAbs (w : Word) : Laws.RoundTrip.Statement (.staAbs w) := ⟨fun rest => congrArg (fun w => Decoded.instr (.staAbs w) rest) (mkWord_hiByte_loByte w), rfl⟩
theorem Laws.RoundTrip.staAbx (w : Word) : Laws.RoundTrip.Statement (.staAbx w) := ⟨fun rest => congrArg (fun w => Decoded.instr (.staAbx w) rest) (mkWord_hiByte_loByte w), rfl⟩
theorem Laws.RoundTrip.staAby (w : Word) : Laws.RoundTrip.Statement (.staAby w) := ⟨fun rest => congrArg (fun w => Decoded.instr (.staAby w) rest) (mkWord_hiByte_loByte w), rfl⟩
theorem Laws.RoundTrip.staIzx (z : Byte) : Laws.RoundTrip.Statement (.staIzx z) := ⟨fun _ => rfl, rfl⟩
theorem Laws.RoundTrip.staIzy (z : Byte) : Laws.RoundTrip.Statement (.staIzy z) := ⟨fun _ => rfl, rfl⟩
theorem Laws.RoundTrip.stxZp (z : Byte) : Laws.RoundTrip.Statement (.stxZp z) := ⟨fun _ => rfl, rfl⟩
theorem Laws.RoundTrip.stxZpy (z : Byte) : Laws.RoundTrip.Statement (.stxZpy z) := ⟨fun _ => rfl, rfl⟩
theorem Laws.RoundTrip.stxAbs (w : Word) : Laws.RoundTrip.Statement (.stxAbs w) := ⟨fun rest => congrArg (fun w => Decoded.instr (.stxAbs w) rest) (mkWord_hiByte_loByte w), rfl⟩
theorem Laws.RoundTrip.styZp (z : Byte) : Laws.RoundTrip.Statement (.styZp z) := ⟨fun _ => rfl, rfl⟩
theorem Laws.RoundTrip.styZpx (z : Byte) : Laws.RoundTrip.Statement (.styZpx z) := ⟨fun _ => rfl, rfl⟩
theorem Laws.RoundTrip.styAbs (w : Word) : Laws.RoundTrip.Statement (.styAbs w) := ⟨fun rest => congrArg (fun w => Decoded.instr (.styAbs w) rest) (mkWord_hiByte_loByte w), rfl⟩
theorem Laws.RoundTrip.aslAcc : Laws.RoundTrip.Statement .aslAcc := ⟨fun _ => rfl, rfl⟩
theorem Laws.RoundTrip.aslZp (z : Byte) : Laws.RoundTrip.Statement (.aslZp z) := ⟨fun _ => rfl, rfl⟩
theorem Laws.RoundTrip.aslZpx (z : Byte) : Laws.RoundTrip.Statement (.aslZpx z) := ⟨fun _ => rfl, rfl⟩
theorem Laws.RoundTrip.aslAbs (w : Word) : Laws.RoundTrip.Statement (.aslAbs w) := ⟨fun rest => congrArg (fun w => Decoded.instr (.aslAbs w) rest) (mkWord_hiByte_loByte w), rfl⟩
theorem Laws.RoundTrip.aslAbx (w : Word) : Laws.RoundTrip.Statement (.aslAbx w) := ⟨fun rest => congrArg (fun w => Decoded.instr (.aslAbx w) rest) (mkWord_hiByte_loByte w), rfl⟩
theorem Laws.RoundTrip.lsrAcc : Laws.RoundTrip.Statement .lsrAcc := ⟨fun _ => rfl, rfl⟩
theorem Laws.RoundTrip.lsrZp (z : Byte) : Laws.RoundTrip.Statement (.lsrZp z) := ⟨fun _ => rfl, rfl⟩
theorem Laws.RoundTrip.lsrZpx (z : Byte) : Laws.RoundTrip.Statement (.lsrZpx z) := ⟨fun _ => rfl, rfl⟩
theorem Laws.RoundTrip.lsrAbs (w : Word) : Laws.RoundTrip.Statement (.lsrAbs w) := ⟨fun rest => congrArg (fun w => Decoded.instr (.lsrAbs w) rest) (mkWord_hiByte_loByte w), rfl⟩
theorem Laws.RoundTrip.lsrAbx (w : Word) : Laws.RoundTrip.Statement (.lsrAbx w) := ⟨fun rest => congrArg (fun w => Decoded.instr (.lsrAbx w) rest) (mkWord_hiByte_loByte w), rfl⟩
theorem Laws.RoundTrip.rolAcc : Laws.RoundTrip.Statement .rolAcc := ⟨fun _ => rfl, rfl⟩
theorem Laws.RoundTrip.rolZp (z : Byte) : Laws.RoundTrip.Statement (.rolZp z) := ⟨fun _ => rfl, rfl⟩
theorem Laws.RoundTrip.rolZpx (z : Byte) : Laws.RoundTrip.Statement (.rolZpx z) := ⟨fun _ => rfl, rfl⟩
theorem Laws.RoundTrip.rolAbs (w : Word) : Laws.RoundTrip.Statement (.rolAbs w) := ⟨fun rest => congrArg (fun w => Decoded.instr (.rolAbs w) rest) (mkWord_hiByte_loByte w), rfl⟩
theorem Laws.RoundTrip.rolAbx (w : Word) : Laws.RoundTrip.Statement (.rolAbx w) := ⟨fun rest => congrArg (fun w => Decoded.instr (.rolAbx w) rest) (mkWord_hiByte_loByte w), rfl⟩
theorem Laws.RoundTrip.rorAcc : Laws.RoundTrip.Statement .rorAcc := ⟨fun _ => rfl, rfl⟩
theorem Laws.RoundTrip.rorZp (z : Byte) : Laws.RoundTrip.Statement (.rorZp z) := ⟨fun _ => rfl, rfl⟩
theorem Laws.RoundTrip.rorZpx (z : Byte) : Laws.RoundTrip.Statement (.rorZpx z) := ⟨fun _ => rfl, rfl⟩
theorem Laws.RoundTrip.rorAbs (w : Word) : Laws.RoundTrip.Statement (.rorAbs w) := ⟨fun rest => congrArg (fun w => Decoded.instr (.rorAbs w) rest) (mkWord_hiByte_loByte w), rfl⟩
theorem Laws.RoundTrip.rorAbx (w : Word) : Laws.RoundTrip.Statement (.rorAbx w) := ⟨fun rest => congrArg (fun w => Decoded.instr (.rorAbx w) rest) (mkWord_hiByte_loByte w), rfl⟩

end Sys2Proof
end

