-- ==== Sys2Proof/Tests/Slice0.lean ====
section
/-! SUPPORT. Small tests. A test named test_T<n>_<instruction> is vector T<n> of spec/95_test_vectors.md: its expected
values are the spec's. The decode words are written out from the opcode map of spec/30_encoding.md R57 and the operand
layout of R50 to R53. A theorem named witness_<obligation> shows states and operands that meet the hypotheses of that
obligation. -/

namespace Sys2Proof.Tests

open Machine

/-- The default start state of a single-instruction vector (section 0 of spec/95_test_vectors.md). -/
def cpu : State := { State.reset with PC := 0x0200 }

/-- "memory before", then "bytes at PC". -/
def load (m : List (Word × Byte)) (bytes : List Byte) (s : State) : State :=
  (m.foldl (fun t x => t.placeBytes x.1 [x.2]) s).placeBytes s.PC bytes

/-- The state after one step; the state itself if there is none. -/
def after (s : State) : State :=
  match step s with
  | .next t => t
  | _ => s

/-- The state after one instruction; the state itself if there is none. -/
def afterExec (i : Instr) (s : State) : State :=
  match exec i s with
  | .next t => t
  | _ => s

/-- Each list of bytes decodes to the instruction beside it, with no byte left. -/
def readsAs (l : List (List Byte × Instr)) : Bool :=
  l.all (fun x => decide (decode x.1 = .instr x.2 []))

/-! ## Well-formed tables, and ill-formed ones that the check refuses (R60) -/

theorem test_wf_refuses_argument_on_accumulator : tableWf [⟨0x69, .adc, .accumulator, 2⟩] = false := by decide

theorem test_wf_refuses_argument_without_operand : tableWf [⟨0x69, .adc, .implied, 2⟩] = false := by decide

theorem test_wf_refuses_command_on_memory : tableWf [⟨0xEA, .nop, .absolute, 4⟩] = false := by decide

theorem test_wf_refuses_command_on_accumulator : tableWf [⟨0xEA, .nop, .accumulator, 2⟩] = false := by decide

theorem test_wf_refuses_branch_not_relative : tableWf [⟨0xD0, .bne, .immediate, 2⟩] = false := by decide

theorem test_wf_refuses_relative_not_branch : tableWf [⟨0x4C, .jmp, .relative, 3⟩] = false := by decide

theorem test_wf_refuses_store_immediate : tableWf [⟨0x89, .sta, .immediate, 2⟩] = false := by decide

theorem test_wf_refuses_shift_immediate : tableWf [⟨0x0A, .asl, .immediate, 2⟩] = false := by decide

theorem test_wf_refuses_one_cycle : tableWf [⟨0xEA, .nop, .implied, 1⟩] = false := by decide

theorem test_wf_refuses_eight_cycles : tableWf [⟨0xEA, .nop, .implied, 8⟩] = false := by decide

theorem test_wf_refuses_duplicate_opcode :
    tableWf [⟨0xEA, .nop, .implied, 2⟩, ⟨0xEA, .inx, .implied, 2⟩] = false := by decide

theorem test_wf_accepts_two_rows :
    tableWf [⟨0xEA, .nop, .implied, 2⟩, ⟨0xE8, .inx, .implied, 2⟩] = true := by decide

/-! ## Decoding: every row of the opcode map, with operand bytes written out -/

theorem test_decode_row_0 : readsAs [
     ([0x00], .brk), ([0x01, 0x9C], .oraIzx 0x9C), ([0x05, 0x9C], .oraZp 0x9C), ([0x06, 0x9C], .aslZp 0x9C),
     ([0x08], .php), ([0x09, 0x9C], .oraImm 0x9C), ([0x0A], .aslAcc), ([0x0D, 0x34, 0x92], .oraAbs 0x9234),
     ([0x0E, 0x34, 0x92], .aslAbs 0x9234)] = true := by decide

theorem test_decode_row_1 : readsAs [
     ([0x10, 0x9C], .bpl 0x9C), ([0x11, 0x9C], .oraIzy 0x9C), ([0x15, 0x9C], .oraZpx 0x9C),
     ([0x16, 0x9C], .aslZpx 0x9C), ([0x18], .clc), ([0x19, 0x34, 0x92], .oraAby 0x9234),
     ([0x1D, 0x34, 0x92], .oraAbx 0x9234), ([0x1E, 0x34, 0x92], .aslAbx 0x9234)] = true := by decide

theorem test_decode_row_2 : readsAs [
     ([0x20, 0x34, 0x92], .jsrAbs 0x9234), ([0x21, 0x9C], .andIzx 0x9C), ([0x24, 0x9C], .bitZp 0x9C),
     ([0x25, 0x9C], .andZp 0x9C), ([0x26, 0x9C], .rolZp 0x9C), ([0x28], .plp), ([0x29, 0x9C], .andImm 0x9C),
     ([0x2A], .rolAcc), ([0x2C, 0x34, 0x92], .bitAbs 0x9234), ([0x2D, 0x34, 0x92], .andAbs 0x9234),
     ([0x2E, 0x34, 0x92], .rolAbs 0x9234)] = true := by decide

theorem test_decode_row_3 : readsAs [
     ([0x30, 0x9C], .bmi 0x9C), ([0x31, 0x9C], .andIzy 0x9C), ([0x35, 0x9C], .andZpx 0x9C),
     ([0x36, 0x9C], .rolZpx 0x9C), ([0x38], .sec), ([0x39, 0x34, 0x92], .andAby 0x9234),
     ([0x3D, 0x34, 0x92], .andAbx 0x9234), ([0x3E, 0x34, 0x92], .rolAbx 0x9234)] = true := by decide

theorem test_decode_row_4 : readsAs [
     ([0x40], .rti), ([0x41, 0x9C], .eorIzx 0x9C), ([0x45, 0x9C], .eorZp 0x9C), ([0x46, 0x9C], .lsrZp 0x9C),
     ([0x48], .pha), ([0x49, 0x9C], .eorImm 0x9C), ([0x4A], .lsrAcc), ([0x4C, 0x34, 0x92], .jmpAbs 0x9234),
     ([0x4D, 0x34, 0x92], .eorAbs 0x9234), ([0x4E, 0x34, 0x92], .lsrAbs 0x9234)] = true := by decide

theorem test_decode_row_5 : readsAs [
     ([0x50, 0x9C], .bvc 0x9C), ([0x51, 0x9C], .eorIzy 0x9C), ([0x55, 0x9C], .eorZpx 0x9C),
     ([0x56, 0x9C], .lsrZpx 0x9C), ([0x58], .cli), ([0x59, 0x34, 0x92], .eorAby 0x9234),
     ([0x5D, 0x34, 0x92], .eorAbx 0x9234), ([0x5E, 0x34, 0x92], .lsrAbx 0x9234)] = true := by decide

theorem test_decode_row_6 : readsAs [
     ([0x60], .rts), ([0x61, 0x9C], .adcIzx 0x9C), ([0x65, 0x9C], .adcZp 0x9C), ([0x66, 0x9C], .rorZp 0x9C),
     ([0x68], .pla), ([0x69, 0x9C], .adcImm 0x9C), ([0x6A], .rorAcc), ([0x6C, 0x34, 0x92], .jmpInd 0x9234),
     ([0x6D, 0x34, 0x92], .adcAbs 0x9234), ([0x6E, 0x34, 0x92], .rorAbs 0x9234)] = true := by decide

theorem test_decode_row_7 : readsAs [
     ([0x70, 0x9C], .bvs 0x9C), ([0x71, 0x9C], .adcIzy 0x9C), ([0x75, 0x9C], .adcZpx 0x9C),
     ([0x76, 0x9C], .rorZpx 0x9C), ([0x78], .sei), ([0x79, 0x34, 0x92], .adcAby 0x9234),
     ([0x7D, 0x34, 0x92], .adcAbx 0x9234), ([0x7E, 0x34, 0x92], .rorAbx 0x9234)] = true := by decide

theorem test_decode_row_8 : readsAs [
     ([0x81, 0x9C], .staIzx 0x9C), ([0x84, 0x9C], .styZp 0x9C), ([0x85, 0x9C], .staZp 0x9C),
     ([0x86, 0x9C], .stxZp 0x9C), ([0x88], .dey), ([0x8A], .txa), ([0x8C, 0x34, 0x92], .styAbs 0x9234),
     ([0x8D, 0x34, 0x92], .staAbs 0x9234), ([0x8E, 0x34, 0x92], .stxAbs 0x9234)] = true := by decide

theorem test_decode_row_9 : readsAs [
     ([0x90, 0x9C], .bcc 0x9C), ([0x91, 0x9C], .staIzy 0x9C), ([0x94, 0x9C], .styZpx 0x9C),
     ([0x95, 0x9C], .staZpx 0x9C), ([0x96, 0x9C], .stxZpy 0x9C), ([0x98], .tya),
     ([0x99, 0x34, 0x92], .staAby 0x9234), ([0x9A], .txs), ([0x9D, 0x34, 0x92], .staAbx 0x9234)] = true := by decide

theorem test_decode_row_A : readsAs [
     ([0xA0, 0x9C], .ldyImm 0x9C), ([0xA1, 0x9C], .ldaIzx 0x9C), ([0xA2, 0x9C], .ldxImm 0x9C),
     ([0xA4, 0x9C], .ldyZp 0x9C), ([0xA5, 0x9C], .ldaZp 0x9C), ([0xA6, 0x9C], .ldxZp 0x9C), ([0xA8], .tay),
     ([0xA9, 0x9C], .ldaImm 0x9C), ([0xAA], .tax), ([0xAC, 0x34, 0x92], .ldyAbs 0x9234),
     ([0xAD, 0x34, 0x92], .ldaAbs 0x9234), ([0xAE, 0x34, 0x92], .ldxAbs 0x9234)] = true := by decide

theorem test_decode_row_B : readsAs [
     ([0xB0, 0x9C], .bcs 0x9C), ([0xB1, 0x9C], .ldaIzy 0x9C), ([0xB4, 0x9C], .ldyZpx 0x9C),
     ([0xB5, 0x9C], .ldaZpx 0x9C), ([0xB6, 0x9C], .ldxZpy 0x9C), ([0xB8], .clv),
     ([0xB9, 0x34, 0x92], .ldaAby 0x9234), ([0xBA], .tsx), ([0xBC, 0x34, 0x92], .ldyAbx 0x9234),
     ([0xBD, 0x34, 0x92], .ldaAbx 0x9234), ([0xBE, 0x34, 0x92], .ldxAby 0x9234)] = true := by decide

theorem test_decode_row_C : readsAs [
     ([0xC0, 0x9C], .cpyImm 0x9C), ([0xC1, 0x9C], .cmpIzx 0x9C), ([0xC4, 0x9C], .cpyZp 0x9C),
     ([0xC5, 0x9C], .cmpZp 0x9C), ([0xC6, 0x9C], .decZp 0x9C), ([0xC8], .iny), ([0xC9, 0x9C], .cmpImm 0x9C),
     ([0xCA], .dex), ([0xCC, 0x34, 0x92], .cpyAbs 0x9234), ([0xCD, 0x34, 0x92], .cmpAbs 0x9234),
     ([0xCE, 0x34, 0x92], .decAbs 0x9234)] = true := by decide

theorem test_decode_row_D : readsAs [
     ([0xD0, 0x9C], .bne 0x9C), ([0xD1, 0x9C], .cmpIzy 0x9C), ([0xD5, 0x9C], .cmpZpx 0x9C),
     ([0xD6, 0x9C], .decZpx 0x9C), ([0xD8], .cld), ([0xD9, 0x34, 0x92], .cmpAby 0x9234),
     ([0xDD, 0x34, 0x92], .cmpAbx 0x9234), ([0xDE, 0x34, 0x92], .decAbx 0x9234)] = true := by decide

theorem test_decode_row_E : readsAs [
     ([0xE0, 0x9C], .cpxImm 0x9C), ([0xE1, 0x9C], .sbcIzx 0x9C), ([0xE4, 0x9C], .cpxZp 0x9C),
     ([0xE5, 0x9C], .sbcZp 0x9C), ([0xE6, 0x9C], .incZp 0x9C), ([0xE8], .inx), ([0xE9, 0x9C], .sbcImm 0x9C),
     ([0xEA], .nop), ([0xEC, 0x34, 0x92], .cpxAbs 0x9234), ([0xED, 0x34, 0x92], .sbcAbs 0x9234),
     ([0xEE, 0x34, 0x92], .incAbs 0x9234)] = true := by decide

theorem test_decode_row_F : readsAs [
     ([0xF0, 0x9C], .beq 0x9C), ([0xF1, 0x9C], .sbcIzy 0x9C), ([0xF5, 0x9C], .sbcZpx 0x9C),
     ([0xF6, 0x9C], .incZpx 0x9C), ([0xF8], .sed), ([0xF9, 0x34, 0x92], .sbcAby 0x9234),
     ([0xFD, 0x34, 0x92], .sbcAbx 0x9234), ([0xFE, 0x34, 0x92], .incAbx 0x9234)] = true := by decide

theorem test_decode_unofficial : decode [0x02, 0xE8, 0xE8] = .unofficial 0x02 [0xE8, 0xE8] := by decide

theorem test_decode_needs_operand_bytes : decode [0xAD, 0x34] = .short 0xAD := by decide

theorem test_decode_nothing : decode [] = .empty := by decide

theorem test_decodeTableWord_operands : decodeTableWord 24 0x1234AD = some (.ldaAbs 0x1234) := by decide

theorem test_decodeTableWord_opcode_only : decodeTableWord 8 0xAD = some (.ldaAbs 0x0000) := by decide

theorem test_decodeTableWord_unofficial : decodeTableWord 8 0x02 = none := by decide

theorem test_withFetchWord_runs_next : (after (State.reset.withFetchWord 16 0x7FA9)).A = 0x7F := by decide

/-! ## Vectors of spec/95_test_vectors.md, one step each -/

theorem test_T3_ldaZpx :
    let t := after (load [(0x0010, 0x11), (0x0110, 0x22)] [0xB5, 0xF0] { cpu with X := 0x20 })
    t.A = 0x11 ∧ t.P = 0x20 ∧ t.PC = 0x0202 ∧ t.out.map StepResult.cycles = some 4 := by decide

theorem test_T4_ldxZpy :
    let t := after (load [(0x0001, 0x80), (0x0101, 0x33)] [0xB6, 0xFF] { cpu with Y := 0x02 })
    t.X = 0x80 ∧ t.P = 0xA0 ∧ t.PC = 0x0202 := by decide

theorem test_T6_ldaAbx :
    let t := after (load [(0x1200, 0x02), (0x1300, 0x01)] [0xBD, 0xFF, 0x12] { cpu with X := 0x01 })
    t.A = 0x01 ∧ t.P = 0x20 ∧ t.PC = 0x0203 := by decide

theorem test_T7_ldaAbx :
    let t := after (load [(0x0001, 0x44)] [0xBD, 0xFF, 0xFF] { cpu with X := 0x02 })
    t.A = 0x44 ∧ t.P = 0x20 ∧ t.PC = 0x0203 := by decide

theorem test_T8_ldaAby :
    let t := after (load [(0x20FF, 0x00)] [0xB9, 0x00, 0x20] { cpu with Y := 0xFF })
    t.P = 0x22 ∧ t.PC = 0x0203 := by decide

theorem test_T11_ldaIzx :
    let t := after (load [(0x0001, 0x00), (0x0002, 0x30), (0x0101, 0xEE), (0x3000, 0x05)] [0xA1, 0xFE]
      { cpu with X := 0x03 })
    t.A = 0x05 ∧ t.P = 0x20 ∧ t.PC = 0x0202 := by decide

theorem test_T14_ldaIzy :
    let t := after (load [(0x0086, 0xF8), (0x0087, 0x40), (0x4008, 0x01), (0x4108, 0x80)] [0xB1, 0x86]
      { cpu with Y := 0x10 })
    t.A = 0x80 ∧ t.P = 0xA0 ∧ t.PC = 0x0202 := by decide

theorem test_T18_jmpInd :
    let t := after (load [(0x1000, 0x12), (0x10FF, 0x34), (0x1100, 0x56)] [0x6C, 0xFF, 0x10] cpu)
    t.P = 0x20 ∧ t.PC = 0x1234 ∧
      t.bus = [.read 0x0200, .read 0x0201, .read 0x0202, .read 0x10FF, .read 0x1000] := by decide

theorem test_T19_ldaImm :
    let t := after (load [(0x0000, 0x5C)] [0xA9] { cpu with PC := 0xFFFF })
    t.A = 0x5C ∧ t.P = 0x20 ∧ t.PC = 0x0001 := by decide

theorem test_T20_ldaAbs :
    let t := after (load [(0x0000, 0x12), (0x1234, 0x81)] [0xAD, 0x34] { cpu with PC := 0xFFFE })
    t.A = 0x81 ∧ t.P = 0xA0 ∧ t.PC = 0x0001 := by decide

theorem test_T22_clc :
    let t := after (load [] [0x18] { cpu with P := 0xFF })
    t.P = 0xFE ∧ t.PC = 0x0201 := by decide

theorem test_T23_cld :
    let t := after (load [] [0xD8] { cpu with P := 0x28 })
    t.P = 0x20 ∧ t.PC = 0x0201 := by decide

theorem test_T24_cli :
    let t := after (load [] [0x58] { cpu with P := 0x24 })
    t.P = 0x20 ∧ t.PC = 0x0201 := by decide

theorem test_T25_clv :
    let t := after (load [] [0xB8] { cpu with P := 0x60 })
    t.P = 0x20 ∧ t.PC = 0x0201 := by decide

theorem test_T26_sec :
    let t := after (load [] [0x38] cpu)
    t.P = 0x21 ∧ t.PC = 0x0201 := by decide

theorem test_T27_sed :
    let t := after (load [] [0xF8] cpu)
    t.P = 0x28 ∧ t.PC = 0x0201 := by decide

theorem test_T28_sei :
    let t := after (load [] [0x78] cpu)
    t.P = 0x24 ∧ t.PC = 0x0201 := by decide

theorem test_T31_dex :
    let t := after (load [] [0xCA] { cpu with X := 0x80, P := 0xA1 })
    t.X = 0x7F ∧ t.P = 0x21 ∧ t.PC = 0x0201 := by decide

theorem test_T33_dey :
    let t := after (load [] [0x88] cpu)
    t.Y = 0xFF ∧ t.P = 0xA0 ∧ t.PC = 0x0201 := by decide

theorem test_T34_inx :
    let t := after (load [] [0xE8] { cpu with X := 0xFF, P := 0x21 })
    t.X = 0x00 ∧ t.P = 0x23 ∧ t.PC = 0x0201 := by decide

theorem test_T38_iny :
    let t := after (load [] [0xC8] { cpu with Y := 0x7F })
    t.Y = 0x80 ∧ t.P = 0xA0 ∧ t.PC = 0x0201 := by decide

theorem test_T40_tax :
    let t := after (load [] [0xAA] { cpu with X := 0x01, P := 0xA0 })
    t.X = 0x00 ∧ t.P = 0x22 ∧ t.PC = 0x0201 := by decide

theorem test_T41_tay :
    let t := after (load [] [0xA8] { cpu with Y := 0x55 })
    t.Y = 0x00 ∧ t.P = 0x22 ∧ t.PC = 0x0201 := by decide

theorem test_T42_txa :
    let t := after (load [] [0x8A] { cpu with X := 0x7F, P := 0xA0 })
    t.A = 0x7F ∧ t.P = 0x20 ∧ t.PC = 0x0201 := by decide

theorem test_T43_tya :
    let t := after (load [] [0x98] { cpu with Y := 0xFF })
    t.A = 0xFF ∧ t.P = 0xA0 ∧ t.PC = 0x0201 := by decide

theorem test_T45_tsx :
    let t := after (load [] [0xBA] { cpu with X := 0x33, S := 0x00 })
    t.X = 0x00 ∧ t.P = 0x22 ∧ t.PC = 0x0201 := by decide

theorem test_T47_txs :
    let t := after (load [] [0x9A] { cpu with X := 0x80, S := 0x10, P := 0x22 })
    t.S = 0x80 ∧ t.P = 0x22 ∧ t.PC = 0x0201 := by decide

theorem test_T48_nop :
    let t := after (load [] [0xEA] { cpu with A := 0x12, X := 0x34, Y := 0x56, S := 0x78, P := 0xFF })
    t.P = 0xFF ∧ t.PC = 0x0201 := by decide

theorem test_T50_pha :
    let t := after (load [] [0x48] { cpu with A := 0x99, S := 0x00 })
    t.S = 0xFF ∧ t.P = 0x20 ∧ t.PC = 0x0201 ∧ t.byteAt 0x0100 = 0x99 := by decide

theorem test_T53_php :
    let t := after (load [] [0x08] { cpu with S := 0x00, P := 0xFF })
    t.S = 0xFF ∧ t.P = 0xFF ∧ t.PC = 0x0201 ∧ t.byteAt 0x0100 = 0xFF := by decide

theorem test_T55_pla :
    let t := after (load [(0x0100, 0x00)] [0x68] { cpu with A := 0x55 })
    t.A = 0x00 ∧ t.S = 0x00 ∧ t.P = 0x22 ∧ t.PC = 0x0201 := by decide

theorem test_T57_plp :
    let t := after (load [(0x01FF, 0x00)] [0x28] { cpu with S := 0xFE, P := 0xFF })
    t.S = 0xFF ∧ t.P = 0x20 ∧ t.PC = 0x0201 := by decide

theorem test_T60_brk :
    let t := after (load [(0xFFFE, 0x34), (0xFFFF, 0x12)] [0x00] { cpu with PC := 0x12FF, S := 0x01, P := 0xEF })
    t.S = 0xFE ∧ t.P = 0xFF ∧ t.PC = 0x1234 ∧ t.byteAt 0x0101 = 0x13 ∧ t.byteAt 0x0100 = 0x00 ∧
      t.byteAt 0x01FF = 0xFF ∧ t.out.map StepResult.cycles = some 7 := by decide

theorem test_T63_rti :
    let t := after (load [(0x0100, 0x78), (0x0101, 0x56), (0x01FF, 0xC1)] [0x40]
      { cpu with PC := 0x9000, S := 0xFE, P := 0x24 })
    t.S = 0x01 ∧ t.P = 0xE1 ∧ t.PC = 0x5678 ∧
      t.bus = [.read 0x9000, .read 0x01FF, .read 0x0100, .read 0x0101] := by decide

theorem test_T65_rts :
    let t := after (load [(0x01FE, 0xFF), (0x01FF, 0xFF)] [0x60] { cpu with S := 0xFD })
    t.S = 0xFF ∧ t.P = 0x20 ∧ t.PC = 0x0000 := by decide

theorem test_T66_bcc :
    let t := after (load [] [0x90, 0x05] cpu)
    t.P = 0x20 ∧ t.PC = 0x0207 := by decide

theorem test_T68_bcs :
    let t := after (load [] [0xB0, 0xFE] { cpu with P := 0x21 })
    t.P = 0x21 ∧ t.PC = 0x0200 := by decide

theorem test_T70_bne :
    let t := after (load [] [0xD0, 0xFB] { cpu with PC := 0x0005 })
    t.P = 0x20 ∧ t.PC = 0x0002 := by decide

theorem test_T72_beq :
    let t := after (load [] [0xF0, 0x7F] { cpu with PC := 0x0300, P := 0x22 })
    t.P = 0x22 ∧ t.PC = 0x0381 := by decide

theorem test_T74_bpl :
    let t := after (load [] [0x10, 0x80] { cpu with PC := 0x0300 })
    t.P = 0x20 ∧ t.PC = 0x0282 := by decide

theorem test_T76_bmi :
    let t := after (load [] [0x30, 0xE0] { cpu with PC := 0x0010, P := 0xA0 })
    t.P = 0xA0 ∧ t.PC = 0xFFF2 := by decide

theorem test_T78_bvc :
    let t := after (load [] [0x50, 0x20] { cpu with PC := 0xFFF0 })
    t.P = 0x20 ∧ t.PC = 0x0012 := by decide

theorem test_T80_bvs :
    let t := after (load [] [0x70, 0x00] { cpu with PC := 0x0400, P := 0x60 })
    t.P = 0x60 ∧ t.PC = 0x0402 := by decide

theorem test_T90_adcImm :
    let t := after (load [] [0x69, 0xFF] { cpu with A := 0x80 })
    t.A = 0x7F ∧ t.P = 0x61 ∧ t.PC = 0x0202 := by decide

theorem test_T94_adcImm :
    let t := after (load [] [0x69, 0x01] { cpu with A := 0x99, P := 0x29 })
    t.A = 0x9B ∧ t.P = 0xA8 ∧ t.PC = 0x0202 := by decide

theorem test_T99_sbcImm :
    let t := after (load [] [0xE9, 0x01] { cpu with A := 0x80, P := 0x21 })
    t.A = 0x7F ∧ t.P = 0x61 ∧ t.PC = 0x0202 := by decide

theorem test_T106_sbcImm :
    let t := after (load [] [0xE9, 0x01] { cpu with A := 0x10, P := 0x29 })
    t.A = 0x0F ∧ t.P = 0x29 ∧ t.PC = 0x0202 := by decide

theorem test_T109_andImm :
    let t := after (load [] [0x29, 0xFF] { cpu with A := 0x80, P := 0x23 })
    t.P = 0xA1 ∧ t.PC = 0x0202 := by decide

theorem test_T112_eorImm :
    let t := after (load [] [0x49, 0xAA] { cpu with A := 0xAA, P := 0xE1 })
    t.A = 0x00 ∧ t.P = 0x63 ∧ t.PC = 0x0202 := by decide

theorem test_T113_oraImm :
    let t := after (load [] [0x09, 0x80] { cpu with A := 0x01 })
    t.A = 0x81 ∧ t.P = 0xA0 ∧ t.PC = 0x0202 := by decide

theorem test_T117_bitZp :
    let t := after (load [(0x0010, 0x3F)] [0x24, 0x10] { cpu with A := 0xFF, P := 0xE3 })
    t.P = 0x21 ∧ t.PC = 0x0202 := by decide

theorem test_T121_cmpImm :
    let t := after (load [] [0xC9, 0x01] { cpu with P := 0x61 })
    t.P = 0xE0 ∧ t.PC = 0x0202 := by decide

theorem test_T125_cpxImm :
    let t := after (load [] [0xE0, 0x0A] { cpu with X := 0x05 })
    t.P = 0xA0 ∧ t.PC = 0x0202 := by decide

theorem test_T128_cpyImm :
    let t := after (load [] [0xC0, 0x01] { cpu with Y := 0x10 })
    t.P = 0x21 ∧ t.PC = 0x0202 := by decide

theorem test_T134_ldxImm :
    let t := after (load [] [0xA2, 0x00] { cpu with X := 0x01 })
    t.X = 0x00 ∧ t.P = 0x22 ∧ t.PC = 0x0202 := by decide

theorem test_T138_ldyZpx :
    let t := after (load [(0x0000, 0x80)] [0xB4, 0xFF] { cpu with X := 0x01 })
    t.Y = 0x80 ∧ t.P = 0xA0 ∧ t.PC = 0x0202 := by decide

theorem test_T140_jmpAbs :
    let t := after (load [] [0x4C, 0x00, 0x00] cpu)
    t.P = 0x20 ∧ t.PC = 0x0000 := by decide

theorem test_T144_jsrAbs :
    let t := after (load [] [0x20, 0x00, 0x80] { cpu with S := 0x00 })
    t.S = 0xFE ∧ t.P = 0x20 ∧ t.PC = 0x8000 ∧ t.byteAt 0x0100 = 0x02 ∧ t.byteAt 0x01FF = 0x02 := by decide

theorem test_T148_incZp :
    let t := after (load [(0x0010, 0x7F)] [0xE6, 0x10] { cpu with P := 0x23 })
    t.P = 0xA1 ∧ t.PC = 0x0202 ∧ t.byteAt 0x0010 = 0x80 := by decide

theorem test_T153_decZp :
    let t := after (load [(0x0010, 0x01)] [0xC6, 0x10] { cpu with P := 0xA1 })
    t.P = 0x23 ∧ t.PC = 0x0202 ∧ t.byteAt 0x0010 = 0x00 := by decide

theorem test_T157_staZpx :
    let t := after (load [] [0x95, 0xF0] { cpu with A := 0x42, X := 0x20 })
    t.P = 0x20 ∧ t.PC = 0x0202 ∧ t.byteAt 0x0010 = 0x42 := by decide

theorem test_T162_staIzy :
    let t := after (load [(0x0086, 0xF8), (0x0087, 0x40)] [0x91, 0x86] { cpu with A := 0x42, Y := 0x10 })
    t.P = 0x20 ∧ t.PC = 0x0202 ∧ t.byteAt 0x4108 = 0x42 := by decide

theorem test_T165_stxZpy :
    let t := after (load [] [0x96, 0xF8] { cpu with X := 0x07, Y := 0x10 })
    t.P = 0x20 ∧ t.PC = 0x0202 ∧ t.byteAt 0x0008 = 0x07 := by decide

theorem test_T168_styZpx :
    let t := after (load [] [0x94, 0xFF] { cpu with X := 0x02, Y := 0x99 })
    t.P = 0x20 ∧ t.PC = 0x0202 ∧ t.byteAt 0x0001 = 0x99 := by decide

theorem test_T172_aslAcc :
    let t := after (load [] [0x0A] { cpu with A := 0x40, P := 0x21 })
    t.A = 0x80 ∧ t.P = 0xA0 ∧ t.PC = 0x0201 := by decide

theorem test_T176_aslAbx :
    let t := after (load [(0x1300, 0x01)] [0x1E, 0xFF, 0x12] { cpu with X := 0x01, P := 0x23 })
    t.P = 0x20 ∧ t.PC = 0x0203 ∧ t.byteAt 0x1300 = 0x02 := by decide

theorem test_T179_lsrAcc :
    let t := after (load [] [0x4A] { cpu with A := 0x80, P := 0xA1 })
    t.A = 0x40 ∧ t.P = 0x20 ∧ t.PC = 0x0201 := by decide

theorem test_T182_lsrAbs :
    let t := after (load [(0x3000, 0x80)] [0x4E, 0x00, 0x30] { cpu with A := 0xFF })
    t.P = 0x20 ∧ t.PC = 0x0203 ∧ t.byteAt 0x3000 = 0x40 := by decide

theorem test_T185_rolAcc :
    let t := after (load [] [0x2A] { cpu with A := 0x80, P := 0x21 })
    t.A = 0x01 ∧ t.P = 0x21 ∧ t.PC = 0x0201 := by decide

theorem test_T190_rolZpx :
    let t := after (load [(0x0010, 0x55)] [0x36, 0xF0] { cpu with X := 0x20 })
    t.P = 0xA0 ∧ t.PC = 0x0202 ∧ t.byteAt 0x0010 = 0xAA := by decide

theorem test_T192_rorAcc :
    let t := after (load [] [0x6A] { cpu with A := 0x01, P := 0x21 })
    t.A = 0x80 ∧ t.P = 0xA1 ∧ t.PC = 0x0201 := by decide

theorem test_T196_rorAbx :
    let t := after (load [(0x1300, 0x02)] [0x7E, 0xFF, 0x12] { cpu with X := 0x01, P := 0x21 })
    t.P = 0xA0 ∧ t.PC = 0x0203 ∧ t.byteAt 0x1300 = 0x81 ∧
      t.bus = [.read 0x0200, .read 0x0201, .read 0x0202, .read 0x1300, .write 0x1300 0x81] := by decide

theorem test_T198_unofficial :
    let t := after (load [] [0x02, 0xE8, 0xE8] { cpu with A := 0x12, X := 0x34, Y := 0x56, S := 0x78, P := 0xE3 })
    t.P = 0xE3 ∧ t.PC = 0x0201 ∧ t.out.map StepResult.cycles = some 1 := by decide

theorem test_T204_unofficial :
    let t := after (load [] [0x03] { cpu with PC := 0xFFFF })
    t.P = 0x20 ∧ t.PC = 0x0000 := by decide

theorem test_T205_irq :
    let t := after (load [(0xFFFE, 0x00), (0xFFFF, 0x90)] [] { cpu with PC := 0x0203, P := 0x21, host := [.irq] })
    t.S = 0xFC ∧ t.P = 0x25 ∧ t.PC = 0x9000 ∧ t.byteAt 0x01FF = 0x02 ∧ t.byteAt 0x01FE = 0x03 ∧
      t.byteAt 0x01FD = 0x25 := by decide

theorem test_T206_irq :
    let t := after (load [(0xFFFE, 0x00), (0xFFFF, 0x90)] [] { cpu with PC := 0x0203, P := 0x24, host := [.irq] })
    t.P = 0x24 ∧ t.PC = 0x0203 ∧ t.bus = [] := by decide

theorem test_T208_irq :
    let t := after (load [(0xFFFE, 0x00), (0xFFFF, 0x90)] [] { cpu with PC := 0xABCD, S := 0x01, host := [.irq] })
    t.S = 0xFE ∧ t.P = 0x24 ∧ t.PC = 0x9000 ∧ t.byteAt 0x0101 = 0xAB ∧ t.byteAt 0x0100 = 0xCD ∧
      t.byteAt 0x01FF = 0x24 := by decide

theorem test_T211_nmi :
    let t := after (load [(0xFFFA, 0xFA), (0xFFFB, 0xFF)] []
      { cpu with PC := 0x0203, S := 0x00, P := 0xFA, host := [.nmi] })
    t.S = 0xFD ∧ t.P = 0xEE ∧ t.PC = 0xFFFA ∧ t.byteAt 0x0100 = 0x02 ∧ t.byteAt 0x01FF = 0x03 ∧
      t.byteAt 0x01FE = 0xEE ∧
      t.bus = [.write 0x0100 0x02, .write 0x01FF 0x03, .write 0x01FE 0xEE, .read 0xFFFA, .read 0xFFFB] := by decide

theorem test_T212_reset :
    let t := after (load [(0xFFFC, 0xAD), (0xFFFD, 0xDE)] []
      { cpu with PC := 0x1234, A := 0x11, X := 0x22, Y := 0x33, S := 0x44, P := 0xFF, host := [.reset] })
    t.A = 0x00 ∧ t.X = 0x00 ∧ t.Y = 0x00 ∧ t.S = 0xFF ∧ t.P = 0x20 ∧ t.PC = 0xDEAD := by decide

/-! ## Other buses (R30): each read takes the next answer, and the flat RAM answers where none is given -/

/-- The fourth read of `LDA $1234`, the read of M (R140), is answered by the bus. -/
theorem test_bus_answers_operand :
    let t := after { load [(0x1234, 0x11)] [0xAD, 0x34, 0x12] cpu with
      answers := [none, none, none, some 0x5A, some 0x77] }
    t.A = 0x5A ∧ t.byteAt 0x1234 = 0x11 ∧ t.answers = [some 0x77] := by decide

/-- The fetch of `LDA #$7F` is answered by the bus (R66). -/
theorem test_bus_answers_fetch : (after { cpu with answers := [some 0xA9, some 0x7F] }).A = 0x7F := by decide

/-- The reset vector is answered by the bus, low byte first (R36, R186). -/
theorem test_bus_answers_vector :
    (after { cpu with host := [.reset], answers := [some 0x34, some 0x12] }).PC = 0x1234 := by decide

/-- A device at every address: a read answers a counter and counts on (R30, "IO side effects"). -/
def counter : Bus Byte where
  read q _ := (q, q + 1)
  write _ _ v := v

/-- `INC zp` (0xE6) on a counter at 0xE6: the opcode 0xE6, the operand 0xE7, then M = 0xE8 at 0x00E7, where 0xE9 is
written (R72, R149). -/
theorem test_step_on_device :
    let t := after { cpu with answers := [0xE6, 0xE7, 0xE8].map some }
    counter.serve 0xE6 t.bus = ([0xE6, 0xE7, 0xE8], 0xE9) ∧ t.byteAt 0x00E7 = 0xE9 := by decide

/-! ## Another opcode map (R4, R60): pairs of R57, and a pair R57 does not have -/

/-- A map with INX at an opcode that R57 leaves unofficial, and INC in a mode that R57 does not give it. -/
def otherMap : OpcodeMap where
  entries := [⟨0x02, .inx, .implied, 2⟩, ⟨0x03, .inc, .absoluteY, 7⟩]
  wf := by decide

/-- The state after one step with `otherMap`. -/
def afterOther (s : State) : State :=
  match stepWith otherMap s with
  | .next t => t
  | _ => s

theorem test_map_row : (afterOther (load [] [0x02] cpu)).X = 0x01 := by decide

/-- `INC $1230,Y` with Y = 4 (R78, R149). -/
theorem test_map_new_pair :
    let t := afterOther (load [(0x1234, 0x41)] [0x03, 0x30, 0x12] { cpu with Y := 0x04 })
    t.byteAt 0x1234 = 0x42 ∧ t.PC = 0x0203 ∧ t.out = some { cycles := 7, unofficial := none } := by decide

theorem test_map_without_entry : (afterOther (load [] [0xE8] cpu)).unofficialSeen = true := by decide

theorem test_map_refuses_ill_formed_table : (OpcodeMap.ofTable [⟨0xEA, .nop, .absolute, 4⟩]).isNone = true := by decide

/-! ## Memory keeps its canonical form -/

theorem test_memory_erases_unwritten_value :
    (memWrite 0x0010 0x00 (memWrite 0x0010 0x55 cpu)).mem = [] := by decide

theorem test_memory_is_sorted :
    (memWrite 0x0010 0x01 (memWrite 0x0200 0x02 cpu)).mem = [(0x0010, 0x01), (0x0200, 0x02)] := by decide

/-! ## Witnesses -/

/-- `cpu` with `bytes` at `pc`. -/
def codeAt (pc : Word) (bytes : List Byte) : State :=
  load [] bytes { cpu with PC := pc }

/-- `cpu` with the host about to make the move `op`. -/
def asked (op : HostOp) : State :=
  { cpu with host := [op] }

/-- With no answer given, the bus is the reference bus. -/
theorem onRam_of_nil {s : State} (h : s.answers = []) : OnRam s := by
  simp [OnRam, h]

theorem witness_OpcodeTableIsConsistent :
    (⟨0xAD, .lda, .absolute, 4⟩ : DecodeEntry) ∈ opcodeTable ∧ [(0x34 : Byte), 0x12].length = Mode.absolute.operandBytes ∧
      (⟨0xEA, .nop, .implied, 2⟩ : DecodeEntry) ∈ opcodeTable ∧ ([] : List Byte).length = Mode.implied.operandBytes := by
  decide

theorem witness_InstructionLengthFollowsMode :
    Instr.brk.mode ∈ [Mode.implied, .accumulator] ∧ Instr.rorAcc.mode ∈ [Mode.implied, .accumulator] ∧
      (Instr.bne 0x80).mode ∈ [Mode.immediate, .zeroPage, .zeroPageX, .zeroPageY, .relative, .indirectX, .indirectY] ∧
      (Instr.staIzy 0xFF).mode ∈
        [Mode.immediate, .zeroPage, .zeroPageX, .zeroPageY, .relative, .indirectX, .indirectY] ∧
      (Instr.jmpInd 0x10FF).mode ∈ [Mode.absolute, .absoluteX, .absoluteY, .indirect] := by
  decide

/-- The instruction's bytes run over the top of memory. -/
theorem witness_StepExecutesTheDecodedInstruction : RunsNext (codeAt 0xFFFE [0xAD, 0x34, 0x12]) (.ldaAbs 0x1234) :=
  ⟨by decide, by decide, [], by decide⟩

theorem witness_UnofficialOpcodeIsSkipped :
    let s := codeAt 0xFFFF [0x02]
    s.resetSeen = true ∧ s.nextOp = .step ∧ lookup (s.answer 0 s.PC) = none := by decide

theorem witness_StepAlwaysCompletes :
    (codeAt 0x0200 [0xEA]).resetSeen = true ∧ (codeAt 0x0200 [0xEA]).nextOp = .step ∧
      (asked .step).resetSeen = true ∧ (asked .step).nextOp = .step := by decide

/-- No branch, at the top of memory. -/
theorem witness_PcAfterStepIsTheNextOpcode :
    RunsNext (codeAt 0xFFFF [0xE8]) .inx ∧ Instr.inx.mnemonic ∉ [Mnemonic.jmp, .jsr, .rts, .rti, .brk] ∧
      branchTaken Instr.inx.mnemonic (codeAt 0xFFFF [0xE8]).P ≠ some true :=
  ⟨⟨by decide, by decide, [0x00, 0x00], by decide⟩, by decide, by decide⟩

/-- A branch that is not taken. -/
theorem witness_PcAfterStepIsTheNextOpcode_branch :
    RunsNext (codeAt 0x0200 [0xB0, 0x05]) (.bcs 0x05) ∧
      (Instr.bcs 0x05).mnemonic ∉ [Mnemonic.jmp, .jsr, .rts, .rti, .brk] ∧
      branchTaken (Instr.bcs 0x05).mnemonic (codeAt 0x0200 [0xB0, 0x05]).P ≠ some true :=
  ⟨⟨by decide, by decide, [0x00], by decide⟩, by decide, by decide⟩

/-- An unofficial opcode at the top of memory. -/
theorem witness_PcAfterStepIsTheNextOpcode_unofficial :
    let s := codeAt 0xFFFF [0xFF]
    s.resetSeen = true ∧ s.nextOp = .step ∧ lookup (s.answer 0 s.PC) = none := by decide

/-- The least and the greatest cycle count; `k` is the count of the same opcode. -/
theorem witness_ReturnedCyclesDependOnTheOpcodeAlone :
    RunsNext (codeAt 0x0200 [0xEA]) .nop ∧ (0xEA, Mode.implied, 2) ∈ formsOf .nop ∧
      RunsNext (codeAt 0x0200 [0xDE, 0xFF, 0x12]) (.decAbx 0x12FF) ∧ (0xDE, Mode.absoluteX, 7) ∈ formsOf .dec :=
  ⟨⟨by decide, by decide, [0x00, 0x00], by decide⟩, by decide, ⟨by decide, by decide, [], by decide⟩, by decide⟩

/-- Both ways to stop, each reached. -/
theorem witness_StepStopsOnlyBeforeResetOrOnABusFailure :
    step (asked .busError) = .fault .busError ∧
      step { asked .busError with resetSeen := false } = .fault .busError ∧
      step { asked .step with resetSeen := false } = .refused .beforeFirstReset ∧
      step { asked .irq with resetSeen := false } = .refused .beforeFirstReset ∧
      step { asked .nmi with resetSeen := false } = .refused .beforeFirstReset :=
  ⟨rfl, rfl, rfl, rfl, rfl⟩

theorem witness_BusAccessesOfStep :
    RunsNext (codeAt 0x0200 [0x00]) .brk ∧ RunsNext (codeAt 0x0200 [0x91, 0xFF]) (.staIzy 0xFF) :=
  ⟨⟨by decide, by decide, [0x00, 0x00], by decide⟩, by decide, by decide, [0x00], by decide⟩

theorem witness_MemoryFollowsTheWritesOnTheBus :
    (∃ t, step (codeAt 0x0200 [0x48]) = .next t) ∧ (∀ a v, (codeAt 0x0200 [0x48]).nextOp ≠ .write a v) ∧
      (∃ t, step (asked .nmi) = .next t) ∧ ∀ a v, (asked .nmi).nextOp ≠ .write a v :=
  ⟨⟨_, rfl⟩, fun _ _ h => HostOp.noConfusion h, ⟨_, rfl⟩, fun _ _ h => HostOp.noConfusion h⟩

/-- Before the first RESET and after it. -/
theorem witness_ResetOperationSetsTheRegisters :
    State.powerOn.nextOp = .reset ∧ (asked .reset).nextOp = .reset := by decide

theorem witness_IrqIsTakenWhenIIsClear :
    (asked .irq).nextOp = .irq ∧ (asked .irq).resetSeen = true ∧ flagOf .i (asked .irq).P = false := by decide

theorem witness_IrqIsDroppedWhenIIsSet :
    let s := { asked .irq with P := 0x24 }
    s.nextOp = .irq ∧ s.resetSeen = true ∧ flagOf .i s.P = true := by decide

theorem witness_NmiIsAlwaysTaken : (asked .nmi).nextOp = .nmi ∧ (asked .nmi).resetSeen = true := by decide

theorem witness_HostMemoryWriteChangesOneByte :
    (asked (.write 0xFFFF 0x00)).nextOp = .write 0xFFFF 0x00 ∧ (asked (.write 0x0000 0xFF)).nextOp = .write 0x0000 0xFF := by
  decide

/-- With the stack pointer about to wrap. -/
theorem witness_BrkThenRtiResumesAfterTheOpcode :
    OnRam { cpu with S := 0x01 } ∧ ∃ t u, exec .brk { cpu with S := 0x01 } = .next t ∧ exec .rti t = .next u :=
  ⟨onRam_of_nil rfl, _, _, rfl, rfl⟩

theorem witness_InterruptThenRtiResumesWithIrqMasked :
    OnRam (asked .nmi) ∧ OnRam (asked .irq) ∧
    (∃ t u, (asked .nmi).resetSeen = true ∧ (asked .nmi).nextOp = .nmi ∧ step (asked .nmi) = .next t ∧
      exec .rti t = .next u) ∧
    ∃ t u, (asked .irq).resetSeen = true ∧ (asked .irq).nextOp = .irq ∧ flagOf .i (asked .irq).P = false ∧
      step (asked .irq) = .next t ∧ exec .rti t = .next u :=
  ⟨onRam_of_nil rfl, onRam_of_nil rfl, ⟨_, _, rfl, rfl, rfl, rfl⟩, _, _, rfl, rfl, rfl, rfl, rfl⟩

theorem witness_JsrThenRtsReturns :
    OnRam { cpu with S := 0x00, PC := 0x0000 } ∧
      ∃ t u, exec (.jsrAbs 0x8000) { cpu with S := 0x00, PC := 0x0000 } = .next t ∧ exec .rts t = .next u :=
  ⟨onRam_of_nil rfl, _, _, rfl, rfl⟩

theorem witness_PushThenPullRestores :
    OnRam { cpu with S := 0x00 } ∧
      (∃ t u, exec .pha { cpu with S := 0x00 } = .next t ∧ exec .pla t = .next u) ∧
      ∃ t u, exec .php { cpu with S := 0x00 } = .next t ∧ exec .plp t = .next u :=
  ⟨onRam_of_nil rfl, ⟨_, _, rfl, rfl⟩, _, _, rfl, rfl⟩

/-- A reference bus, with no answer given and with two left to the flat RAM. -/
theorem witness_StackIsARingInPageOne :
    { cpu with S := 0x00 }.S = 0x00 ∧ cpu.S = 0xFF ∧ OnRam cpu ∧ OnRam { cpu with answers := [none, none] } :=
  ⟨rfl, rfl, onRam_of_nil rfl, by simp [OnRam]⟩

/-- Just below the page boundary. -/
theorem witness_PointerReadsWrapWhereTheSpecSays : (0x10FE : Word).toNat % 256 ≠ 255 := by decide

/-- Each clause on a bit number, at the ends of its range and beside bit 5. -/
theorem witness_bit_numbers : (0 < 8 ∧ 0 ≠ 5) ∧ (4 < 8 ∧ 4 ≠ 5) ∧ (6 < 8 ∧ 6 ≠ 5) ∧ (7 < 8 ∧ 7 ≠ 5) := by decide

theorem witness_FlagInstructionsWriteOneFlag :
    (Instr.clc, Flag.c, false) ∈ [(Instr.clc, Flag.c, false), (.cld, .d, false), (.cli, .i, false), (.clv, .v, false),
      (.sec, .c, true), (.sed, .d, true), (.sei, .i, true)] ∧
    (Instr.sei, Flag.i, true) ∈ [(Instr.clc, Flag.c, false), (.cld, .d, false), (.cli, .i, false), (.clv, .v, false),
      (.sec, .c, true), (.sed, .d, true), (.sei, .i, true)] := by decide

theorem witness_NopChangesNothing : RunsNext (codeAt 0xFFFF [0xEA]) .nop :=
  ⟨by decide, by decide, [0x00, 0x00], by decide⟩

/-- A branch taken and one not taken, with the extreme displacements. -/
theorem witness_BranchesMovePcByTheSignedDisplacement :
    (Instr.bcc 0x80, Flag.c, false) ∈ [(Instr.bcc 0x80, Flag.c, false), (.bcs 0x80, .c, true), (.bne 0x80, .z, false),
      (.beq 0x80, .z, true), (.bpl 0x80, .n, false), (.bmi 0x80, .n, true), (.bvc 0x80, .v, false),
      (.bvs 0x80, .v, true)] ∧ flagOf .c cpu.P = false ∧
    (Instr.bvs 0x7F, Flag.v, true) ∈ [(Instr.bcc 0x7F, Flag.c, false), (.bcs 0x7F, .c, true), (.bne 0x7F, .z, false),
      (.beq 0x7F, .z, true), (.bpl 0x7F, .n, false), (.bmi 0x7F, .n, true), (.bvc 0x7F, .v, false),
      (.bvs 0x7F, .v, true)] ∧ flagOf .v cpu.P ≠ true := by decide

theorem witness_AdcAddsWithCarry :
    (Instr.adcImm 0xFF).mnemonic = .adc ∧ (Instr.adcIzy 0xFF).mnemonic = .adc := by decide

theorem witness_SbcSubtractsWithBorrow :
    (Instr.sbcImm 0x00).mnemonic = .sbc ∧ (Instr.sbcAbx 0xFFFF).mnemonic = .sbc := by decide

theorem witness_DecimalFlagDoesNotChangeArithmetic :
    (Instr.adcZp 0x10).mnemonic ∈ [Mnemonic.adc, .sbc] ∧ (Instr.sbcIzx 0x10).mnemonic ∈ [Mnemonic.adc, .sbc] := by
  decide

theorem witness_LogicInstructionsCombineBits :
    (Instr.andImm 0x0F).mnemonic ∈ [Mnemonic.and, .eor, .ora] ∧ (Instr.andImm 0x0F).mnemonic = .and ∧
      (Instr.eorAby 0xFFFF).mnemonic ∈ [Mnemonic.and, .eor, .ora] ∧ (Instr.eorAby 0xFFFF).mnemonic = .eor ∧
      (Instr.oraZpx 0xFF).mnemonic ∈ [Mnemonic.and, .eor, .ora] ∧ (Instr.oraZpx 0xFF).mnemonic = .ora := by decide

theorem witness_BitTestsMemoryAgainstA :
    (Instr.bitZp 0x10).mnemonic = .bit ∧ (Instr.bitAbs 0x3000).mnemonic = .bit := by decide

theorem witness_ComparesSetCarryZeroNegative :
    (Instr.cmpIzx 0x20).mnemonic ∈ [Mnemonic.cmp, .cpx, .cpy] ∧ (Instr.cmpIzx 0x20).mnemonic = .cmp ∧
      (Instr.cpxImm 0x0A).mnemonic ∈ [Mnemonic.cmp, .cpx, .cpy] ∧ (Instr.cpxImm 0x0A).mnemonic = .cpx ∧
      (Instr.cpyAbs 0x3000).mnemonic ∈ [Mnemonic.cmp, .cpx, .cpy] ∧ (Instr.cpyAbs 0x3000).mnemonic = .cpy := by decide

theorem witness_LoadsCopyTheOperand :
    (Instr.ldaIzy 0xFF).mnemonic ∈ [Mnemonic.lda, .ldx, .ldy] ∧ (Instr.ldaIzy 0xFF).mnemonic = .lda ∧
      (Instr.ldxZpy 0xFF).mnemonic ∈ [Mnemonic.lda, .ldx, .ldy] ∧ (Instr.ldxZpy 0xFF).mnemonic = .ldx ∧
      (Instr.ldyAbx 0xFFFF).mnemonic ∈ [Mnemonic.lda, .ldx, .ldy] ∧ (Instr.ldyAbx 0xFFFF).mnemonic = .ldy := by decide

theorem witness_IncAndDecCountInMemory :
    (Instr.incZpx 0xFF).mnemonic ∈ [Mnemonic.inc, .dec] ∧ (Instr.incZpx 0xFF).mnemonic = .inc ∧
      (Instr.decAbs 0x1234).mnemonic ∈ [Mnemonic.inc, .dec] ∧ (Instr.decAbs 0x1234).mnemonic = .dec := by decide

theorem witness_StoresWriteTheRegister :
    (Instr.staIzx 0xFF).mnemonic ∈ [Mnemonic.sta, .stx, .sty] ∧ (Instr.staIzx 0xFF).mnemonic = .sta ∧
      (Instr.stxZpy 0xF8).mnemonic ∈ [Mnemonic.sta, .stx, .sty] ∧ (Instr.stxZpy 0xF8).mnemonic = .stx ∧
      (Instr.styAbs 0x0200).mnemonic ∈ [Mnemonic.sta, .stx, .sty] ∧ (Instr.styAbs 0x0200).mnemonic = .sty := by decide

theorem witness_ShiftsAndRotatesMoveByOneBit :
    Instr.aslAcc.mnemonic ∈ [Mnemonic.asl, .lsr, .rol, .ror] ∧ Instr.aslAcc.mnemonic = .asl ∧
      Instr.aslAcc.mode = .accumulator ∧
      (Instr.lsrZp 0x10).mnemonic ∈ [Mnemonic.asl, .lsr, .rol, .ror] ∧ (Instr.lsrZp 0x10).mnemonic = .lsr ∧
      (Instr.lsrZp 0x10).mode ≠ .accumulator ∧
      (Instr.rolZpx 0xF0).mnemonic ∈ [Mnemonic.asl, .lsr, .rol, .ror] ∧ (Instr.rolZpx 0xF0).mnemonic = .rol ∧
      (Instr.rorAbx 0x12FF).mnemonic ∈ [Mnemonic.asl, .lsr, .rol, .ror] ∧ (Instr.rorAbx 0x12FF).mnemonic = .ror := by
  decide

/-- The invariant and a step of each kind: an instruction, an unofficial opcode, a RESET, a memory write. -/
theorem witness_EveryStepKeepsTheInvariant :
    (Inv (codeAt 0x0200 [0x48]) ∧ ∃ t, step (codeAt 0x0200 [0x48]) = .next t) ∧
    (Inv (codeAt 0x0200 [0x02]) ∧ ∃ t, step (codeAt 0x0200 [0x02]) = .next t) ∧
    (Inv State.powerOn ∧ ∃ t, step State.powerOn = .next t) ∧
    (Inv (asked (.write 0xFFFF 0x00)) ∧ ∃ t, step (asked (.write 0xFFFF 0x00)) = .next t) :=
  ⟨⟨⟨by decide, by decide, by decide, trivial⟩, _, rfl⟩, ⟨⟨by decide, by decide, by decide, trivial⟩, _, rfl⟩,
    ⟨⟨rfl, fun h => absurd h (by decide), by decide, trivial⟩, _, rfl⟩,
    ⟨⟨by decide, by decide, by decide, trivial⟩, _, rfl⟩⟩

/-- Each register does change somewhere; A by a load and by a shift. -/
theorem witness_WhoWritesARegister :
    (afterExec (.ldaImm 0x01) cpu).A ≠ cpu.A ∧ (afterExec .rorAcc { cpu with P := 0x21 }).A ≠ cpu.A ∧
      (afterExec .inx cpu).X ≠ cpu.X ∧ (afterExec .dey cpu).Y ≠ cpu.Y ∧ (afterExec .pha cpu).S ≠ cpu.S ∧
      (afterExec (.bcc 0x05) cpu).PC ≠ cpu.PC ∧ (afterExec .rts cpu).PC ≠ cpu.PC := by decide

/-- Each flag does change somewhere. -/
theorem witness_WhoWritesAFlag :
    (∃ t, exec .sec cpu = .next t ∧ flagOf .c t.P ≠ flagOf .c cpu.P) ∧
    (∃ t, exec (.ldaImm 0x00) cpu = .next t ∧ flagOf .z t.P ≠ flagOf .z cpu.P) ∧
    (∃ t, exec .sei cpu = .next t ∧ flagOf .i t.P ≠ flagOf .i cpu.P) ∧
    (∃ t, exec .sed cpu = .next t ∧ flagOf .d t.P ≠ flagOf .d cpu.P) ∧
    (∃ t, exec .brk cpu = .next t ∧ flagOf .b t.P ≠ flagOf .b cpu.P) ∧
    (∃ t, exec (.adcImm 0x80) { cpu with A := 0x80 } = .next t ∧ flagOf .v t.P ≠ flagOf .v cpu.P) ∧
    (∃ t, exec .dex cpu = .next t ∧ flagOf .n t.P ≠ flagOf .n cpu.P) :=
  ⟨⟨_, rfl, by decide⟩, ⟨_, rfl, by decide⟩, ⟨_, rfl, by decide⟩, ⟨_, rfl, by decide⟩, ⟨_, rfl, by decide⟩,
    ⟨_, rfl, by decide⟩, ⟨_, rfl, by decide⟩⟩

/-- A store at the top of memory, and a push at the bottom of the stack page. -/
theorem witness_WhoWritesMemory :
    (∃ t, exec (.staAbs 0xFFFF) { cpu with A := 0x01 } = .next t ∧ t.byteAt 0xFFFF ≠ cpu.byteAt 0xFFFF) ∧
    ∃ t, exec .pha { cpu with A := 0x01, S := 0x00 } = .next t ∧ t.byteAt 0x0100 ≠ cpu.byteAt 0x0100 :=
  ⟨⟨_, rfl, by decide⟩, _, rfl, by decide⟩

theorem witness_InstructionsLeaveTheHostInterface : ∃ t, exec (.ldaIzy 0xFF) (asked .irq) = .next t :=
  ⟨_, rfl⟩

/-- The four operations. -/
theorem witness_AnyBusPlugsIn :
    State.powerOn.nextOp = .reset ∧ (asked .irq).resetSeen = true ∧ (asked .irq).nextOp ∈ [HostOp.irq, .nmi, .step] ∧
      (asked .nmi).resetSeen = true ∧ (asked .nmi).nextOp ∈ [HostOp.irq, .nmi, .step] ∧
      cpu.resetSeen = true ∧ cpu.nextOp ∈ [HostOp.irq, .nmi, .step] := by decide

/-- An entry that is a row of R57, one that is not, and an opcode without an entry. -/
theorem witness_AnyOpcodeMapPlugsIn :
    (codeAt 0x0200 [0x02]).resetSeen = true ∧ (codeAt 0x0200 [0x02]).nextOp = .step ∧
      otherMap.lookup ((codeAt 0x0200 [0x02]).answer 0 0x0200) = some ⟨0x02, .inx, .implied, 2⟩ ∧
      (codeAt 0xFFFE [0x03]).resetSeen = true ∧ (codeAt 0xFFFE [0x03]).nextOp = .step ∧
      otherMap.lookup ((codeAt 0xFFFE [0x03]).answer 0 0xFFFE) = some ⟨0x03, .inc, .absoluteY, 7⟩ ∧
      otherMap.lookup ((codeAt 0x0200 [0xE8]).answer 0 0x0200) = none := by decide

end Sys2Proof.Tests
end

/-! The open parameters of the core (spec/00_scope.md R4): the opcode map and the bus. An operation, from the state in
which it starts, is one total function, `operation`. What a step does with any opcode map is read off it, and that it
can be run on any bus in exactly one way (`Serves`) is shown of it once. -/

namespace Sys2Proof

open Machine

/-- `STEP` after the opcode fetch, at an opcode that has the entry `e`: its operand bytes, the dispatch, the return. -/
def runEntry (e : DecodeEntry) (s : State) : State :=
  let r := fetchBytes e.mode.operandBytes s
  ((dispatch e.mnemonic e.mode r.1 r.2).getD r.2).returnCycles e.cycles

/-- `STEP` after the fetch of the opcode `op` at `a`. -/
def runOpcode (om : OpcodeMap) (a : Word) (op : Byte) (s : State) : State :=
  match om.lookup op with
  | none => s.signalUnofficial op a
  | some e => runEntry e s

/-- `STEP` from the state in which it starts. -/
def runStep (om : OpcodeMap) (s : State) : State :=
  runOpcode om s.PC (fetch8 s).1 (fetch8 s).2

/-- Each operation of the core from the state in which it starts; the host's other moves are none. -/
def operation (om : OpcodeMap) : HostOp → State → State
  | .reset, s => jumpThrough resetVector
      { s with A := 0x00, X := 0x00, Y := 0x00, S := 0xFF, P := 0x20, resetSeen := true }
  | .irq, s => if s.flag .i then s else takeTrap false true irqVector s
  | .nmi, s => takeTrap false true nmiVector s
  | .step, s => runStep om s
  | .write _ _, s => s
  | .busError, s => s

/-! ## A step is its operation -/

theorem fetchBytes_length (n : Nat) (s : State) : (fetchBytes n s).1.length = n := by
  rw [fetchBytes_eq, bytesFrom_length]

/-- The dispatch answers for every entry of an opcode map (R60, R82). -/
theorem dispatch_of_lookup {om : OpcodeMap} {op : Byte} {e : DecodeEntry} (h : om.lookup op = some e) (s : State) :
    ∃ u, dispatch e.mnemonic e.mode
      (fetchBytes e.mode.operandBytes s).1 (fetchBytes e.mode.operandBytes s).2 = some u :=
  dispatch_isSome (OpcodeMap.entry_wf (OpcodeMap.lookup_eq_some h).1).1 (fetchBytes_length _ _) _

/-- Whether the entry is a row of R57 or not, `STEP` dispatches on its mnemonic and mode. -/
theorem opStep_eq (om : OpcodeMap) (s : State) : opStep om s = .next (runStep om s.beginOp) := by
  cases h : om.lookup (fetch8 s.beginOp).1 with
  | none => simp only [opStep, fetchInstr, runStep, runOpcode, h, beginOp_PC]
  | some e =>
    obtain ⟨u, hu⟩ := dispatch_of_lookup h (fetch8 s.beginOp).2
    cases ha : assemble e.mnemonic e.mode (fetchBytes e.mode.operandBytes (fetch8 s.beginOp).2).1 with
    | none => simp only [opStep, fetchInstr, runStep, runOpcode, runEntry, h, ha, hu, Option.getD_some]
    | some i =>
      obtain ⟨t, ht, hx⟩ := exec_eq_dispatch ha (fetchBytes e.mode.operandBytes (fetch8 s.beginOp).2).2
      obtain rfl : u = t := Option.some.inj (hu.symm.trans ht)
      simp only [opStep, fetchInstr, runStep, runOpcode, runEntry, h, ha, hu, hx, mapNext, Option.getD_some]

/-- The states in which the next move is an operation of the core that the model does not refuse (R27, D2). -/
def OperationNext (s : State) : Prop :=
  s.nextOp = .reset ∨ (s.resetSeen = true ∧ s.nextOp ∈ [HostOp.irq, .nmi, .step])

theorem stepWith_eq_operation (om : OpcodeMap) {s : State} (h : OperationNext s) :
    stepWith om s = .next (operation om s.nextOp s.popOp.beginOp) := by
  simp only [OperationNext, List.mem_cons, List.not_mem_nil, or_false] at h
  rcases h with h | ⟨hr, h | h | h⟩
  · simp only [stepWith, h]; rfl
  · simp only [stepWith, h, hr, if_true]; rfl
  · simp only [stepWith, h, hr, if_true]; rfl
  · simp only [stepWith, h, hr, if_true]; exact opStep_eq om s.popOp

/-! ## Every operation can be run on any bus -/

theorem serves_dispatch (mn : Mnemonic) (md : Mode) (ops : List Byte) (s : State) :
    Serves (fun u => ((), (dispatch mn md ops u).getD u)) s := by
  unfold dispatch
  cases operandForm md ops with
  | none => exact serves_update (g := id) rfl rfl (fun _ => rfl)
  | some f => exact serves_execute mn f s

theorem serves_runEntry (e : DecodeEntry) (s : State) : Serves (fun u => ((), runEntry e u)) s :=
  serves_bind (serves_fetchBytes e.mode.operandBytes s) fun ops t =>
    serves_then (g := fun _ u => u.returnCycles e.cycles) (serves_dispatch e.mnemonic e.mode ops t)
      (fun _ _ => rfl) (fun _ _ => rfl) (fun _ _ _ => rfl)

theorem serves_runOpcode (om : OpcodeMap) (a : Word) (op : Byte) (s : State) :
    Serves (fun u => ((), runOpcode om a op u)) s := by
  unfold runOpcode
  cases om.lookup op with
  | none => exact serves_update rfl rfl (fun _ => rfl)
  | some e => exact serves_runEntry e s

theorem serves_runStep (om : OpcodeMap) (s : State) : Serves (fun u => ((), runStep om u)) s :=
  serves_look (p := State.PC) (f := fun a u => ((), runOpcode om a (fetch8 u).1 (fetch8 u).2)) (fun _ => rfl)
    (serves_bind (serves_fetch8 s) (fun op t => serves_runOpcode om s.PC op t))

theorem serves_operation (om : OpcodeMap) (op : HostOp) (s : State) :
    Serves (fun u => ((), operation om op u)) s := by
  cases op with
  | reset =>
    exact serves_bind
      (f := fun u => ((), { u with A := 0x00, X := 0x00, Y := 0x00, S := 0xFF, P := 0x20, resetSeen := true }))
      (g := fun _ u => ((), jumpThrough resetVector u)) (serves_update rfl rfl (fun _ => rfl))
      (fun _ t => serves_jumpThrough _ t)
  | irq =>
    refine serves_look (p := fun u => u.flag .i)
      (f := fun i u => ((), if i then u else takeTrap false true irqVector u)) (fun _ => rfl) ?_
    cases s.flag .i
    · exact serves_takeTrap _ _ _ s
    · exact serves_update (g := id) rfl rfl (fun _ => rfl)
  | nmi => exact serves_takeTrap _ _ _ s
  | step => exact serves_runStep om s
  | write _ _ => exact serves_update (g := id) rfl rfl (fun _ => rfl)
  | busError => exact serves_update (g := id) rfl rfl (fun _ => rfl)

/-! ## A step on a bus -/

/-- The answers of the bus are no part of what the operation is or where it starts. -/
theorem stepWith_answers (om : OpcodeMap) {s : State} (h : OperationNext s) (a : List (Option Byte)) :
    stepWith om { s with answers := a } = .next (operation om s.nextOp { s.popOp.beginOp with answers := a }) :=
  stepWith_eq_operation om (s := { s with answers := a }) h

/-- A run with exactly the answers that it uses. -/
theorem RunsAs.exact {α : Type} {f : State → α × State} {s t : State} {l : List Byte} {x : α} {acc : List BusAccess}
    (h : RunsAs f s l x t acc) : f { s with answers := l.map some } = (x, { t with answers := [] }) := by
  have hrun := h.2 []
  rwa [List.append_nil] at hrun

/-- The record of accesses starts empty, so a run from there records its own accesses only. -/
theorem RunsAs.bus_eq {α : Type} {f : State → α × State} {s t : State} {l : List Byte} {x : α} {acc : List BusAccess}
    (h : RunsAs f s.beginOp l x t acc) : t.bus = acc := h.1

/-- A run of the operation on the answers that the bus gives to its accesses is a step on that bus. -/
theorem stepOn_of_runsAs {om : OpcodeMap} {σ : Type} {b : Bus σ} {q q' : σ} {s t : State} {l : List Byte} {x : Unit}
    {acc : List BusAccess} (h : OperationNext s)
    (hr : RunsAs (fun u => ((), operation om s.nextOp u)) s.popOp.beginOp l x t acc) (hq : b.serve q acc = (l, q')) :
    StepOn om b s q { t with answers := [] } q' := by
  refine ⟨l, ?_, rfl, ?_⟩
  · rw [stepWith_answers om h]
    exact congrArg (fun r => Host.Outcome.next r.2) hr.exact
  · rwa [hr.bus_eq]

/-- A step on a bus is the operation on the answers that the bus gives to the accesses recorded. -/
theorem operation_of_stepOn {om : OpcodeMap} {σ : Type} {b : Bus σ} {q q' : σ} {s t : State} (h : OperationNext s)
    (hon : StepOn om b s q t q') :
    ∃ l : List Byte, operation om s.nextOp { s.popOp.beginOp with answers := l.map some } = t ∧
      b.serve q t.bus = (l, q') := by
  obtain ⟨l, hstep, -, hserve⟩ := hon
  rw [stepWith_answers om h, Host.Outcome.next.injEq] at hstep
  exact ⟨l, hstep, hserve⟩

/-- The operation makes its accesses one by one, each answered by the bus, so there is one way to run it (D7). -/
theorem existsUnique_stepOn (om : OpcodeMap) {σ : Type} (b : Bus σ) (q : σ) {s : State} (h : OperationNext s) :
    ∃ t q', StepOn om b s q t q' ∧ ∀ t₂ q₂, StepOn om b s q t₂ q₂ → t₂ = t ∧ q₂ = q' := by
  obtain ⟨l, x, t, acc, hr, hl, huniq⟩ := (serves_operation om s.nextOp s.popOp.beginOp).any σ b q
  refine ⟨{ t with answers := [] }, (b.serve q acc).2, stepOn_of_runsAs h hr (by rw [← hl]), fun t₂ q₂ hon₂ => ?_⟩
  obtain ⟨l₂, hrun₂, hserve₂⟩ := operation_of_stepOn h hon₂
  have hl₂ : l₂ = l :=
    huniq l₂ [] t₂.bus (by rw [List.append_nil]; exact congrArg State.bus hrun₂) (by rw [hserve₂])
  have ht₂ : t₂ = { t with answers := [] } := by
    rw [← hrun₂, hl₂]
    exact congrArg Prod.snd hr.exact
  have hbus₂ : t₂.bus = acc := by rw [ht₂, ← hr.bus_eq]
  exact ⟨ht₂, by rw [← hbus₂, hserve₂]⟩

/-- On the flat RAM the answers of the bus are the bytes of the memory that the state holds (R31). -/
theorem stepOn_flatRam (om : OpcodeMap) {s : State} (h : OperationNext s) :
    ∃ t, stepWith om { s with answers := [] } = .next t ∧ StepOn om flatRam s s.mem t t.mem := by
  obtain ⟨l, x, t, acc, hr, hserve, hnil⟩ := (serves_operation om s.nextOp s.popOp.beginOp).ram
  refine ⟨{ t with answers := [] }, ?_, stepOn_of_runsAs h hr hserve⟩
  rw [stepWith_answers om h]
  exact congrArg (fun r => Host.Outcome.next r.2) hnil

/-- Settles O59: an operation is built of single accesses, so it can be run on any bus in exactly one way. -/
theorem anyBusPlugsIn : Obligations.AnyBusPlugsIn :=
  fun om _ b q _ h => ⟨existsUnique_stepOn om b q h, stepOn_flatRam om h⟩

/-! ## A step with any opcode map -/

/-- After the opcode, the operand bytes: what `Execute` is given and the state in which it starts (R66, R67). -/
theorem fetchBytes_fetch8 {n : Nat} (hn : n ≤ 2) (s : State) :
    fetchBytes n (fetch8 s).2 = ((bytesAtPC s).tail.take n,
      { s with
        PC := s.PC + BitVec.ofNat 16 (1 + n)
        answers := s.answers.drop (1 + n)
        bus := s.bus ++ fetchReads s.PC (1 + n) }) := by
  rw [bytesAtPC_eq, List.tail_cons, bytesFrom_take _ _ _ hn, fetchBytes_eq, fetch8_eq]
  simp only [bytesFrom_tail, pc_add_succ, List.drop_tail, List.append_assoc, List.singleton_append, Nat.add_comm 1,
    fetchReads]

/-- With an entry for the opcode at PC, `STEP` is the dispatch of R82 on it, after the fetch (R65). -/
theorem stepWith_of_lookup {om : OpcodeMap} {s : State} {e : DecodeEntry} (hr : s.resetSeen = true)
    (ho : s.nextOp = .step) (h : om.lookup (s.answer 0 s.PC) = some e) :
    ∃ u, dispatch e.mnemonic e.mode ((bytesAtPC s).tail.take e.mode.operandBytes)
        (afterFetchOf s (1 + e.mode.operandBytes)) = some u ∧
      stepWith om s = .next { u with out := some { cycles := e.cycles, unofficial := none } } := by
  have hlookup : om.lookup (fetch8 s.popOp.beginOp).1 = some e := h
  have hfetch : fetchBytes e.mode.operandBytes (fetch8 s.popOp.beginOp).2 =
      ((bytesAtPC s).tail.take e.mode.operandBytes, afterFetchOf s (1 + e.mode.operandBytes)) :=
    fetchBytes_fetch8 (operandBytes_le e.mode) s.popOp.beginOp
  obtain ⟨u, hu⟩ := dispatch_of_lookup h (fetch8 s.popOp.beginOp).2
  rw [hfetch] at hu
  refine ⟨u, hu, ?_⟩
  rw [stepWith_eq_operation om (.inr ⟨hr, by simp [ho]⟩), ho]
  simp only [operation, runStep, runOpcode, hlookup, runEntry, hfetch, hu, Option.getD_some, State.returnCycles]

/-- With no entry, `STEP` skips the opcode as unofficial (R166). -/
theorem stepWith_of_unofficial {om : OpcodeMap} {s : State} (hr : s.resetSeen = true)
    (ho : s.nextOp = .step) (h : om.lookup (s.answer 0 s.PC) = none) :
    stepWith om s = .next { s with
      PC := s.PC + 1
      answers := s.answers.drop 1
      bus := [.read s.PC]
      out := some { cycles := 1, unofficial := some { opcode := s.answer 0 s.PC, addr := s.PC } }
      host := s.host.tail
      unofficialSeen := true } := by
  have hlookup : om.lookup (fetch8 s.popOp.beginOp).1 = none := h
  rw [stepWith_eq_operation om (.inr ⟨hr, by simp [ho]⟩), ho, List.drop_one]
  simp only [operation, runStep, runOpcode, hlookup]
  rfl

/-- The check of R60 decides whether a table is taken as an opcode map. -/
theorem ofTable_entries (t : List DecodeEntry) :
    (OpcodeMap.ofTable t).map OpcodeMap.entries = if tableWf t then some t else none := by
  unfold OpcodeMap.ofTable
  by_cases h : tableWf t = true
  · rw [dif_pos h, if_pos h, Option.map_some]
  · rw [dif_neg h, if_neg h, Option.map_none]

/-- Settles O60, from what `STEP` does with an entry and without one. -/
theorem anyOpcodeMapPlugsIn : Obligations.AnyOpcodeMapPlugsIn :=
  ⟨fun _ _ hr ho => ⟨fun _ h => stepWith_of_lookup hr ho h, fun h => stepWith_of_unofficial hr ho h⟩,
    ofTable_entries, fun _ => rfl, rfl⟩

end Sys2Proof

/-! State and flags (10_state.md): when a step stops, what SetNZ writes, and which instructions write which flag. -/

namespace Sys2Proof

open Machine

/-! ## How a step stops -/

theorem stepWith_of_busError (om : OpcodeMap) {s : State} (h : s.nextOp = .busError) :
    stepWith om s = .fault .busError := by
  simp only [stepWith, h]

/-- The states in which the next move is an operation that the model refuses (R27, D2). -/
def RefusedNext (s : State) : Prop :=
  s.resetSeen = false ∧ s.nextOp ∈ [HostOp.step, .irq, .nmi]

theorem stepWith_of_refusedNext (om : OpcodeMap) {s : State} (h : RefusedNext s) :
    stepWith om s = .refused .beforeFirstReset := by
  obtain ⟨hr, ho⟩ := h
  simp only [List.mem_cons, List.not_mem_nil, or_false] at ho
  rcases ho with ho | ho | ho <;> simp [stepWith, ho, hr]

/-- Every operation that is not refused can be made. -/
theorem operationNext_or_refusedNext {s : State} (h : s.nextOp ∈ [HostOp.step, .irq, .nmi]) :
    OperationNext s ∨ RefusedNext s := by
  cases hr : s.resetSeen with
  | false => exact .inr ⟨hr, h⟩
  | true =>
    refine .inl (.inr ⟨hr, ?_⟩)
    simp only [List.mem_cons, List.not_mem_nil, or_false] at h ⊢
    tauto

/-- A step goes on unless the bus fails or the move is refused: an operation is total, and so is a memory write. -/
theorem stepWith_next_or_stops (om : OpcodeMap) (s : State) :
    (∃ t, stepWith om s = .next t) ∨ s.nextOp = .busError ∨ RefusedNext s := by
  have next_of_operation (h : OperationNext s) : ∃ t, stepWith om s = .next t := ⟨_, stepWith_eq_operation om h⟩
  cases ho : s.nextOp with
  | reset => exact .inl (next_of_operation (.inl ho))
  | irq | nmi | step =>
    exact (operationNext_or_refusedNext (by simp [ho])).imp next_of_operation .inr
  | write a v => exact .inl ⟨opWrite a v s.popOp, by simp only [stepWith, ho]⟩
  | busError => exact .inr (.inl rfl)

theorem stepWith_eq_fault_iff (om : OpcodeMap) (s : State) (r : Fault) :
    stepWith om s = .fault r ↔ s.nextOp = .busError ∧ r = .busError := by
  constructor
  · intro h
    refine ⟨?_, by cases r; rfl⟩
    rcases stepWith_next_or_stops om s with ⟨t, ht⟩ | hb | hr
    · cases h.symm.trans ht
    · exact hb
    · cases h.symm.trans (stepWith_of_refusedNext om hr)
  · rintro ⟨hb, rfl⟩
    exact stepWith_of_busError om hb

theorem stepWith_eq_refused_iff (om : OpcodeMap) (s : State) (r : Refusal) :
    stepWith om s = .refused r ↔ RefusedNext s ∧ r = .beforeFirstReset := by
  constructor
  · intro h
    rcases stepWith_next_or_stops om s with ⟨t, ht⟩ | hb | hr
    · cases h.symm.trans ht
    · cases h.symm.trans (stepWith_of_busError om hb)
    · exact ⟨hr, Host.Outcome.refused.inj (h.symm.trans (stepWith_of_refusedNext om hr))⟩
  · rintro ⟨hr, rfl⟩
    exact stepWith_of_refusedNext om hr

/-- Settles O11, from the three ways a step with any opcode map can end. -/
theorem stepStopsOnlyBeforeResetOrOnABusFailure : Obligations.StepStopsOnlyBeforeResetOrOnABusFailure :=
  fun s => ⟨stepWith_eq_fault_iff _ s, fun r => (stepWith_eq_refused_iff _ s r).trans and_assoc⟩

/-! ## SetNZ -/

/-- Settles O31: SetNZ is a write of Z and a write of N. -/
theorem setNzWritesZeroAndNegative : Obligations.SetNzWritesZeroAndNegative :=
  fun v s => ⟨_, setNZ_eq v s, showsNZ_setNZ v s,
    keepsExcept_setNZ (by decide) (by decide) v (keepsExcept_refl _ _)⟩

/-! ## Who writes a flag -/

/-- The mnemonics in the columns "Set or computed by" and "Cleared by" of R18. -/
def Machine.Flag.writers : Flag → List Mnemonic
  | .c => [.sec, .clc, .adc, .sbc, .cmp, .cpx, .cpy, .asl, .rol, .lsr, .ror, .plp, .rti]
  | .z | .n => [.dex, .dey, .inx, .iny, .tax, .tay, .txa, .tya, .tsx, .pla, .adc, .sbc, .and, .eor, .ora, .cmp, .cpx,
    .cpy, .lda, .ldx, .ldy, .inc, .dec, .asl, .lsr, .rol, .ror, .bit, .plp, .rti]
  | .i => [.sei, .cli, .plp, .rti]
  | .d => [.sed, .cld, .plp, .rti]
  | .b => [.brk, .plp, .rti]
  | .v => [.adc, .sbc, .bit, .clv, .plp, .rti]

/-- PLP and RTI write the whole of P (R18, R19). -/
theorem writesP_mem_writers {mn : Mnemonic} (h : mn ∈ [Mnemonic.plp, .rti]) (f : Flag) : mn ∈ f.writers := by
  simp only [List.mem_cons, List.not_mem_nil, or_false] at h
  rcases h with rfl | rfl <;> cases f <;> decide

section

variable {mn : Mnemonic} {f : Flag} (hf : mn ∉ f.writers)

include hf

/-- A flag that `mn` does not write is kept by a write of a flag that it does write. -/
theorem flagOf_setFlag_of_not_writer {g : Flag} (hg : mn ∈ g.writers) (b : Bool) (s : State) :
    flagOf f (s.setFlag g b).P = flagOf f s.P := by
  have hne : f ≠ g := fun e => hf (e ▸ hg)
  rw [setFlag_P, flagOf_putFlag, if_neg hne]

theorem flagOf_setNZ_of_not_writer (hz : mn ∈ Flag.z.writers) (v : Byte) (s : State) :
    flagOf f (s.setNZ v).P = flagOf f s.P :=
  (flagOf_setFlag_of_not_writer hf (g := .n) hz _ _).trans (flagOf_setFlag_of_not_writer hf hz _ _)

/-- C, then N and Z: a comparison and a shift. -/
theorem flagOf_setCarryNZ_of_not_writer (hc : mn ∈ Flag.c.writers) (hz : mn ∈ Flag.z.writers) (b : Bool) (v : Byte)
    (s : State) : flagOf f ((s.setFlag .c b).setNZ v).P = flagOf f s.P :=
  (flagOf_setNZ_of_not_writer hf hz _ _).trans (flagOf_setFlag_of_not_writer hf hc _ _)

/-- C, V, then N and Z: ADC and SBC. -/
theorem flagOf_setCarryOverflowNZ_of_not_writer (hc : mn ∈ Flag.c.writers) (hv : mn ∈ Flag.v.writers)
    (hz : mn ∈ Flag.z.writers) (b o : Bool) (v : Byte) (s : State) :
    flagOf f (((s.setFlag .c b).setFlag .v o).setNZ v).P = flagOf f s.P :=
  (flagOf_setNZ_of_not_writer hf hz _ _).trans <|
    (flagOf_setFlag_of_not_writer hf hv _ _).trans (flagOf_setFlag_of_not_writer hf hc _ _)

theorem flagOf_bitFlags_of_not_writer (hz : mn ∈ Flag.z.writers) (hv : mn ∈ Flag.v.writers) (m : Byte) (s : State) :
    flagOf f (s.bitFlags m).P = flagOf f s.P :=
  (flagOf_setFlag_of_not_writer hf hz _ _).trans <|
    (flagOf_setFlag_of_not_writer hf hv _ _).trans (flagOf_setFlag_of_not_writer hf (g := .n) hz _ _)

/-- BRK's trap entry writes B and no other flag (R112, R175). -/
theorem flagOf_takeTrap_of_not_writer (hb : mn ∈ Flag.b.writers) (b : Bool) (s : State) :
    flagOf f (takeTrap b false irqVector s).P = flagOf f s.P := by
  obtain ⟨m, htrap, -⟩ := takeTrap_eq b false irqVector s (by decide) (by decide)
  rw [htrap]
  exact flagOf_setFlag_of_not_writer hf hb b s

/-- The rules not named here write no flag; so also in the two lemmas that follow. -/
theorem commandRule_flagOf (s : State) : flagOf f (mn.commandRule s).P = flagOf f s.P := by
  cases mn with
  | clc | cld | cli | clv | sec | sed | sei => exact flagOf_setFlag_of_not_writer hf (by decide) _ _
  | dex | dey | inx | iny | tax | tay | txa | tya | tsx => exact flagOf_setNZ_of_not_writer hf (by decide) _ _
  | pla => exact flagOf_setNZ_of_not_writer hf (by decide) _ (pop8 s).2
  | brk => exact flagOf_takeTrap_of_not_writer hf (by decide) _ _
  | plp | rti => exact absurd (writesP_mem_writers (by decide) f) hf
  | _ => rfl

theorem argumentRule_flagOf (m : Byte) (s : State) : flagOf f (mn.argumentRule m s).P = flagOf f s.P := by
  cases mn with
  | adc | sbc => exact flagOf_setCarryOverflowNZ_of_not_writer hf (by decide) (by decide) (by decide) _ _ _ _
  | cmp | cpx | cpy => exact flagOf_setCarryNZ_of_not_writer hf (by decide) (by decide) _ _ _
  | and | eor | ora | lda | ldx | ldy => exact flagOf_setNZ_of_not_writer hf (by decide) _ _
  | bit => exact flagOf_bitFlags_of_not_writer hf (by decide) (by decide) _ _
  | _ => rfl

theorem memoryRule_flagOf (ea : Word) (s : State) : flagOf f (mn.memoryRule ea s).P = flagOf f s.P := by
  cases mn with
  | inc | dec => exact flagOf_setNZ_of_not_writer hf (by decide) _ (memWrite ea _ (memRead ea s).2)
  | _ => rfl

end

/-- Every AccumulatorWrite mnemonic writes C, Z and N (R157 to R160). -/
theorem shift_mem_writers {mn : Mnemonic} (h : mn.category = .accumulatorWrite) :
    mn ∈ Flag.c.writers ∧ mn ∈ Flag.z.writers := by
  cases mn with
  | asl | lsr | rol | ror => decide
  | _ => cases h

/-- A flag keeps its value through every instruction that R18 does not list for it. -/
theorem exec_flagOf_of_not_writer {i : Instr} {s t : State} (h : exec i s = .next t) {f : Flag}
    (hf : i.mnemonic ∉ f.writers) : flagOf f t.P = flagOf f s.P := by
  have eq_of_exec {u : State} (hu : exec i s = .next u) : t = u := Host.Outcome.next.inj (h.symm.trans hu)
  cases hcat : i.mnemonic.category with
  | command => rw [eq_of_exec (exec_command hcat s), commandRule_flagOf hf]
  | branch =>
    obtain ⟨d, c, -, -, hexec⟩ := exec_branch hcat s
    rw [eq_of_exec hexec, branchIf_eq]
  | argument =>
    obtain ⟨m, -, hexec⟩ := exec_argument hcat s
    rw [eq_of_exec hexec, argumentRule_flagOf hf]
  | memoryWrite =>
    obtain ⟨ea, -, hexec⟩ := exec_memoryWrite hcat s
    rw [eq_of_exec hexec, memoryRule_flagOf hf]
  | accumulatorWrite =>
    obtain ⟨hc, hz⟩ := shift_mem_writers hcat
    rcases exec_shift hcat s with ⟨-, -, hexec⟩ | ⟨am, -, -, -, -, hexec⟩
    · rw [eq_of_exec hexec, shiftAccumulator_eq]
      exact flagOf_setCarryNZ_of_not_writer hf hc hz _ _ _
    · rw [eq_of_exec hexec, shiftMemory_eq]
      exact flagOf_setCarryNZ_of_not_writer hf hc hz _ _ _

theorem mem_writers_of_flag_changed {i : Instr} {s t : State} (h : exec i s = .next t) {f : Flag}
    (hne : flagOf f t.P ≠ flagOf f s.P) : i.mnemonic ∈ f.writers :=
  Decidable.byContradiction fun hf => hne (exec_flagOf_of_not_writer h hf)

/-- Settles O56, from what each category's rules keep of P. -/
theorem whoWritesAFlag : Obligations.WhoWritesAFlag := by
  intro i s t h
  have changed (f : Flag) : flagOf f t.P ≠ flagOf f s.P → i.mnemonic ∈ f.writers := mem_writers_of_flag_changed h
  exact ⟨changed .c, changed .z, changed .i, changed .d, changed .b, changed .v, changed .n⟩

end Sys2Proof

/-! The stack ring and the memory behind the bus (20_memory.md): what a push and then a pull restores, and memory as the
replay of the writes that an operation records. -/

namespace Sys2Proof

open Machine

/-! ## The slots of the ring -/

theorem stackSlot_inj (s : State) {j k : Byte} : stackSlot s j = stackSlot s k ↔ j = k := by
  rw [stackSlot_eq, stackSlot_eq, stackAddr_inj]
  exact BitVec.add_right_inj _

/-- Every slot is in page 1 (R43). -/
theorem stackAddr_pageOne (sp : Byte) : 0x0100 ≤ (stackAddr sp).toNat ∧ (stackAddr sp).toNat ≤ 0x01FF := by
  have hlt := sp.isLt
  rw [stackAddr_toNat]
  omega

theorem stackAddr_sub_one_ne (sp : Byte) : stackAddr (sp - 1) ≠ stackAddr sp := by
  rw [Ne, stackAddr_inj]
  bv_omega

/-! ## A push, then a pop -/

/-- Settles O26, from what each helper does to the whole state. -/
theorem stackHelpersPushAndPop : Obligations.StackHelpersPushAndPop :=
  fun s v _ => ⟨⟨_, push8_eq v s, fun a => get_put_word s.mem (stackAddr s.S) a v⟩, ⟨_, pop8_eq s⟩, rfl, rfl, rfl⟩

@[simp] theorem push8_S (v : Byte) (s : State) : (push8 v s).S = s.S - 1 := rfl

theorem push8_byteAt (v : Byte) (s : State) (a : Word) :
    (push8 v s).byteAt a = if a = stackAddr s.S then v else s.byteAt a :=
  get_put_word s.mem (stackAddr s.S) a v

/-- The high byte lies above the low byte in the ring (R41). -/
theorem push16_byteAt_high (w : Word) (s : State) : (push16 w s).byteAt (stackAddr s.S) = hiByte w := by
  rw [push16, push8_byteAt, push8_S, push8_byteAt, if_neg (stackAddr_sub_one_ne s.S).symm, if_pos rfl]

theorem push16_byteAt_low (w : Word) (s : State) : (push16 w s).byteAt (stackAddr (s.S - 1)) = loByte w := by
  rw [push16, push8_byteAt]
  exact if_pos rfl

/-- A pop reads where the push before it wrote, and S is as before (R39, R40). -/
theorem pop8_push8 (v : Byte) (s : State) :
    pop8 (push8 v s) = ((push8 v s).answer 0 (stackAddr s.S),
      { s with
        mem := (push8 v s).mem
        answers := s.answers.tail
        bus := s.bus ++ [.write (stackAddr s.S) v, .read (stackAddr s.S)] }) := by
  have hS : s.S - 1#8 + 1#8 = s.S := BitVec.sub_add_cancel _ _
  simp [pop8_eq, push8_eq, hS]

/-- The same for a word (R41, R42). -/
theorem pop16_push16 (w : Word) (s : State) :
    pop16 (push16 w s) = (mkWord ((push16 w s).answer 1 (stackAddr s.S)) ((push16 w s).answer 0 (stackAddr (s.S - 1))),
      { s with
        mem := (push16 w s).mem
        answers := s.answers.drop 2
        bus := s.bus ++ [.write (stackAddr s.S) (hiByte w), .write (stackAddr (s.S - 1)) (loByte w),
          .read (stackAddr (s.S - 1)), .read (stackAddr s.S)] }) := by
  have hS : s.S - 2#8 + 2#8 = s.S := BitVec.sub_add_cancel _ _
  have hS' : s.S - 2#8 + 1#8 = s.S - 1#8 := by bv_omega
  simp [pop16_eq, push16_eq, hS, hS']

/-- On the reference bus a pop answers the byte pushed before it (R31). -/
theorem OnRam.pop8_push8 {s : State} (h : OnRam s) (v : Byte) : (pop8 (push8 v s)).1 = v := by
  have hram : OnRam (push8 v s) := h
  rw [Sys2Proof.pop8_push8, hram.answer, push8_byteAt, if_pos rfl]

theorem OnRam.pop16_push16 {s : State} (h : OnRam s) (w : Word) : (pop16 (push16 w s)).1 = w := by
  have hram : OnRam (push16 w s) := h
  rw [Sys2Proof.pop16_push16, hram.answer, hram.answer, push16_byteAt_high, push16_byteAt_low, mkWord_hiByte_loByte]

/-- Settles O27: at the two ends of the ring S wraps, and a pop after a push reads the byte just written. -/
theorem stackIsARingInPageOne : Obligations.StackIsARingInPageOne := by
  intro s v w
  refine ⟨fun hS => ?_, fun hS => ?_, fun h => ⟨h.pop8_push8 v, h.pop16_push16 w⟩, by rw [pop8_push8],
    by rw [pop16_push16], rfl, rfl, stackAddr s.S, rfl, by rw [pop8_push8], stackAddr_pageOne s.S⟩
  · have htop : stackAddr s.S = 0x0100 := by rw [hS]; rfl
    have hwrapped : stackAddr (s.S - 1) = 0x01FF := by rw [hS]; rfl
    rw [← htop, ← hwrapped]
    refine ⟨?_, ?_, push16_byteAt_high w s, push16_byteAt_low w s⟩
    · rw [push8_byteAt, if_pos rfl]
    · rw [push8_eq, hS]; rfl
  · have hwrapped : stackAddr (s.S + 1) = 0x0100 := by rw [hS]; rfl
    rw [pop8_eq, hwrapped, hS]
    exact ⟨rfl, rfl, rfl⟩

/-! ## Instructions that push, then instructions that pull -/

/-- Bit 5 is forced by the push and again by WriteP (R17, R19). -/
theorem or_bit5_or_bit5 (p : Byte) : p ||| bit5 ||| bit5 = p ||| bit5 := by
  rw [BitVec.or_assoc, BitVec.or_self]

/-- Settles O25: the byte pulled is the byte pushed. -/
theorem pushThenPullRestores : Obligations.PushThenPullRestores := by
  intro s t u hram
  constructor
  · rintro ⟨⟩ ⟨⟩
    rw [hram.pop8_push8, pop8_push8]
    exact ⟨rfl, rfl, showsNZ_setNZ _ _, keepsExcept_setNZ (by decide) (by decide) _ (keepsExcept_refl _ _)⟩
  · rintro ⟨⟩ ⟨⟩
    rw [hram.pop8_push8, pop8_push8]
    exact ⟨rfl, or_bit5_or_bit5 s.P, rfl⟩

/-- A pop of a word looks at the stack, not at PC. -/
theorem pop16_setPC (pc : Word) (s : State) :
    pop16 { s with PC := pc } = ((pop16 s).1, { (pop16 s).2 with PC := pc }) := rfl

/-- The word that JSR pushed comes back, and the registers but PC are as before (R114, R148). -/
theorem OnRam.pop16_callSub {s : State} (h : OnRam s) (w : Word) : ∃ m l b,
    pop16 (callSub w s) = (s.PC - 1, { s with PC := w, mem := m, answers := l, bus := b }) := by
  rw [callSub, pop16_setPC, h.pop16_push16, Sys2Proof.pop16_push16]
  exact ⟨_, _, _, rfl⟩

/-- Settles O24: RTS pulls the word that JSR pushed, one less than the PC before it. -/
theorem jsrThenRtsReturns : Obligations.JsrThenRtsReturns := by
  intro s t u w hram ht hu
  obtain rfl : callSub w s = t := Host.Outcome.next.inj ht
  obtain ⟨m, l, b, hpull⟩ := hram.pop16_callSub w
  obtain rfl : { (pop16 (callSub w s)).2 with PC := (pop16 (callSub w s)).1 + 1 } = u := Host.Outcome.next.inj hu
  rw [hpull]
  exact ⟨rfl, BitVec.sub_add_cancel _ _, rfl, rfl, rfl, rfl, rfl⟩

/-! ## A trap, then the return from it -/

theorem keepsExcept_or_bit5 {fs : List Flag} {p q : Byte} (h : keepsExcept fs p q) :
    keepsExcept fs (p ||| bit5) (q ||| bit5) := by
  intro k hk hf
  rw [or_bit5_getLsbD, or_bit5_getLsbD, h k hk hf]

section

variable {s : State} {p : Byte} {m : List Host.Cell} (h : TrapFrame s p m)

include h

theorem TrapFrame.high : Memory.get m (stackSlot s 0).toNat = hiByte s.PC := by
  rw [h, if_pos rfl]

theorem TrapFrame.low : Memory.get m (stackSlot s (-1)).toNat = loByte s.PC := by
  rw [h, if_neg (by rw [stackSlot_inj]; decide), if_pos rfl]

theorem TrapFrame.status : Memory.get m (stackSlot s (-2)).toNat = p := by
  rw [h, if_neg (by rw [stackSlot_inj]; decide), if_neg (by rw [stackSlot_inj]; decide), if_pos rfl]

end

/-- The return from the frame that a trap entry in `s` left in memory: P as pushed, PC and S as in `s` (R113, R176). -/
theorem returnFromTrap_of_frame {s t : State} {p : Byte} (hram : OnRam t) (hS : t.S = s.S - 3)
    (hframe : TrapFrame s p t.mem) :
    ∃ l b, returnFromTrap t = { t with S := s.S, P := p ||| bit5, PC := s.PC, answers := l, bus := b } := by
  have slot {j k : Byte} (hjk : j - 3 = k) : stackSlot t j = stackSlot s k := by
    rw [stackSlot_eq, stackSlot_eq, hS]
    exact congrArg stackAddr (by bv_omega)
  have hS3 : t.S + 3 = s.S := by rw [hS]; exact BitVec.sub_add_cancel _ _
  have hhigh : t.byteAt (stackSlot s 0) = hiByte s.PC := hframe.high
  have hlow : t.byteAt (stackSlot s (-1)) = loByte s.PC := hframe.low
  have hstatus : t.byteAt (stackSlot s (-2)) = p := hframe.status
  rw [returnFromTrap_eq, hram.answer, hram.answer, hram.answer, slot (j := 1) (k := -2) (by decide),
    slot (j := 2) (k := -1) (by decide), slot (j := 3) (k := 0) (by decide), hS3, hhigh, hlow, hstatus,
    mkWord_hiByte_loByte]
  exact ⟨_, _, rfl⟩

/-- A trap entry and the return from it (R175, R176): what the entry writes into P and what it pushes stays; PC, S, A, X
and Y are as before. -/
theorem OnRam.returnFromTrap_takeTrap {s : State} (h : OnRam s) (b masks : Bool) {v : Word} (hv : 511 < v.toNat)
    (hv' : v.toNat < 65535) : ∃ l x, returnFromTrap (takeTrap b masks v s) = { s with
      P := (s.trapFlags b masks).P ||| bit5
      mem := (takeTrap b masks v s).mem
      answers := l
      bus := x } := by
  obtain ⟨m, htrap, hframe, -⟩ := takeTrap_eq b masks v s hv hv'
  have hram : OnRam (takeTrap b masks v s) := h.drop (n := 2) (by rw [htrap])
  obtain ⟨l, x, hreturn⟩ := returnFromTrap_of_frame hram (by rw [htrap]) (by rw [htrap]; exact hframe)
  rw [hreturn, or_bit5_or_bit5, htrap]
  exact ⟨_, _, rfl⟩

/-- Settles O22: BRK's trap entry writes B and no other flag. -/
theorem brkThenRtiResumesAfterTheOpcode : Obligations.BrkThenRtiResumesAfterTheOpcode := by
  intro s t u hram ht hu
  obtain rfl : takeTrap true false irqVector s = t := Host.Outcome.next.inj ht
  obtain rfl : returnFromTrap (takeTrap true false irqVector s) = u := Host.Outcome.next.inj hu
  obtain ⟨l, x, hreturn⟩ := hram.returnFromTrap_takeTrap true false (v := irqVector) (by decide) (by decide)
  have hkeeps : keepsExcept [.b] s.P (s.trapFlags true false).P :=
    keepsExcept_putFlag (by decide) true (keepsExcept_refl _ _)
  rw [hreturn]
  refine ⟨rfl, rfl, ?_, ?_, keepsExcept_or_bit5 hkeeps, rfl, rfl, rfl, rfl⟩
  · rw [flagOf_or_bit5]
    exact flagOf_putFlag .b .b true s.P
  · rw [or_bit5_getLsbD, decide_eq_true rfl, Bool.or_true]

/-- A taken interrupt is the trap entry with B = 0 that masks IRQ, through the vector of its kind (R172, R173). -/
theorem step_eq_takeTrap {s : State} (hr : s.resetSeen = true)
    (ho : s.nextOp = .nmi ∨ (s.nextOp = .irq ∧ flagOf .i s.P = false)) :
    ∃ v : Word, 511 < v.toNat ∧ v.toNat < 65535 ∧ step s = .next (takeTrap false true v s.popOp.beginOp) := by
  rcases ho with ho | ⟨ho, hi⟩
  · refine ⟨nmiVector, by decide, by decide, ?_⟩
    rw [step, stepWith_eq_operation _ (.inr ⟨hr, by simp [ho]⟩), ho, operation]
  · refine ⟨irqVector, by decide, by decide, ?_⟩
    have hi' : s.popOp.beginOp.flag .i = false := hi
    rw [step, stepWith_eq_operation _ (.inr ⟨hr, by simp [ho]⟩), ho, operation, hi', if_neg Bool.false_ne_true]

/-- Settles O23: the entry clears B and sets I before it pushes P (D8), so the return brings them back so. -/
theorem interruptThenRtiResumesWithIrqMasked : Obligations.InterruptThenRtiResumesWithIrqMasked := by
  intro s t u hram hr ho ht hu
  obtain ⟨v, hv, hv', hstep⟩ := step_eq_takeTrap hr ho
  have hram' : OnRam s.popOp.beginOp := hram
  obtain ⟨l, x, hreturn⟩ := hram'.returnFromTrap_takeTrap false true hv hv'
  obtain rfl : takeTrap false true v s.popOp.beginOp = t := Host.Outcome.next.inj (hstep.symm.trans ht)
  obtain rfl : returnFromTrap (takeTrap false true v s.popOp.beginOp) = u := Host.Outcome.next.inj hu
  have hP : (s.popOp.beginOp.trapFlags false true).P = putFlag .i true (putFlag .b false s.P) := rfl
  have hkeeps : keepsExcept [.b, .i] s.P (putFlag .i true (putFlag .b false s.P)) :=
    keepsExcept_putFlag (by decide) true (keepsExcept_putFlag (by decide) false (keepsExcept_refl _ _))
  rw [hreturn, hP]
  refine ⟨rfl, rfl, ?_, ?_, keepsExcept_or_bit5 hkeeps, rfl, rfl, rfl⟩
  · rw [flagOf_or_bit5, flagOf_putFlag, flagOf_putFlag]
    rfl
  · rw [flagOf_or_bit5, flagOf_putFlag]
    rfl

/-! ## Memory is the replay of the recorded writes -/

theorem replay_append (x y : List BusAccess) (m : List Host.Cell) : replay (x ++ y) m = replay y (replay x m) := by
  induction x generalizing m with
  | nil => rfl
  | cons a x ih => cases a <;> exact ih _

theorem replay_pointerReads (am : AddrMode) (s : State) (m : List Host.Cell) : replay (pointerReads am s) m = m := by
  cases am <;> rfl

/-- From `s` to `t` accesses were recorded, and memory changed by the writes among them, in order (R44). -/
def FollowsWrites (s t : State) : Prop :=
  ∃ acc, t.bus = s.bus ++ acc ∧ t.mem = replay acc s.mem

/-- A change of the registers. -/
theorem FollowsWrites.of_eq {s t : State} (hbus : t.bus = s.bus) (hmem : t.mem = s.mem) : FollowsWrites s t :=
  ⟨[], by rw [hbus, List.append_nil], hmem⟩

theorem FollowsWrites.trans {s t u : State} (h : FollowsWrites s t) (h' : FollowsWrites t u) : FollowsWrites s u := by
  obtain ⟨acc, hbus, hmem⟩ := h
  obtain ⟨acc', hbus', hmem'⟩ := h'
  exact ⟨acc ++ acc', by rw [hbus', hbus, List.append_assoc], by rw [hmem', hmem, replay_append]⟩

/-- A change of the registers after the accesses. -/
theorem FollowsWrites.setRegs {s t u : State} (h : FollowsWrites s t) (hbus : u.bus = t.bus) (hmem : u.mem = t.mem) :
    FollowsWrites s u :=
  h.trans (.of_eq hbus hmem)

theorem FollowsWrites.setPC {s t : State} (h : FollowsWrites s t) (pc : Word) : FollowsWrites s { t with PC := pc } :=
  h.setRegs rfl rfl

section

variable (s : State)

theorem followsWrites_memRead (a : Word) : FollowsWrites s (memRead a s).2 :=
  ⟨[.read a], rfl, rfl⟩

theorem followsWrites_memWrite (a : Word) (v : Byte) : FollowsWrites s (memWrite a v s) :=
  ⟨[.write a v], rfl, rfl⟩

theorem followsWrites_fetchBytes (n : Nat) : FollowsWrites s (fetchBytes n s).2 := by
  induction n generalizing s with
  | zero => exact .of_eq rfl rfl
  | succ n ih => exact ((followsWrites_memRead s s.PC).setPC _).trans (ih (fetch8 s).2)

theorem followsWrites_jumpThrough (v : Word) : FollowsWrites s (jumpThrough v s) :=
  ⟨[.read v, .read (v + 1)], by rw [jumpThrough, read16_eq], by rw [jumpThrough, read16_eq]; rfl⟩

theorem followsWrites_push8 (v : Byte) : FollowsWrites s (push8 v s) :=
  (followsWrites_memWrite s (stackAddr s.S) v).setRegs rfl rfl

theorem followsWrites_pop8 : FollowsWrites s (pop8 s).2 :=
  followsWrites_memRead { s with S := s.S + 1 } (stackAddr (s.S + 1))

theorem followsWrites_push16 (w : Word) : FollowsWrites s (push16 w s) :=
  (followsWrites_push8 s (hiByte w)).trans (followsWrites_push8 _ (loByte w))

theorem followsWrites_pop16 : FollowsWrites s (pop16 s).2 :=
  (followsWrites_pop8 s).trans (followsWrites_pop8 _)

theorem followsWrites_takeTrap (b masks : Bool) (v : Word) : FollowsWrites s (takeTrap b masks v s) := by
  have hflags : FollowsWrites s ((push16 s.PC s).trapFlags b masks) :=
    (followsWrites_push16 s s.PC).setRegs (by rw [trapFlags_eq]) (by rw [trapFlags_eq])
  exact (hflags.trans (followsWrites_push8 _ _)).trans (followsWrites_jumpThrough _ v)

theorem followsWrites_returnFromTrap : FollowsWrites s (returnFromTrap s) :=
  ((followsWrites_pop8 s).trans (followsWrites_pop16 ((pop8 s).2.writeP (pop8 s).1))).setPC _

theorem followsWrites_effAddr (am : AddrMode) : FollowsWrites s (effAddr am s).2 := by
  rw [effAddr_snd]
  exact ⟨pointerReads am s, rfl, (replay_pointerReads am s s.mem).symm⟩

theorem followsWrites_shiftMemory (f : Byte → Bool → Byte × Bool) (am : AddrMode) :
    FollowsWrites s (shiftMemory f am s) := by
  rw [shiftMemory_eq]
  exact ⟨pointerReads am s ++ [_, _], List.append_assoc _ _ _, by rw [replay_append, replay_pointerReads]; rfl⟩

/-! The rules: the mnemonics not named here use no bus. -/

theorem followsWrites_commandRule (mn : Mnemonic) : FollowsWrites s (mn.commandRule s) := by
  cases mn with
  | pha | php => exact followsWrites_push8 s _
  | pla | plp => exact (followsWrites_pop8 s).setRegs rfl rfl
  | brk => exact followsWrites_takeTrap s true false irqVector
  | rti => exact followsWrites_returnFromTrap s
  | rts => exact (followsWrites_pop16 s).setPC _
  | _ => exact .of_eq rfl rfl

theorem followsWrites_argumentRule (mn : Mnemonic) (m : Byte) : FollowsWrites s (mn.argumentRule m s) := by
  cases mn with
  | adc => rw [Mnemonic.argumentRule, adc_eq]; exact .of_eq rfl rfl
  | sbc => rw [Mnemonic.argumentRule, sbc_eq]; exact .of_eq rfl rfl
  | _ => exact .of_eq rfl rfl

theorem followsWrites_memoryRule (mn : Mnemonic) (ea : Word) : FollowsWrites s (mn.memoryRule ea s) := by
  have count (v : Byte) : FollowsWrites s ((memWrite ea v (memRead ea s).2).setNZ v) :=
    ((followsWrites_memRead s ea).trans (followsWrites_memWrite (memRead ea s).2 ea v)).setRegs rfl rfl
  cases mn with
  | jsr => exact (followsWrites_push16 s (s.PC - 1)).setPC ea
  | inc => exact count ((memRead ea s).1 + 1)
  | dec => exact count ((memRead ea s).1 - 1)
  | sta => exact followsWrites_memWrite s ea s.A
  | stx => exact followsWrites_memWrite s ea s.X
  | sty => exact followsWrites_memWrite s ea s.Y
  | _ => exact .of_eq rfl rfl

/-- The category dispatch (R82): the pointer reads, the read of `ea` where there is one, the rule. -/
theorem followsWrites_execute (mn : Mnemonic) (f : OperandForm) : FollowsWrites s ((execute mn f s).getD s) := by
  unfold execute
  cases mn.category <;> cases f
  case command.none => exact followsWrites_commandRule s mn
  case branch.relative d => rcases branchTaken mn s.P with _ | _ | _ <;> exact .of_eq rfl rfl
  case argument.immediate m => exact followsWrites_argumentRule s mn m
  case argument.memory am =>
    exact ((followsWrites_effAddr s am).trans (followsWrites_memRead _ _)).trans (followsWrites_argumentRule _ mn _)
  case memoryWrite.memory am => exact (followsWrites_effAddr s am).trans (followsWrites_memoryRule _ mn _)
  case accumulatorWrite.accumulator => exact .of_eq rfl rfl
  case accumulatorWrite.memory am => exact followsWrites_shiftMemory s _ am
  all_goals exact .of_eq rfl rfl

theorem followsWrites_dispatch (mn : Mnemonic) (md : Mode) (ops : List Byte) :
    FollowsWrites s ((dispatch mn md ops s).getD s) := by
  unfold dispatch
  cases operandForm md ops with
  | none => exact .of_eq rfl rfl
  | some f => exact followsWrites_execute s mn f

theorem followsWrites_runStep (om : OpcodeMap) : FollowsWrites s (runStep om s) := by
  have hfetch : FollowsWrites s (fetch8 s).2 := (followsWrites_memRead s s.PC).setPC _
  unfold runStep runOpcode
  cases om.lookup (fetch8 s).1 with
  | none => exact hfetch.setRegs rfl rfl
  | some e =>
    have hentry : FollowsWrites s (fetchBytes e.mode.operandBytes (fetch8 s).2).2 :=
      hfetch.trans (followsWrites_fetchBytes _ _)
    exact (hentry.trans (followsWrites_dispatch _ e.mnemonic e.mode _)).setRegs rfl rfl

theorem followsWrites_operation (om : OpcodeMap) (op : HostOp) : FollowsWrites s (operation om op s) := by
  cases op with
  | reset =>
    exact followsWrites_jumpThrough
      { s with A := 0x00, X := 0x00, Y := 0x00, S := 0xFF, P := 0x20, resetSeen := true } resetVector
  | irq =>
    change FollowsWrites s (if s.flag .i then s else takeTrap false true irqVector s)
    cases s.flag .i with
    | true => exact .of_eq rfl rfl
    | false => exact followsWrites_takeTrap s false true irqVector
  | nmi => exact followsWrites_takeTrap s false true nmiVector
  | step => exact followsWrites_runStep s om
  | write | busError => exact .of_eq rfl rfl

end

/-- A step with a next state that is no memory write of the host is an operation of the core. -/
theorem operationNext_of_step {om : OpcodeMap} {s t : State} (h : stepWith om s = .next t)
    (hw : ∀ a v, s.nextOp ≠ .write a v) : OperationNext s := by
  have hnotRefused : ¬ RefusedNext s := fun hr => by cases h.symm.trans (stepWith_of_refusedNext om hr)
  cases ho : s.nextOp with
  | reset => exact .inl ho
  | irq | nmi | step => exact (operationNext_or_refusedNext (by simp [ho])).resolve_right hnotRefused
  | write a v => exact absurd ho (hw a v)
  | busError => cases h.symm.trans (stepWith_of_busError om ho)

/-- Settles O13: the operation starts with an empty record, and each access it makes keeps memory to its record. -/
theorem memoryFollowsTheWritesOnTheBus : Obligations.MemoryFollowsTheWritesOnTheBus := by
  intro s t hstep hw
  have hop := stepWith_eq_operation Config.opcodeMap (operationNext_of_step hstep hw)
  obtain rfl := Host.Outcome.next.inj (hop.symm.trans hstep)
  obtain ⟨acc, hbus, hmem⟩ := followsWrites_operation s.popOp.beginOp Config.opcodeMap s.nextOp
  rw [hbus]
  exact hmem

end Sys2Proof

/-! Encoding (30_encoding.md): how many bytes an instruction has. -/

namespace Sys2Proof

open Machine

/-- The encoder writes as many bytes as the mode has (R50, R51). -/
theorem encode_length (i : Instr) : (encode i).length = i.length := by
  cases i <;> rfl

/-- The length of an instruction whose mode is in a class of modes with `n` operand bytes. -/
theorem encode_length_of_mode_mem {ms : List Mode} {n : Nat} (hms : ∀ m ∈ ms, m.operandBytes = n) {i : Instr}
    (hi : i.mode ∈ ms) : i.mode.operandBytes = n ∧ (encode i).length = 1 + n := by
  have hn : i.mode.operandBytes = n := hms i.mode hi
  exact ⟨hn, by rw [encode_length, Instr.length, hn]⟩

/-- Settles O5: the length is one more than the mode's operand bytes, of which each class of R51 has one count. -/
theorem instructionLengthFollowsMode : Obligations.InstructionLengthFollowsMode :=
  fun i => ⟨encode_length i, encode_length_of_mode_mem (by decide), encode_length_of_mode_mem (by decide),
    encode_length_of_mode_mem (by decide)⟩

end Sys2Proof

/-! Dispatch and addressing (40_dispatch_and_addressing.md): the PC that a `STEP` leaves, the cycles it returns, the bus
accesses it makes and the memory that an instruction can change. -/

namespace Sys2Proof

open Machine

/-! ## `STEP` runs the decoded instruction -/

/-- `STEP` of `i` is the fetch, then `exec i`, then the return of the cycles of its opcode's entry (R65 to R67). -/
theorem step_of_runsNext {s : State} {i : Instr} (h : RunsNext s i) :
    ∃ e t, lookup (s.answer 0 s.PC) = some e ∧ e.mnemonic = i.mnemonic ∧ e.mode = i.mode ∧
      exec i (afterFetch s i) = .next t ∧ step s = .next (t.returnCycles e.cycles) := by
  obtain ⟨hr, ho, rest, hdecode⟩ := h
  have hdecode' : Config.opcodeMap.decode (bytesAtPC s.popOp.beginOp) = .instr i rest := hdecode
  obtain ⟨e, hlookup, hmn, hmd, hfetch⟩ := fetchInstr_of_decode hdecode'
  have hfetch' : fetchInstr Config.opcodeMap s.popOp.beginOp = .instr i e.cycles (afterFetch s i) := hfetch
  obtain ⟨t, ht⟩ := exec_next i (afterFetch s i)
  refine ⟨e, t, hlookup, hmn, hmd, ht, ?_⟩
  simp only [step, stepWith, ho, hr, if_true, opStep, hfetch', ht, mapNext]

/-! ## PC after a `STEP` -/

/-- The mnemonics whose rule writes PC whatever the flags are (R83). -/
def jumpMnemonics : List Mnemonic := [.jmp, .jsr, .rts, .rti, .brk]

section

variable {mn : Mnemonic} (h : mn ∉ jumpMnemonics) (s : State)

include h

theorem commandRule_PC : (mn.commandRule s).PC = s.PC := by
  cases mn with
  | brk | rti | rts => exact absurd (by decide) h
  | _ => rfl

theorem memoryRule_PC (ea : Word) : (mn.memoryRule ea s).PC = s.PC := by
  cases mn with
  | jmp | jsr => exact absurd (by decide) h
  | _ => rfl

end

theorem argumentRule_PC (mn : Mnemonic) (m : Byte) (s : State) : (mn.argumentRule m s).PC = s.PC := by
  cases mn <;> rfl

/-- An instruction leaves PC where the fetch put it, unless it is a jump or a branch that is taken (R83). -/
theorem exec_PC {i : Instr} {s t : State} (h : exec i s = .next t) (hjump : i.mnemonic ∉ jumpMnemonics)
    (hbranch : branchTaken i.mnemonic s.P ≠ some true) : t.PC = s.PC := by
  have eq_of_exec {u : State} (hu : exec i s = .next u) : t = u := Host.Outcome.next.inj (h.symm.trans hu)
  cases hcat : i.mnemonic.category with
  | command => rw [eq_of_exec (exec_command hcat s), commandRule_PC hjump]
  | branch =>
    obtain ⟨d, c, -, hc, hexec⟩ := exec_branch hcat s
    have hnot : c ≠ true := fun e => hbranch (by rw [hc, e])
    rw [eq_of_exec hexec, branchIf_eq, if_neg hnot]
  | argument =>
    obtain ⟨m, -, hexec⟩ := exec_argument hcat s
    rw [eq_of_exec hexec, argumentRule_PC]
  | memoryWrite =>
    obtain ⟨ea, -, hexec⟩ := exec_memoryWrite hcat s
    rw [eq_of_exec hexec, memoryRule_PC hjump]
  | accumulatorWrite =>
    rcases exec_shift hcat s with ⟨-, -, hexec⟩ | ⟨am, -, -, -, -, hexec⟩
    · rw [eq_of_exec hexec, shiftAccumulator_eq]
    · rw [eq_of_exec hexec, shiftMemory_eq]

theorem pc_add_toNat (pc : Word) (n : Nat) : (pc + BitVec.ofNat 16 n).toNat = (pc.toNat + n) % 65536 := by
  rw [BitVec.toNat_add, BitVec.toNat_ofNat, Nat.add_mod_mod]

/-- Settles O9: the fetch moves PC past the instruction, and only a jump or a taken branch moves it again. -/
theorem pcAfterStepIsTheNextOpcode : Obligations.PcAfterStepIsTheNextOpcode := by
  refine ⟨fun s i hruns hjump hbranch => ?_, fun s hr ho hlookup => ?_⟩
  · obtain ⟨e, t, -, -, -, hexec, hstep⟩ := step_of_runsNext hruns
    have hpc : t.PC = s.PC + BitVec.ofNat 16 i.length := exec_PC hexec hjump hbranch
    exact ⟨_, hstep, by rw [returnCycles_PC, hpc, pc_add_toNat, encode_length]⟩
  · exact ⟨_, stepWith_of_unofficial hr ho hlookup, pc_add_toNat s.PC 1⟩

/-! ## The cycles returned -/

/-- Where no opcode has two entries, an entry is known by its opcode. -/
theorem eq_of_distinctOpcodes {es : List DecodeEntry} (hd : distinctOpcodes es = true) {e e' : DecodeEntry}
    (he : e ∈ es) (he' : e' ∈ es) (hop : e.opcode = e'.opcode) : e = e' := by
  induction es with
  | nil => cases he
  | cons x xs ih =>
    simp only [distinctOpcodes, Bool.and_eq_true, List.all_eq_true, bne_iff_ne] at hd
    obtain ⟨hx, hxs⟩ := hd
    rcases List.mem_cons.mp he with rfl | hmem <;> rcases List.mem_cons.mp he' with rfl | hmem'
    · rfl
    · exact absurd hop.symm (hx e' hmem')
    · exact absurd hop (hx e hmem)
    · exact ih hxs hmem hmem'

theorem OpcodeMap.eq_of_opcode_eq (om : OpcodeMap) {e e' : DecodeEntry} (he : e ∈ om.entries) (he' : e' ∈ om.entries)
    (hop : e.opcode = e'.opcode) : e = e' := by
  have hwf := om.wf
  rw [tableWf, Bool.and_eq_true] at hwf
  exact eq_of_distinctOpcodes hwf.2 he he' hop

theorem mem_formsOf {mn : Mnemonic} {op : Byte} {md : Mode} {n : Nat} :
    (op, md, n) ∈ formsOf mn ↔
      ∃ e ∈ opcodeTable, e.mnemonic = mn ∧ e.opcode = op ∧ e.mode = md ∧ e.cycles.toNat = n := by
  simp [formsOf, and_assoc]

/-- Settles O10: the cycles are those of the one entry that the table has for the opcode. -/
theorem returnedCyclesDependOnTheOpcodeAlone : Obligations.ReturnedCyclesDependOnTheOpcodeAlone := by
  intro s i hruns
  obtain ⟨e, t, hlookup, hmn, hmd, -, hstep⟩ := step_of_runsNext hruns
  obtain ⟨he, hop⟩ := lookup_eq_some hlookup
  obtain ⟨-, hmin, hmax⟩ := Config.opcodeMap.entry_wf he
  refine ⟨_, e.cycles.toNat, hstep, ?_, hmin, hmax, mem_formsOf.mpr ⟨e, he, hmn, hop, hmd, rfl⟩, fun mn m k hk => ?_⟩
  · rw [returnCycles_out, BitVec.ofNat_toNat, BitVec.setWidth_eq]
  · obtain ⟨e', he', -, hop', -, rfl⟩ := mem_formsOf.mp hk
    rw [Config.opcodeMap.eq_of_opcode_eq he he' (hop.trans hop'.symm)]

/-! ## The bus accesses of an instruction -/

/-- From `s` to `t` the accesses made are at the places `ps`, in order, and each read used up one answer of the bus. -/
def AccessesAt (s : State) (ps : List (Bool × Word)) (t : State) : Prop :=
  ∃ acc, t.bus = s.bus ++ acc ∧ t.answers = s.answers.drop (readsIn acc) ∧ acc.map BusAccess.place = ps

/-- A change that uses no bus. -/
theorem AccessesAt.of_eq {s t : State} (hbus : t.bus = s.bus) (hanswers : t.answers = s.answers) :
    AccessesAt s [] t :=
  ⟨[], by rw [hbus, List.append_nil], hanswers, rfl⟩

theorem AccessesAt.trans {s t u : State} {ps qs : List (Bool × Word)} (h : AccessesAt s ps t)
    (h' : AccessesAt t qs u) : AccessesAt s (ps ++ qs) u := by
  obtain ⟨acc, hbus, hanswers, hplaces⟩ := h
  obtain ⟨acc', hbus', hanswers', hplaces'⟩ := h'
  exact ⟨acc ++ acc', by rw [hbus', hbus, List.append_assoc],
    by rw [hanswers', hanswers, List.drop_drop, readsIn_append], by rw [List.map_append, hplaces, hplaces']⟩

/-- A change of the registers after the accesses. -/
theorem AccessesAt.setRegs {s t u : State} {ps : List (Bool × Word)} (h : AccessesAt s ps t) (hbus : u.bus = t.bus)
    (hanswers : u.answers = t.answers) : AccessesAt s ps u := by
  rw [← List.append_nil ps]
  exact h.trans (.of_eq hbus hanswers)

section

variable (s : State)

theorem accessesAt_memRead (a : Word) : AccessesAt s [(false, a)] (memRead a s).2 :=
  ⟨[.read a], rfl, by rw [memRead_eq, ← List.drop_one]; rfl, rfl⟩

theorem accessesAt_memWrite (a : Word) (v : Byte) : AccessesAt s [(true, a)] (memWrite a v s) :=
  ⟨[.write a v], rfl, rfl, rfl⟩

theorem stackSlot_zero : stackSlot s 0 = stackAddr s.S := by
  simp [stackSlot_eq]

theorem stackSlot_neg_one : stackSlot s (-1) = stackAddr (s.S - 1) := by
  rw [stackSlot_eq]
  exact congrArg stackAddr (by bv_omega)

theorem accessesAt_push8 (v : Byte) : AccessesAt s [(true, stackSlot s 0)] (push8 v s) := by
  rw [stackSlot_zero]
  exact (accessesAt_memWrite s (stackAddr s.S) v).setRegs rfl rfl

theorem accessesAt_push16 (w : Word) :
    AccessesAt s [(true, stackSlot s 0), (true, stackSlot s (-1))] (push16 w s) := by
  rw [push16_eq, stackSlot_zero, stackSlot_neg_one]
  exact ⟨[.write _ _, .write _ _], rfl, rfl, rfl⟩

theorem accessesAt_pop8 : AccessesAt s [(false, stackSlot s 1)] (pop8 s).2 := by
  rw [stackSlot_eq]
  exact accessesAt_memRead { s with S := s.S + 1 } (stackAddr (s.S + 1))

theorem accessesAt_pop16 : AccessesAt s [(false, stackSlot s 1), (false, stackSlot s 2)] (pop16 s).2 := by
  rw [pop16_eq, stackSlot_eq, stackSlot_eq]
  exact ⟨[.read _, .read _], rfl, rfl, rfl⟩

theorem accessesAt_returnFromTrap :
    AccessesAt s [(false, stackSlot s 1), (false, stackSlot s 2), (false, stackSlot s 3)] (returnFromTrap s) := by
  rw [returnFromTrap_eq]
  exact ⟨[.read _, .read _, .read _], rfl, rfl, rfl⟩

theorem accessesAt_takeTrap (b masks : Bool) {v : Word} (hv : 511 < v.toNat) (hv' : v.toNat < 65535) :
    AccessesAt s [(true, stackSlot s 0), (true, stackSlot s (-1)), (true, stackSlot s (-2)), (false, v), (false, v + 1)]
      (takeTrap b masks v s) := by
  obtain ⟨m, htrap, -⟩ := takeTrap_eq b masks v s hv hv'
  rw [htrap]
  exact ⟨[.write _ _, .write _ _, .write _ _, .read _, .read _], rfl, rfl, rfl⟩

/-- INC and DEC: `ea` is read, then written (R149, R150). -/
theorem accessesAt_memRead_memWrite (ea : Word) (v : Byte) :
    AccessesAt s [(false, ea), (true, ea)] (memWrite ea v (memRead ea s).2) :=
  (accessesAt_memRead s ea).trans (accessesAt_memWrite _ ea v)

theorem accessesAt_shiftMemory (f : Byte → Bool → Byte × Bool) (am : AddrMode) :
    AccessesAt s ((pointerReads am s).map BusAccess.place ++ [(false, (effAddr am s).1), (true, (effAddr am s).1)])
      (shiftMemory f am s) := by
  rw [shiftMemory_eq]
  exact ⟨pointerReads am s ++ [.read _, .write _ _], List.append_assoc _ _ _,
    by rw [readsIn_append, readsIn_pointerReads]; rfl, List.map_append⟩

end

/-! Column "execute" of R85, by category. -/

theorem eaPlaces_of_address {i : Instr} {s : State} {ea : Word} (h : i.address s = some ea) (kinds : List Bool) :
    eaPlaces i s kinds = kinds.map (fun w => (w, ea)) := by
  simp only [eaPlaces, h]

theorem accessesAt_commandRule {i : Instr} (h : i.mnemonic.category = .command) (s : State) :
    AccessesAt s (executePlaces i s) (i.mnemonic.commandRule s) := by
  unfold executePlaces
  cases hmn : i.mnemonic with
  | pha | php => exact accessesAt_push8 s _
  | pla | plp => exact (accessesAt_pop8 s).setRegs rfl rfl
  | brk => exact accessesAt_takeTrap s true false (v := irqVector) (by decide) (by decide)
  | rti => exact accessesAt_returnFromTrap s
  | rts => exact (accessesAt_pop16 s).setRegs rfl rfl
  | clc | cld | cli | clv | sec | sed | sei | dex | dey | inx | iny | tax | tay | txa | tya | tsx | txs | nop =>
    exact .of_eq rfl rfl
  | _ => simp [hmn, Mnemonic.category] at h

theorem executePlaces_of_branch {i : Instr} (h : i.mnemonic.category = .branch) (s : State) :
    executePlaces i s = [] := by
  unfold executePlaces
  cases hmn : i.mnemonic with
  | bcc | bcs | bne | beq | bpl | bmi | bvc | bvs => rfl
  | _ => simp [hmn, Mnemonic.category] at h

theorem executePlaces_of_argument {i : Instr} (h : i.mnemonic.category = .argument) (s : State) :
    executePlaces i s = eaPlaces i s [false] := by
  unfold executePlaces
  cases hmn : i.mnemonic with
  | adc | sbc | and | eor | ora | bit | cmp | cpx | cpy | lda | ldx | ldy => rfl
  | _ => simp [hmn, Mnemonic.category] at h

theorem executePlaces_of_shift {i : Instr} (h : i.mnemonic.category = .accumulatorWrite) (s : State) :
    executePlaces i s = eaPlaces i s [false, true] := by
  unfold executePlaces
  cases hmn : i.mnemonic with
  | asl | lsr | rol | ror => rfl
  | _ => simp [hmn, Mnemonic.category] at h

/-- The rule runs after the pointer reads, which use the bus only. -/
theorem accessesAt_memoryRule {i : Instr} (h : i.mnemonic.category = .memoryWrite) {s : State} {ea : Word}
    (hea : i.address s = some ea) (l : List (Option Byte)) (b : List BusAccess) :
    AccessesAt { s with answers := l, bus := b } (executePlaces i s)
      (i.mnemonic.memoryRule ea { s with answers := l, bus := b }) := by
  unfold executePlaces
  cases hmn : i.mnemonic with
  | jmp => exact .of_eq rfl rfl
  | jsr => exact (accessesAt_push16 { s with answers := l, bus := b } (s.PC - 1)).setRegs rfl rfl
  | inc | dec =>
    change AccessesAt _ (eaPlaces i s [false, true]) _
    rw [eaPlaces_of_address hea]
    exact (accessesAt_memRead_memWrite _ ea _).setRegs rfl rfl
  | sta | stx | sty =>
    change AccessesAt _ (eaPlaces i s [true]) _
    rw [eaPlaces_of_address hea]
    exact accessesAt_memWrite _ ea _
  | _ => simp [hmn, Mnemonic.category] at h

theorem accessesAt_argumentRule (mn : Mnemonic) (m : Byte) (s : State) : AccessesAt s [] (mn.argumentRule m s) :=
  .of_eq (by cases mn <;> rfl) (by cases mn <;> rfl)

theorem form_of_command {i : Instr} (h : i.mnemonic.category = .command) : i.form = .none := by
  have hfits := form_fits i
  rw [h] at hfits
  cases hf : i.form with
  | none => rfl
  | _ => simp [hf] at hfits

/-- The pointer reads, then column "execute" of R85: the accesses of every instruction. -/
theorem accessesAt_exec {i : Instr} {s t : State} (h : exec i s = .next t) :
    AccessesAt s (resolverPlaces i s ++ executePlaces i s) t := by
  have eq_of_exec {u : State} (hu : exec i s = .next u) : t = u := Host.Outcome.next.inj (h.symm.trans hu)
  cases hcat : i.mnemonic.category with
  | command =>
    rw [eq_of_exec (exec_command hcat s), resolverPlaces, form_of_command hcat]
    exact accessesAt_commandRule hcat s
  | branch =>
    obtain ⟨d, c, hform, -, hexec⟩ := exec_branch hcat s
    rw [eq_of_exec hexec, branchIf_eq, executePlaces_of_branch hcat, resolverPlaces, hform]
    exact .of_eq rfl rfl
  | argument =>
    obtain ⟨m, -, hexec⟩ := exec_argument hcat s
    rw [eq_of_exec hexec, executePlaces_of_argument hcat, ← argumentReads_place, ← List.append_nil (List.map _ _)]
    exact AccessesAt.trans ⟨i.argumentReads s, rfl, rfl, rfl⟩ (accessesAt_argumentRule i.mnemonic m _)
  | memoryWrite =>
    obtain ⟨ea, hea, hexec⟩ := exec_memoryWrite hcat s
    rw [eq_of_exec hexec, ← pointers_place]
    exact AccessesAt.trans ⟨i.pointers s, rfl, rfl, rfl⟩ (accessesAt_memoryRule hcat hea _ _)
  | accumulatorWrite =>
    rw [executePlaces_of_shift hcat, resolverPlaces, eaPlaces, Instr.address]
    rcases exec_shift hcat s with ⟨hform, -, hexec⟩ | ⟨am, hform, -, -, -, hexec⟩
    · rw [eq_of_exec hexec, shiftAccumulator_eq, hform]
      exact .of_eq rfl rfl
    · rw [eq_of_exec hexec, hform]
      exact accessesAt_shiftMemory s _ am

/-- Settles O12: the record starts empty, the fetch adds its reads, and the instruction the accesses of its row. -/
theorem busAccessesOfStep : Obligations.BusAccessesOfStep := by
  intro s i hruns
  obtain ⟨e, t, -, -, -, hexec, hstep⟩ := step_of_runsNext hruns
  obtain ⟨acc, hbus, -, hplaces⟩ := accessesAt_exec hexec
  have hfetch : (afterFetch s i).bus = fetchReads s.PC i.length := rfl
  exact ⟨_, hstep, by rw [returnCycles_bus, hbus, hfetch, List.map_append, hplaces, List.append_assoc]⟩

/-! ## JMP -/

/-- The second byte of the pointer is at the next address in the page (R38, R79). -/
theorem mkWord_nextInPage_toNat (w : Word) :
    (mkWord (hiByte w) (loByte w + 1)).toNat = w.toNat / 256 * 256 + (w.toNat + 1) % 256 := by
  rw [mkWord_toNat, hiByte_toNat, BitVec.toNat_add, loByte_toNat]
  exact congrArg _ (Nat.mod_add_mod w.toNat 256 1)

/-- Settles O48: `ea` is the operand word, or the word that the pointer read with the page wrap gives. -/
theorem jmpGoesToTheEffectiveAddress : Obligations.JmpGoesToTheEffectiveAddress := by
  refine ⟨by decide +kernel, fun s w => ⟨rfl, _, mkWord_nextInPage_toNat w, ?_⟩⟩
  change Host.Outcome.next (memoryWrite jump (.indirect w) s) = _
  rw [memoryWrite, effAddr, read16Bug_eq]
  rfl

/-! ## Who writes memory -/

/-- A byte that differs after a list of accesses is at the place of a write among them (R44). -/
theorem write_mem_of_replay_ne {acc : List BusAccess} {m : List Host.Cell} {a : Word}
    (h : Memory.get (replay acc m) a.toNat ≠ Memory.get m a.toNat) : (true, a) ∈ acc.map BusAccess.place := by
  induction acc generalizing m with
  | nil => exact absurd rfl h
  | cons x acc ih =>
    cases x with
    | read b => exact List.mem_cons_of_mem _ (ih h)
    | write b v =>
      by_cases hab : a = b
      · subst hab
        exact List.mem_cons_self
      · have hput : Memory.get (Memory.put m b.toNat v) a.toNat = Memory.get m a.toNat := by
          rw [get_put_word, if_neg hab]
        exact List.mem_cons_of_mem _ (ih (by rw [hput]; exact h))

/-- The resolver only reads. -/
theorem write_not_mem_resolverPlaces (i : Instr) (s : State) (a : Word) : (true, a) ∉ resolverPlaces i s := by
  unfold resolverPlaces
  cases i.form with
  | memory am => cases am <;> simp [pointerReads, BusAccess.place]
  | _ => exact List.not_mem_nil

/-- An instruction changes memory by the writes that it records (R44). -/
theorem followsWrites_exec {i : Instr} {s t : State} (h : exec i s = .next t) : FollowsWrites s t := by
  obtain ⟨u, hexecute, hexec⟩ := exec_eq_execute i s
  obtain rfl : t = u := Host.Outcome.next.inj (h.symm.trans hexec)
  have hfollows := followsWrites_execute s i.mnemonic i.form
  rwa [hexecute, Option.getD_some] at hfollows

/-- Settles O57: memory follows the writes recorded, which are those of column "execute". -/
theorem whoWritesMemory : Obligations.WhoWritesMemory := by
  intro i s t a hexec hne
  obtain ⟨acc, hbus, hmem⟩ := followsWrites_exec hexec
  obtain ⟨acc', hbus', -, hplaces⟩ := accessesAt_exec hexec
  obtain rfl : acc = acc' := List.append_cancel_left (hbus.symm.trans hbus')
  have hwrite : (true, a) ∈ acc.map BusAccess.place := write_mem_of_replay_ne (m := s.mem) (by rw [← hmem]; exact hne)
  rw [hplaces, List.mem_append] at hwrite
  exact hwrite.resolve_left (write_not_mem_resolverPlaces i s a)

end Sys2Proof

/-! Command instructions (41_command.md): flags, index registers, transfers, the stack and the returns. -/

namespace Sys2Proof

open Machine

/-! ## One flag, one register -/

/-- A flag write shows the value in its flag and keeps every other bit (R19). -/
theorem exec_writes_flag {i : Instr} {s : State} {f : Flag} {b : Bool} (h : exec i s = .next (s.setFlag f b)) :
    ∃ p, exec i s = .next { s with P := p } ∧ flagOf f p = b ∧ keepsExcept [f] s.P p := by
  refine ⟨putFlag f b s.P, h, ?_, keepsExcept_putFlag List.mem_cons_self b (keepsExcept_refl _ _)⟩
  rw [flagOf_putFlag, if_pos rfl]

/-- Settles O33: each of the seven is a write of its flag. -/
theorem flagInstructionsWriteOneFlag : Obligations.FlagInstructionsWriteOneFlag := by
  refine ⟨rfl, rfl, rfl, rfl, rfl, rfl, rfl, fun x hx s => ?_⟩
  have hexec : exec x.1 s = .next (s.setFlag x.2.1 x.2.2) := by
    simp only [List.mem_cons, List.not_mem_nil, or_false] at hx
    rcases hx with rfl | rfl | rfl | rfl | rfl | rfl | rfl <;> rfl
  exact exec_writes_flag hexec

/-- SetNZ, whole: Z and N are those of the value, every other bit of P is kept (R20). -/
theorem setNZ_shows_and_keeps (v : Byte) (s : State) :
    showsNZ v (s.setNZ v).P ∧ keepsExcept [.n, .z] s.P (s.setNZ v).P :=
  ⟨showsNZ_setNZ v s, keepsExcept_setNZ (by decide) (by decide) v (keepsExcept_refl _ _)⟩

theorem byte_add_one_toNat (v : Byte) : (v + 1).toNat = (v.toNat + 1) % 256 :=
  BitVec.toNat_add v 1

theorem byte_sub_one_toNat (v : Byte) : (v - 1).toNat = (v.toNat + 255) % 256 := by
  rw [BitVec.toNat_sub, Nat.add_comm]
  rfl

/-- Settles O34: each loads its register with the old value plus or minus 1, through SetNZ. -/
theorem indexRegistersCountModulo256 : Obligations.IndexRegistersCountModulo256 :=
  ⟨rfl, rfl, rfl, rfl, fun s =>
    ⟨⟨_, _, rfl, byte_sub_one_toNat s.X, setNZ_shows_and_keeps _ s⟩,
      ⟨_, _, rfl, byte_sub_one_toNat s.Y, setNZ_shows_and_keeps _ s⟩,
      ⟨_, _, rfl, byte_add_one_toNat s.X, setNZ_shows_and_keeps _ s⟩,
      ⟨_, _, rfl, byte_add_one_toNat s.Y, setNZ_shows_and_keeps _ s⟩⟩⟩

/-- Settles O35: each but TXS loads its destination with the source, through SetNZ. -/
theorem transfersCopyARegister : Obligations.TransfersCopyARegister :=
  ⟨rfl, rfl, rfl, rfl, rfl, rfl, fun s =>
    ⟨⟨_, rfl, setNZ_shows_and_keeps s.A s⟩, ⟨_, rfl, setNZ_shows_and_keeps s.A s⟩,
      ⟨_, rfl, setNZ_shows_and_keeps s.X s⟩, ⟨_, rfl, setNZ_shows_and_keeps s.Y s⟩,
      ⟨_, rfl, setNZ_shows_and_keeps s.S s⟩, rfl⟩⟩

/-! ## The accumulator on the stack -/

/-- Settles O37: PHA is a push of A, and PLA loads A with the byte popped. -/
theorem accumulatorIsPushedAndPulled : Obligations.AccumulatorIsPushedAndPulled := by
  refine ⟨rfl, rfl, fun s => ⟨⟨_, _, congrArg Host.Outcome.next (push8_eq s.A s), fun a => ?_⟩, ?_⟩⟩
  · rw [stackSlot_zero]
    exact get_put_word s.mem (stackAddr s.S) a s.A
  · rw [stackSlot_eq]
    exact ⟨_, _, _, rfl, setNZ_shows_and_keeps _ (pop8 s).2⟩

/-! ## The returns -/

/-- Settles O39, from what a pop of a word does to the whole state. -/
theorem rtsReturnsPastThePoppedWord : Obligations.RtsReturnsPastThePoppedWord := by
  refine ⟨rfl, fun s => ?_⟩
  have hexec : exec .rts s = .next { (pop16 s).2 with PC := (pop16 s).1 + 1 } := rfl
  rw [hexec, pop16_eq, stackSlot_eq, stackSlot_eq]
  exact ⟨_, _, _, rfl, by rw [BitVec.toNat_add, mkWord_toNat]; rfl⟩

/-- Settles O21: RTI is the return from a trap. -/
theorem rtiPullsStatusThenPc : Obligations.RtiPullsStatusThenPc :=
  ⟨rfl, fun s => ⟨_, _, congrArg Host.Outcome.next (returnFromTrap_eq s)⟩⟩

/-! ## NOP -/

/-- A mnemonic with one encoding returns the cycles of that encoding. -/
theorem cycles_of_formsOf_singleton {mn : Mnemonic} {op : Byte} {md : Mode} {n : Nat}
    (hforms : formsOf mn = [(op, md, n)]) {e : DecodeEntry} (he : e ∈ opcodeTable) (hmn : e.mnemonic = mn) :
    e.cycles.toNat = n := by
  have hmem : (e.opcode, e.mode, e.cycles.toNat) ∈ formsOf mn := mem_formsOf.mpr ⟨e, he, hmn, rfl, rfl, rfl⟩
  rw [hforms, List.mem_singleton] at hmem
  exact congrArg (·.2.2) hmem

/-- Settles O36: NOP leaves the state that the fetch leaves, and returns the cycles of its one encoding. -/
theorem nopChangesNothing : Obligations.NopChangesNothing := by
  refine ⟨rfl, fun _ => rfl, fun s hruns => ?_⟩
  obtain ⟨e, t, hlookup, hmn, -, hexec, hstep⟩ := step_of_runsNext hruns
  obtain rfl : afterFetch s .nop = t := Host.Outcome.next.inj hexec
  have hcycles : e.cycles = 2 := BitVec.eq_of_toNat_eq (cycles_of_formsOf_singleton rfl (lookup_eq_some hlookup).1 hmn)
  exact ⟨_, hstep, rfl, by rw [returnCycles_out, hcycles]⟩

end Sys2Proof

/-! Argument instructions (43_argument.md): ADC, the logic instructions, BIT, the comparisons and the loads. -/

namespace Sys2Proof

open Machine

/-- An Argument instruction is its mnemonic's rule on the operand byte, once the reads have changed the bus alone. -/
theorem exec_argumentRule {i : Instr} {mn : Mnemonic} (hmn : i.mnemonic = mn) (hcat : mn.category = .argument)
    (s : State) : ∃ m l b, i.operand s = some m ∧
      exec i s = .next (mn.argumentRule m { s with answers := l, bus := b }) := by
  subst hmn
  obtain ⟨m, hoperand, hexec⟩ := exec_argument hcat s
  exact ⟨m, _, _, hoperand, hexec⟩

/-! ## ADC -/

/-- The sign rule of R131, bit by bit. -/
theorem adcOverflow_iff (a m : Byte) (c : Bool) : adcOverflow a m c = true ↔
    a.getLsbD 7 ≠ (adcResult a m c).getLsbD 7 ∧ a.getLsbD 7 = m.getLsbD 7 := by
  simp [adcOverflow, BitVec.msb_eq_getLsbD_last]

theorem byte_signBit (v : Byte) : v.getLsbD 7 = decide (128 ≤ v.toNat) :=
  BitVec.msb_eq_decide v

/-- The sign rule of R131 finds the sums outside -128 to 127. -/
theorem adcOverflow_iff_signed (a m : Byte) (c : Bool) : adcOverflow a m c = true ↔
    a.toInt + m.toInt + (c.toNat : Int) < -128 ∨ 127 < a.toInt + m.toInt + (c.toNat : Int) := by
  have ha := a.isLt
  have hm := m.isLt
  have hc := c.toNat_le
  rw [adcOverflow_iff]
  simp only [byte_signBit, adcResult_toNat, BitVec.toInt_eq_toNat_cond, ne_eq, decide_eq_decide]
  omega

/-- C, then V, then N and Z: how ADC and SBC leave P. -/
theorem setCarryOverflowNZ_eq (b o : Bool) (v : Byte) (s : State) :
    ∃ p, ((s.setFlag .c b).setFlag .v o).setNZ v = { s with P := p } ∧ flagOf .c p = b ∧ flagOf .v p = o ∧
      showsNZ v p ∧ keepsExcept [.n, .v, .z, .c] s.P p := by
  refine ⟨_, rfl, by simp, by simp, showsNZ_setNZ _ _, keepsExcept_setNZ (by decide) (by decide) _ ?_⟩
  exact keepsExcept_putFlag (by decide) _ (keepsExcept_putFlag (by decide) _ (keepsExcept_refl _ _))

/-- ADC, whole: the result goes to A, and P shows its carry, its overflow, N and Z (R131). -/
theorem adc_shows_and_keeps (m : Byte) (s : State) : ∃ p,
    adc m s = { s with A := adcResult s.A m (flagOf .c s.P), P := p } ∧
      flagOf .c p = adcCarry s.A m (flagOf .c s.P) ∧ flagOf .v p = adcOverflow s.A m (flagOf .c s.P) ∧
      showsNZ (adcResult s.A m (flagOf .c s.P)) p ∧ keepsExcept [.n, .v, .z, .c] s.P p := by
  obtain ⟨p, hp, hflags⟩ := setCarryOverflowNZ_eq (adcCarry s.A m (flagOf .c s.P)) (adcOverflow s.A m (flagOf .c s.P))
    (adcResult s.A m (flagOf .c s.P)) s
  exact ⟨p, by rw [adc_eq, flag_def, hp], hflags⟩

/-- Settles O41: the rule writes the sum modulo 256, its carry and its overflow, which is that of the signed sum. -/
theorem adcAddsWithCarry : Obligations.AdcAddsWithCarry := by
  refine ⟨rfl, fun i s hmn => ?_⟩
  obtain ⟨m, l, b, hoperand, hexec⟩ := exec_argumentRule hmn rfl s
  obtain ⟨p, hadc, hC, hV, hNZ, hkeep⟩ := adc_shows_and_keeps m { s with answers := l, bus := b }
  refine ⟨m, _, p, l, b, hoperand, hexec.trans (congrArg _ hadc), adcResult_toNat _ _ _, ?_, ?_, ?_, hNZ, hkeep⟩
  · rw [hC, adcCarry_iff]
  · rw [hV, adcOverflow_iff]
  · rw [hV, adcOverflow_iff_signed]

/-! ## AND, EOR and ORA -/

/-- The bitwise operation of a logic mnemonic (R133 to R135). -/
def Mnemonic.logicFn : Mnemonic → Byte → Byte → Byte
  | .and, a, m => a &&& m
  | .eor, a, m => a ^^^ m
  | .ora, a, m => a ||| m
  | _, a, _ => a

theorem argumentRule_logic {mn : Mnemonic} (h : mn ∈ [Mnemonic.and, .eor, .ora]) (m : Byte) (s : State) :
    mn.argumentRule m s = loadA (mn.logicFn s.A m) s := by
  simp only [List.mem_cons, List.not_mem_nil, or_false] at h
  rcases h with rfl | rfl | rfl <;> rfl

/-- Settles O44: each loads A with its operation on A and M, through SetNZ. -/
theorem logicInstructionsCombineBits : Obligations.LogicInstructionsCombineBits := by
  refine ⟨rfl, rfl, rfl, fun i s hmn => ?_⟩
  have hcat : ∀ mn ∈ [Mnemonic.and, .eor, .ora], mn.category = .argument := by decide
  obtain ⟨m, l, b, hoperand, hexec⟩ := exec_argumentRule rfl (hcat _ hmn) s
  rw [argumentRule_logic hmn] at hexec
  refine ⟨m, i.mnemonic.logicFn s.A m, _, l, b, hoperand, hexec, fun k _ => ⟨?_, ?_, ?_⟩, setNZ_shows_and_keeps _ s⟩
  · exact fun h => h ▸ BitVec.getLsbD_and
  · exact fun h => h ▸ BitVec.getLsbD_xor
  · exact fun h => h ▸ BitVec.getLsbD_or

/-! ## BIT -/

theorem byte_and_eq_zero_iff (a m : Byte) :
    a &&& m = 0 ↔ ∀ k, k < 8 → ¬ (a.getLsbD k = true ∧ m.getLsbD k = true) := by
  simp [BitVec.eq_of_getLsbD_eq_iff]

/-- BIT, whole: it writes N, V and Z of P and nothing else (R136). -/
theorem bitFlags_eq (m : Byte) (s : State) :
    ∃ p, s.bitFlags m = { s with P := p } ∧ flagOf .n p = m.getLsbD 7 ∧ flagOf .v p = m.getLsbD 6 ∧
      flagOf .z p = (s.A &&& m == 0) ∧ keepsExcept [.n, .v, .z] s.P p := by
  refine ⟨_, rfl, by simp, by simp, by simp, ?_⟩
  exact keepsExcept_putFlag (by decide) _ <| keepsExcept_putFlag (by decide) _ <|
    keepsExcept_putFlag (by decide) _ (keepsExcept_refl _ _)

/-- Settles O45, from the flags of BIT. -/
theorem bitTestsMemoryAgainstA : Obligations.BitTestsMemoryAgainstA := by
  refine ⟨rfl, fun i s hmn => ?_⟩
  obtain ⟨m, l, b, hoperand, hexec⟩ := exec_argumentRule hmn rfl s
  obtain ⟨p, hp, hN, hV, hZ, hkeep⟩ := bitFlags_eq m { s with answers := l, bus := b }
  refine ⟨m, p, l, b, hoperand, hexec.trans (congrArg _ hp), hN, hV, ?_, hkeep⟩
  rw [hZ, beq_iff_eq, byte_and_eq_zero_iff]

/-! ## CMP, CPX and CPY -/

/-- The register that a comparison mnemonic compares (R137 to R139). -/
def Mnemonic.comparedReg (mn : Mnemonic) (s : State) : Byte :=
  match mn with
  | .cpx => s.X
  | .cpy => s.Y
  | _ => s.A

theorem argumentRule_compare {mn : Mnemonic} (h : mn ∈ [Mnemonic.cmp, .cpx, .cpy]) (m : Byte) (s : State) :
    mn.argumentRule m s = s.compare (mn.comparedReg s) m := by
  simp only [List.mem_cons, List.not_mem_nil, or_false] at h
  rcases h with rfl | rfl | rfl <;> rfl

theorem byte_sub_toNat (r m : Byte) : ((r - m).toNat : Int) = ((r.toNat : Int) - m.toNat) % 256 := by
  have hm := m.isLt
  rw [BitVec.toNat_sub]
  omega

/-- C, then N and Z: how a comparison and a shift leave P. -/
theorem setCarryNZ_eq (b : Bool) (v : Byte) (s : State) :
    ∃ p, (s.setFlag .c b).setNZ v = { s with P := p } ∧ flagOf .c p = b ∧ showsNZ v p ∧
      keepsExcept [.n, .z, .c] s.P p := by
  refine ⟨_, rfl, by simp, showsNZ_setNZ _ _, keepsExcept_setNZ (by decide) (by decide) _ ?_⟩
  exact keepsExcept_putFlag (by decide) _ (keepsExcept_refl _ _)

/-- A comparison, whole: it writes C, N and Z of P and nothing else (R137). -/
theorem compare_eq (r m : Byte) (s : State) :
    ∃ p, s.compare r m = { s with P := p } ∧ (flagOf .c p = true ↔ r.toNat ≥ m.toNat) ∧ showsNZ (r - m) p ∧
      keepsExcept [.n, .z, .c] s.P p := by
  obtain ⟨p, hp, hC, hNZ_keep⟩ := setCarryNZ_eq (decide (r.toNat ≥ m.toNat)) (r - m) s
  exact ⟨p, hp, by rw [hC, decide_eq_true_iff], hNZ_keep⟩

/-- Settles O46: each compares its register with M. -/
theorem comparesSetCarryZeroNegative : Obligations.ComparesSetCarryZeroNegative := by
  refine ⟨rfl, rfl, rfl, fun i s hmn => ?_⟩
  have hcat : ∀ mn ∈ [Mnemonic.cmp, .cpx, .cpy], mn.category = .argument := by decide
  obtain ⟨m, l, b, hoperand, hexec⟩ := exec_argumentRule rfl (hcat _ hmn) s
  rw [argumentRule_compare hmn] at hexec
  obtain ⟨p, hp, hC, hNZ, hkeep⟩ := compare_eq (i.mnemonic.comparedReg s) m { s with answers := l, bus := b }
  refine ⟨m, _, p, l, b, i.mnemonic.comparedReg s, hoperand, hexec.trans (congrArg _ hp), ?_, ?_, ?_,
    byte_sub_toNat _ m, hC, hNZ, hkeep⟩
  · exact fun h => by rw [h]; rfl
  · exact fun h => by rw [h]; rfl
  · exact fun h => by rw [h]; rfl

/-! ## LDA, LDX and LDY -/

/-- Settles O47: each loads its register with M, through SetNZ. -/
theorem loadsCopyTheOperand : Obligations.LoadsCopyTheOperand := by
  refine ⟨rfl, rfl, rfl, fun i s hmn => ?_⟩
  have hcat : ∀ mn ∈ [Mnemonic.lda, .ldx, .ldy], mn.category = .argument := by decide
  obtain ⟨m, l, b, hoperand, hexec⟩ := exec_argumentRule rfl (hcat _ hmn) s
  obtain ⟨hNZ, hkeep⟩ := setNZ_shows_and_keeps m s
  refine ⟨m, (s.setNZ m).P, l, b, hoperand, hNZ, hkeep, ?_, ?_, ?_⟩
  · exact fun h => by rw [hexec, h]; rfl
  · exact fun h => by rw [hexec, h]; rfl
  · exact fun h => by rw [hexec, h]; rfl

end Sys2Proof

/-! MemoryWrite instructions (44_memory_write.md): JSR, INC and DEC. -/

namespace Sys2Proof

open Machine

/-! ## JSR -/

/-- A word pushed is two bytes at two slots of the ring, and every other byte is as before (R41). -/
theorem push16_byteAt (w : Word) (s : State) (a : Word) : (push16 w s).byteAt a =
    if a = stackSlot s 0 then hiByte w else if a = stackSlot s (-1) then loByte w else s.byteAt a := by
  rw [push16, push8_byteAt, push8_byteAt, push8_S, stackSlot_zero, stackSlot_neg_one]
  apply ite_ite_comm
  rintro rfl
  exact stackAddr_sub_one_ne s.S

/-- Settles O49: JSR is a push of the word PC - 1, then a jump. -/
theorem jsrPushesTheReturnAddress : Obligations.JsrPushesTheReturnAddress := by
  refine ⟨rfl, fun s w => ⟨(push16 (s.PC - 1) s).mem, (push16 (s.PC - 1) s).bus, ?_, push16_byteAt (s.PC - 1) s⟩⟩
  have hexec : exec (.jsrAbs w) s = .next { push16 (s.PC - 1) s with PC := w } := rfl
  rw [hexec, push16_eq]

/-! ## INC and DEC -/

/-- The function of a counting mnemonic (R149, R150). -/
def Mnemonic.countFn : Mnemonic → Byte → Byte
  | .inc, m => m + 1
  | .dec, m => m - 1
  | _, m => m

/-- The rule of INC and of DEC, as one rule: read, count, write back, SetNZ. -/
theorem memoryRule_count {mn : Mnemonic} (h : mn ∈ [Mnemonic.inc, .dec]) (ea : Word) (s : State) :
    mn.memoryRule ea s =
      (memWrite ea (mn.countFn (s.answer 0 ea)) (memRead ea s).2).setNZ (mn.countFn (s.answer 0 ea)) := by
  simp only [List.mem_cons, List.not_mem_nil, or_false] at h
  rcases h with rfl | rfl <;> rfl

/-- One read, then one write of `ea`, and SetNZ of the byte written, whole (R34, R149, R150). -/
theorem setNZ_memWrite_memRead_eq (ea : Word) (r : Byte) (s : State) :
    (memWrite ea r (memRead ea s).2).setNZ r = { s with
      P := (s.setNZ r).P
      mem := Memory.put s.mem ea.toNat r
      answers := s.answers.tail
      bus := s.bus ++ [.read ea, .write ea r] } := by
  simp [memWrite_eq, memRead_eq, State.setNZ, State.setFlag]

/-- INC and DEC have no mode with pointer reads (R149, R150). -/
theorem pointers_of_count {i : Instr} (h : i.mnemonic ∈ [Mnemonic.inc, .dec]) (s : State) : i.pointers s = [] := by
  cases i with
  | incZp | incZpx | incAbs | incAbx | decZp | decZpx | decAbs | decAbx => rfl
  | _ => simp [Instr.mnemonic] at h

/-- INC and DEC run their rule at `ea` in the very state in which `Execute` starts. -/
theorem exec_count {i : Instr} (h : i.mnemonic ∈ [Mnemonic.inc, .dec]) (s : State) :
    ∃ ea, i.address s = some ea ∧ exec i s = .next (i.mnemonic.memoryRule ea s) := by
  have hcat : ∀ mn ∈ [Mnemonic.inc, .dec], mn.category = .memoryWrite := by decide
  obtain ⟨ea, hea, hexec⟩ := exec_memoryWrite (hcat _ h) s
  rw [pointers_of_count h, List.append_nil] at hexec
  exact ⟨ea, hea, hexec⟩

/-- Settles O50: the byte at `ea` goes through the count and back, with SetNZ of the result. -/
theorem incAndDecCountInMemory : Obligations.IncAndDecCountInMemory := by
  refine ⟨rfl, rfl, fun i s hmn => ?_⟩
  obtain ⟨ea, hea, hexec⟩ := exec_count hmn s
  rw [memoryRule_count hmn, setNZ_memWrite_memRead_eq] at hexec
  refine ⟨ea, _, _, _, _, hea, hexec, fun h => ?_, fun h => ?_, fun a => get_put_word s.mem ea a _,
    setNZ_shows_and_keeps _ s⟩
  · rw [h]
    exact byte_add_one_toNat _
  · rw [h]
    exact byte_sub_one_toNat _

end Sys2Proof

/-! AccumulatorWrite instructions (45_accumulator_write.md): ASL, LSR, ROL and ROR. -/

namespace Sys2Proof

open Machine

/-! ## One bit to the left or to the right, with a carry in -/

theorem byte_shiftLeft_one_toNat (m : Byte) : (m <<< 1).toNat = 2 * m.toNat % 256 := by
  rw [BitVec.toNat_shiftLeft, Nat.shiftLeft_eq, Nat.mul_comm]

theorem byte_shiftRight_one_toNat (m : Byte) : (m >>> 1).toNat = m.toNat / 2 :=
  BitVec.toNat_ushiftRight m 1

/-- A carry or'ed into a bit that is 0 adds that bit's weight. -/
theorem byte_or_bit_toNat {x : Byte} {k : Nat} (hk : k < 8) (hfree : x.getLsbD k = false) (c : Bool) :
    (x ||| if c then BitVec.twoPow 8 k else 0).toNat = x.toNat + 2 ^ k * c.toNat := by
  cases c with
  | false => simp
  | true =>
    have hand : x &&& BitVec.twoPow 8 k = 0 := by rw [BitVec.and_twoPow, hfree]; rfl
    rw [if_pos rfl, ← BitVec.add_eq_or_of_and_eq_zero _ _ hand, BitVec.toNat_add_of_and_eq_zero hand,
      BitVec.toNat_twoPow_of_lt hk, Bool.toNat_true, Nat.mul_one]

/-- A shift to the left leaves bit 0 free, and ROL puts C there (R159). -/
theorem rolFn_toNat (m : Byte) (c : Bool) : (rolFn m c).1.toNat = 2 * m.toNat % 256 + c.toNat := by
  have hor := byte_or_bit_toNat (x := m <<< 1) (k := 0) (by decide) (by simp) c
  rw [byte_shiftLeft_one_toNat, pow_zero, Nat.one_mul] at hor
  exact hor

/-- A shift to the right leaves bit 7 free, and ROR puts C there (R160). -/
theorem rorFn_toNat (m : Byte) (c : Bool) : (rorFn m c).1.toNat = m.toNat / 2 + 128 * c.toNat := by
  have hor := byte_or_bit_toNat (x := m >>> 1) (k := 7) (by decide) (by simp) c
  rw [byte_shiftRight_one_toNat] at hor
  exact hor

/-! ## ASL, LSR, ROL and ROR -/

/-- A shift instruction, whole: with `r` and `c` its function of the operand and C, P is that of C, then N and Z, and
`r` goes to A or to `ea`, which is read once and written once (R156). -/
theorem exec_shift_operand {i : Instr} (h : i.mnemonic.category = .accumulatorWrite) (s : State) :
    ∃ m r c, i.operand s = some m ∧ i.mnemonic.shiftFn m (flagOf .c s.P) = (r, c) ∧
      (i.mode = .accumulator → exec i s = .next { s with A := r, P := ((s.setFlag .c c).setNZ r).P }) ∧
      (i.mode ≠ .accumulator → ∃ ea mm l, i.address s = some ea ∧
        exec i s = .next { s with
          P := ((s.setFlag .c c).setNZ r).P
          mem := mm
          answers := l
          bus := s.bus ++ [.read ea, .write ea r] } ∧
        ∀ a : Word, Memory.get mm a.toNat = if a = ea then r else s.byteAt a) := by
  rcases exec_shift h s with ⟨hform, hmode, hexec⟩ | ⟨am, hform, hmode, -, hpointers, hexec⟩
  · rw [shiftAccumulator_eq] at hexec
    exact ⟨s.A, _, _, by simp only [Instr.operand, hform], rfl, fun _ => hexec, fun hne => absurd hmode hne⟩
  · rw [shiftMemory_eq, hpointers, List.append_nil] at hexec
    exact ⟨s.answer am.reads (effAddr am s).1, _, _, by simp only [Instr.operand, hform], rfl,
      fun hacc => absurd hacc hmode, fun _ => ⟨(effAddr am s).1, _, _, by simp only [Instr.address, hform], hexec,
        fun a => get_put_word s.mem _ a _⟩⟩

/-- Settles O52: the operand goes through the mnemonic's function, and P through C, then N and Z. -/
theorem shiftsAndRotatesMoveByOneBit : Obligations.ShiftsAndRotatesMoveByOneBit := by
  refine ⟨rfl, rfl, rfl, rfl, fun i s hmn => ?_⟩
  have hcat : ∀ mn ∈ [Mnemonic.asl, .lsr, .rol, .ror], mn.category = .accumulatorWrite := by decide
  obtain ⟨m, r, c, hoperand, hfn, hacc, hmem⟩ := exec_shift_operand (hcat _ hmn) s
  obtain ⟨p, hp, hC, hNZ, hkeep⟩ := setCarryNZ_eq c r s
  rw [hp] at hacc hmem
  refine ⟨m, r, p, hoperand, fun h => ?_, fun h => ?_, fun h => ?_, fun h => ?_, hNZ, hkeep, hacc, hmem⟩
  all_goals
    rw [h] at hfn
    obtain ⟨rfl, rfl⟩ := Prod.mk.inj hfn
  · exact ⟨byte_shiftLeft_one_toNat m, hC⟩
  · exact ⟨byte_shiftRight_one_toNat m, hC⟩
  · exact ⟨rolFn_toNat m _, hC⟩
  · exact ⟨rorFn_toNat m _, hC⟩

end Sys2Proof

/-! What the host may do to a running program without interrupting it (spec/60_exceptions.md R171, R177): ask for an IRQ
that is masked, and change a byte of memory between operations. -/

namespace Sys2Proof

open Machine

/-! ## A masked IRQ -/

/-- While I is 1, IRQ leaves the state in which it starts (R171). -/
theorem operation_irq_of_masked (om : OpcodeMap) {s : State} (hi : s.flag .i = true) : operation om .irq s = s :=
  if_pos hi

/-- Settles O17: the operation starts with no bus access and nothing returned, and a masked IRQ adds nothing to that. -/
theorem irqIsDroppedWhenIIsSet : Obligations.IrqIsDroppedWhenIIsSet := by
  intro s ho hr hi
  have hi' : s.popOp.beginOp.flag .i = true := hi
  rw [step, stepWith_eq_operation _ (.inr ⟨hr, by simp [ho]⟩), ho, operation_irq_of_masked _ hi']
  rfl

/-! ## A memory write of the host -/

theorem stepWith_of_write (om : OpcodeMap) {s : State} {a : Word} {v : Byte} (h : s.nextOp = .write a v) :
    stepWith om s = .next (opWrite a v s.popOp) := by
  simp only [stepWith, h]

/-- Settles O19: the step stores the byte in the list of cells and takes the move off the queue. -/
theorem hostMemoryWriteChangesOneByte : Obligations.HostMemoryWriteChangesOneByte :=
  fun s a v ho => ⟨Memory.put s.mem a.toNat v, stepWith_of_write _ ho, fun b => get_put_word s.mem a b v⟩

end Sys2Proof

/-! Decoding (30_encoding.md): the decoder inverts the encoder, and what the opcode table holds. -/

namespace Sys2Proof

open Machine

/-! ## The decoder inverts the encoder -/

open Laws.RoundTrip in
/-- Every instruction comes back from its bytes (R50 to R53), by its own law. -/
theorem roundTrip (i : Instr) : Laws.RoundTrip.Statement i := by
  cases i
  exacts [
    clc, cld, cli, clv, sec, sed, sei, dex, dey, inx, iny, tax, tay, txa, tya, tsx, txs, nop, pha, php, pla, plp,
    brk, rti, rts, bcc _, bcs _, bne _, beq _, bpl _, bmi _, bvc _, bvs _, adcImm _, adcZp _, adcZpx _, adcAbs _,
    adcAbx _, adcAby _, adcIzx _, adcIzy _, sbcImm _, sbcZp _, sbcZpx _, sbcAbs _, sbcAbx _, sbcAby _, sbcIzx _,
    sbcIzy _, andImm _, andZp _, andZpx _, andAbs _, andAbx _, andAby _, andIzx _, andIzy _, eorImm _, eorZp _,
    eorZpx _, eorAbs _, eorAbx _, eorAby _, eorIzx _, eorIzy _, oraImm _, oraZp _, oraZpx _, oraAbs _, oraAbx _,
    oraAby _, oraIzx _, oraIzy _, bitZp _, bitAbs _, cmpImm _, cmpZp _, cmpZpx _, cmpAbs _, cmpAbx _, cmpAby _,
    cmpIzx _, cmpIzy _, cpxImm _, cpxZp _, cpxAbs _, cpyImm _, cpyZp _, cpyAbs _, ldaImm _, ldaZp _, ldaZpx _,
    ldaAbs _, ldaAbx _, ldaAby _, ldaIzx _, ldaIzy _, ldxImm _, ldxZp _, ldxZpy _, ldxAbs _, ldxAby _, ldyImm _,
    ldyZp _, ldyZpx _, ldyAbs _, ldyAbx _, jmpAbs _, jmpInd _, jsrAbs _, incZp _, incZpx _, incAbs _, incAbx _,
    decZp _, decZpx _, decAbs _, decAbx _, staZp _, staZpx _, staAbs _, staAbx _, staAby _, staIzx _, staIzy _,
    stxZp _, stxZpy _, stxAbs _, styZp _, styZpx _, styAbs _, aslAcc, aslZp _, aslZpx _, aslAbs _, aslAbx _, lsrAcc,
    lsrZp _, lsrZpx _, lsrAbs _, lsrAbx _, rolAcc, rolZp _, rolZpx _, rolAbs _, rolAbx _, rorAcc, rorZp _, rorZpx _,
    rorAbs _, rorAbx _]

/-- The operand bytes of an operand form, low byte first (R53). -/
def Machine.OperandForm.bytes : OperandForm → List Byte
  | .none | .accumulator => []
  | .immediate x | .relative x => [x]
  | .memory (.zeroPage x) | .memory (.zeroPageX x) | .memory (.zeroPageY x) => [x]
  | .memory (.indirectX x) | .memory (.indirectY x) => [x]
  | .memory (.absolute w) | .memory (.absoluteX w) | .memory (.absoluteY w) => [loByte w, hiByte w]
  | .memory (.indirect w) => [loByte w, hiByte w]

/-- No bit of the operand bytes is dropped in the operand form (R53, R68). -/
theorem bytes_of_operandForm {md : Mode} {ops : List Byte} {f : OperandForm} (h : operandForm md ops = some f) :
    f.bytes = ops := by
  unfold operandForm at h
  split at h <;> cases h <;> simp only [OperandForm.bytes, loByte_mkWord, hiByte_mkWord]

/-- A row of the table is known by its mnemonic and its mode. -/
theorem row_of_mnemonic_mode {e e' : DecodeEntry} (he : e ∈ opcodeTable) (he' : e' ∈ opcodeTable)
    (hmn : e.mnemonic = e'.mnemonic) (hmd : e.mode = e'.mode) : e = e' := by
  have hnodup : (opcodeTable.map fun e => (e.mnemonic, e.mode)).Nodup := by decide +kernel
  exact List.inj_on_of_nodup_map hnodup he he' (Prod.ext hmn hmd)

/-- The one opcode and the one list of operand bytes that assemble to `i` are its encoding. -/
theorem encode_of_assemble {op : Byte} {e : DecodeEntry} {ops : List Byte} {i : Instr} (hlookup : lookup op = some e)
    (hasm : assemble e.mnemonic e.mode ops = some i) : encode i = op :: ops := by
  obtain ⟨op', e', ops', hlookup', hasm', -, hbytes⟩ := decode_eq_instr ((roundTrip i).1 [])
  obtain ⟨he, rfl⟩ := lookup_eq_some hlookup
  obtain ⟨he', rfl⟩ := lookup_eq_some hlookup'
  obtain ⟨hmn, hmd⟩ := assemble_eq_some hasm
  obtain ⟨hmn', hmd'⟩ := assemble_eq_some hasm'
  obtain rfl := row_of_mnemonic_mode he he' (hmn.symm.trans hmn') (hmd.symm.trans hmd')
  rw [← bytes_of_operandForm (assemble_form hasm), bytes_of_operandForm (assemble_form hasm')]
  simpa using hbytes

/-- Settles O2: the bytes that decode to `i` are an opcode and operand bytes that assemble to it, so they are its
encoding. -/
theorem decodeInvertsEncode : Obligations.DecodeInvertsEncode := by
  intro i bs rest
  constructor
  · intro h
    obtain ⟨op, e, ops, hlookup, hasm, -, rfl⟩ := decode_eq_instr h
    rw [encode_of_assemble hlookup hasm, List.cons_append]
  · rintro rfl
    exact (roundTrip i).1 rest

/-! ## The table -/

/-- Settles O1: the decoder evaluated on each of the nineteen lists. -/
theorem wordsOfEveryFamilyDecode : Obligations.WordsOfEveryFamilyDecode :=
  ⟨rfl, rfl, rfl, rfl, rfl, rfl, rfl, rfl, rfl, rfl, rfl, rfl, rfl, rfl, rfl, rfl, rfl, rfl, rfl⟩

/-- Settles O3: a search of the table at each of the 256 values. -/
theorem unofficialOpcodesAreTheListed105 : Obligations.UnofficialOpcodesAreTheListed105 := by
  unfold Obligations.UnofficialOpcodesAreTheListed105
  decide +kernel

/-- Settles O4: the table is the default opcode map, and whether a row assembles does not depend on the bytes. -/
theorem opcodeTableIsConsistent : Obligations.OpcodeTableIsConsistent := by
  refine ⟨Config.opcodeMap.wf, rfl, fun e he ops hops => ?_⟩
  obtain ⟨i, hi⟩ := assemble_row he hops
  exact ⟨i, hi, assemble_eq_some hi⟩

end Sys2Proof

/-! Pointers and effective addresses (20_memory.md section 6, 40_dispatch_and_addressing.md section 2), as numbers. -/

namespace Sys2Proof

open Machine

/-! ## Addresses of the zero page -/

theorem mkWord_zero_toNat (z : Byte) : (mkWord 0 z).toNat = z.toNat := by
  simp [mkWord_toNat]

theorem zext16_toNat (z : Byte) : (zext16 z).toNat = z.toNat := by
  rw [zext16_eq_mkWord, mkWord_zero_toNat]

theorem mkWord_zero_eq_ofNat (z : Byte) : mkWord 0 z = BitVec.ofNat 16 z.toNat := by
  rw [← mkWord_zero_toNat z, BitVec.ofNat_toNat, BitVec.setWidth_eq]

/-! ## The second byte of a pointer -/

/-- Away from the end of the page the next address in the page is the next address (R38). -/
theorem mkWord_nextInPage_of_ne {w : Word} (h : w.toNat % 256 ≠ 255) : mkWord (hiByte w) (loByte w + 1) = w + 1 := by
  have hlt := w.isLt
  apply BitVec.eq_of_toNat_eq
  rw [mkWord_nextInPage_toNat, BitVec.toNat_add]
  change _ = (w.toNat + 1) % 65536
  omega

/-- At the end of the page it is the first address of the page (R38). -/
theorem mkWord_nextInPage_of_eq {w : Word} (h : w.toNat % 256 = 255) : mkWord (hiByte w) (loByte w + 1) = w - 255 := by
  have hlt := w.isLt
  apply BitVec.eq_of_toNat_eq
  rw [mkWord_nextInPage_toNat, BitVec.toNat_sub]
  change _ = (65536 - 255 + w.toNat) % 65536
  omega

/-- Settles O28, from what each of the three reads does to the whole state. -/
theorem pointerReadsWrapWhereTheSpecSays : Obligations.PointerReadsWrapWhereTheSpecSays := by
  intro s a z
  refine ⟨⟨a + 1, pc_add_toNat a 1, read16_eq a s⟩, ⟨mkWord 0 z, mkWord 0 (z + 1), mkWord_zero_toNat z, ?_,
    read16ZP_eq z s⟩, ⟨_, mkWord_nextInPage_toNat a, read16Bug_eq a s⟩, fun h => ?_⟩
  · rw [mkWord_zero_toNat, byte_add_one_toNat]
  · rw [read16Bug_eq, read16_eq, mkWord_nextInPage_of_ne h, wordAt]

/-! ## Effective addresses -/

theorem mkWord_nextInPage_eq_ite (w : Word) :
    mkWord (hiByte w) (loByte w + 1) = if w.toNat % 256 = 255 then w - 255 else w + 1 := by
  by_cases h : w.toNat % 256 = 255
  · rw [if_pos h, mkWord_nextInPage_of_eq h]
  · rw [if_neg h, mkWord_nextInPage_of_ne h]

/-- Settles O29, mode by mode. -/
theorem effectiveAddressesWithoutCarry : Obligations.EffectiveAddressesWithoutCarry := by
  intro s z op1 op2 w
  refine ⟨⟨zext16_toNat z, rfl⟩, ⟨?_, rfl⟩, ⟨?_, rfl⟩, ⟨mkWord_toNat op2 op1, rfl⟩, ⟨?_, _, _, effAddr_snd _ s⟩,
    ⟨?_, _, _, effAddr_snd _ s⟩⟩
  · rw [effAddr, zext16_toNat, BitVec.toNat_add]
  · rw [effAddr, zext16_toNat, BitVec.toNat_add]
  · rw [effAddr, read16Bug_eq, mkWord_nextInPage_eq_ite]
  · rw [effAddr, read16ZP_eq, mkWord_zero_eq_ofNat, mkWord_zero_eq_ofNat, byte_add_one_toNat, BitVec.toNat_add,
      Nat.mod_add_mod]

/-- Settles O30: an index is added to the word of the mode, with the carry into the high byte. -/
theorem indexedAddressesCarryIntoTheHighByte : Obligations.IndexedAddressesCarryIntoTheHighByte := by
  intro s w z
  refine ⟨⟨?_, rfl⟩, ⟨?_, rfl⟩, ?_, _, _, effAddr_snd _ s⟩
  · rw [effAddr, BitVec.toNat_add, zext16_toNat]
  · rw [effAddr, BitVec.toNat_add, zext16_toNat]
  · rw [effAddr, read16ZP_eq, BitVec.toNat_add, mkWord_toNat, zext16_toNat, mkWord_zero_eq_ofNat,
      mkWord_zero_eq_ofNat, byte_add_one_toNat]

end Sys2Proof

/-! The status register (10_state.md section 4, 41_command.md section 5): bit 5 reads as 1, and P on the stack. -/

namespace Sys2Proof

open Machine

/-! ## Bit 5 -/

theorem or_bit5_bit5 (p : Byte) : (p ||| bit5).getLsbD 5 = true := by
  rw [or_bit5_getLsbD, decide_eq_true rfl, Bool.or_true]

theorem or_bit5_getLsbD_of_ne (p : Byte) {k : Nat} (hk : k ≠ 5) : (p ||| bit5).getLsbD k = p.getLsbD k := by
  rw [or_bit5_getLsbD, decide_eq_false hk, Bool.or_false]

/-- Settles O32: WriteP and the debug port or bit 5 into P, and a flag write touches the bit of its flag. -/
theorem bitFiveOfStatusReadsAsOne : Obligations.BitFiveOfStatusReadsAsOne := by
  intro s v f b
  refine ⟨⟨or_bit5_bit5 v, fun k _ hk => or_bit5_getLsbD_of_ne v hk⟩,
    ⟨?_, keepsExcept_putFlag List.mem_cons_self b (keepsExcept_refl _ _)⟩,
    s.readP, rfl, or_bit5_bit5 s.P, fun k _ hk => or_bit5_getLsbD_of_ne s.P hk⟩
  rw [setFlag_P, flagOf_putFlag, if_pos rfl]

/-! ## PHP and PLP -/

/-- Settles O38: PHP is a push of P as it reads, and PLP is WriteP of the byte popped. -/
theorem statusIsPushedAndPulled : Obligations.StatusIsPushedAndPulled := by
  refine ⟨rfl, rfl, fun s => ⟨⟨_, _, congrArg Host.Outcome.next (push8_eq s.readP s), fun a => ?_⟩, ?_⟩⟩
  · rw [stackSlot_zero]
    exact get_put_word s.mem (stackAddr s.S) a s.readP
  · rw [stackSlot_eq, List.drop_one]
    exact ⟨_, _, rfl, or_bit5_bit5 _, fun k _ hk => or_bit5_getLsbD_of_ne _ hk⟩

end Sys2Proof

/-! Branches (42_branch.md), SBC and the decimal flag (43_argument.md section 1), and the stores (44_memory_write.md
section 3). -/

namespace Sys2Proof

open Machine

/-! ## Branches -/

/-- PC plus the sign-extended displacement is the signed sum modulo 65536 (R75, D3). -/
theorem pc_add_sext16_toNat (pc : Word) (d : Byte) :
    ((pc + sext16 d).toNat : Int) = ((pc.toNat : Int) + d.toInt) % 65536 := by
  have hofInt : sext16 d = BitVec.ofInt 16 d.toInt := rfl
  rw [hofInt, BitVec.toNat_add, BitVec.toNat_ofInt]
  omega

/-- A branch with the condition `c`, whole (R120). -/
theorem branchIf_pc {c : Bool} {P : Prop} (hc : c = true ↔ P) (d : Byte) (s : State) :
    ∃ pc, branchIf c d s = { s with PC := pc } ∧
      (P → (pc.toNat : Int) = ((s.PC.toNat : Int) + d.toInt) % 65536) ∧ (¬ P → pc = s.PC) := by
  refine ⟨_, branchIf_eq c d s, fun hP => ?_, fun hP => ?_⟩
  · rw [if_pos (hc.mpr hP), pc_add_sext16_toNat]
  · rw [if_neg (fun e => hP (hc.mp e))]

/-- Settles O40: each of the eight is a branch whose condition is that its flag has its value. -/
theorem branchesMovePcByTheSignedDisplacement : Obligations.BranchesMovePcByTheSignedDisplacement := by
  refine ⟨rfl, rfl, rfl, rfl, rfl, rfl, rfl, rfl, fun d s x hx => ?_⟩
  have hexec : ∃ c, exec x.1 s = .next (branchIf c d s) ∧ (c = true ↔ flagOf x.2.1 s.P = x.2.2) := by
    simp only [List.mem_cons, List.not_mem_nil, or_false] at hx
    rcases hx with rfl | rfl | rfl | rfl | rfl | rfl | rfl | rfl <;> exact ⟨_, rfl, by simp⟩
  obtain ⟨c, hexec, hc⟩ := hexec
  obtain ⟨pc, hbranch, htaken, hnot⟩ := branchIf_pc hc d s
  exact ⟨pc, hexec.trans (congrArg _ hbranch), htaken, hnot⟩

/-! ## SBC -/

section

variable (a m : Byte) (c : Bool)

/-- The sum of ADC with the complement of M is 256 more than the difference of SBC (R132). -/
theorem adcCarry_not : adcCarry a (~~~ m) c = sbcCarry a m c := by
  have hm := m.isLt
  have hc := c.toNat_le
  rw [Bool.eq_iff_iff, adcCarry_iff, sbcCarry, decide_eq_true_iff, sbcDiff_eq, BitVec.toNat_not]
  omega

/-- M and its complement differ in sign, so "the same sign as ~M" is "not the sign of M" (R131, R132). -/
theorem adcOverflow_not : adcOverflow a (~~~ m) c = sbcOverflow a m c := by
  rw [adcOverflow, sbcOverflow, ← sbcResult_eq_adcResult]
  cases h : m.msb <;> cases a.msb <;> simp [h]

theorem sbcResult_toNat : ((sbcResult a m c).toNat : Int) = ((a.toNat : Int) - m.toNat - (1 - c.toNat)) % 256 := by
  rw [sbcResult, BitVec.toNat_ofInt, sbcDiff_eq]
  omega

theorem sbcCarry_iff : sbcCarry a m c = true ↔ (a.toNat : Int) - m.toNat - (1 - c.toNat) ≥ 0 := by
  rw [sbcCarry, decide_eq_true_iff, sbcDiff_eq]

theorem sbcOverflow_iff : sbcOverflow a m c = true ↔
    a.getLsbD 7 ≠ (sbcResult a m c).getLsbD 7 ∧ a.getLsbD 7 ≠ m.getLsbD 7 := by
  simp [sbcOverflow, BitVec.msb_eq_getLsbD_last]

end

/-- SBC with M is ADC with the complement of M, whole (R132). -/
theorem sbc_eq_adc_not (m : Byte) (s : State) : sbc m s = adc (~~~ m) s := by
  rw [sbc_eq, adc_eq, adcCarry_not, adcOverflow_not, sbcResult_eq_adcResult]

/-- SBC looks at A and P, not at the bus. -/
theorem sbc_setBus (m : Byte) (s : State) (l : List (Option Byte)) (b : List BusAccess) :
    sbc m { s with answers := l, bus := b } = { sbc m s with answers := l, bus := b } := by
  rw [sbc_eq, sbc_eq]
  rfl

/-- SBC, whole: the result goes to A, and P shows its carry, its overflow, N and Z (R132). -/
theorem sbc_shows_and_keeps (m : Byte) (s : State) : ∃ p,
    sbc m s = { s with A := sbcResult s.A m (flagOf .c s.P), P := p } ∧
      flagOf .c p = sbcCarry s.A m (flagOf .c s.P) ∧ flagOf .v p = sbcOverflow s.A m (flagOf .c s.P) ∧
      showsNZ (sbcResult s.A m (flagOf .c s.P)) p ∧ keepsExcept [.n, .v, .z, .c] s.P p := by
  obtain ⟨p, hp⟩ := adc_shows_and_keeps (~~~ m) s
  rw [← sbc_eq_adc_not, adcCarry_not, adcOverflow_not, ← sbcResult_eq_adcResult] at hp
  exact ⟨p, hp⟩

/-- Settles O42: the rule writes the difference modulo 256, its carry and its overflow. -/
theorem sbcSubtractsWithBorrow : Obligations.SbcSubtractsWithBorrow := by
  refine ⟨rfl, fun i s hmn => ?_⟩
  obtain ⟨m, l, b, hoperand, hexec⟩ := exec_argumentRule hmn rfl s
  obtain ⟨p, hsbc, hC, hV, hNZ, hkeep⟩ := sbc_shows_and_keeps m s
  have hadc : exec (.adcImm (~~~ m)) s = .next (adc (~~~ m) s) := rfl
  rw [Mnemonic.argumentRule, sbc_setBus, hsbc] at hexec
  rw [← sbc_eq_adc_not, hsbc] at hadc
  refine ⟨m, _, p, l, b, hoperand, hexec, sbcResult_toNat _ _ _, ?_, ?_, hNZ, hkeep, hadc⟩
  · rw [hC, sbcCarry_iff]
  · rw [hV, sbcOverflow_iff]

/-! ## The decimal flag -/

theorem setFlag_comm {f g : Flag} (h : f ≠ g) (b c : Bool) (s : State) :
    (s.setFlag g c).setFlag f b = (s.setFlag f b).setFlag g c := by
  have hbit (e : f.bit = g.bit) : False := h (Flag.bit_inj.mp e)
  have hP : putFlag f b (putFlag g c s.P) = putFlag g c (putFlag f b s.P) := by
    refine status_ext fun k _ => ?_
    simp only [putFlag_getLsbD]
    by_cases hf : k = f.bit
    · rw [if_pos hf, if_neg (fun hg => hbit (hf.symm.trans hg)), if_pos hf]
    · rw [if_neg hf, if_neg hf]
  exact congrArg (fun p => { s with P := p }) hP

theorem setNZ_setD (v : Byte) (d : Bool) (s : State) : (s.setFlag .d d).setNZ v = (s.setNZ v).setFlag .d d := by
  rw [State.setNZ, State.setNZ, setFlag_comm (f := .z) (by decide), setFlag_comm (f := .n) (by decide)]

/-- ADC neither reads nor writes D (R131, D22). -/
theorem adc_setD (m : Byte) (d : Bool) (s : State) : adc m (s.setFlag .d d) = (adc m s).setFlag .d d := by
  have hC : (s.setFlag .d d).flag .c = s.flag .c := flagOf_putFlag .c .d d s.P
  simp only [adc, hC, setFlag_A, setFlag_comm (f := .c) (g := .d) (by decide),
    setFlag_comm (f := .v) (g := .d) (by decide), setNZ_setD]
  rfl

section

variable (i : Instr) (f : Flag) (b : Bool) (s : State)

theorem effAddr_setFlag (am : AddrMode) : (effAddr am (s.setFlag f b)).1 = (effAddr am s).1 := by
  cases am <;> rfl

theorem operand_setFlag : i.operand (s.setFlag f b) = i.operand s := by
  unfold Instr.operand
  cases i.form with
  | memory am => simp only [effAddr_setFlag, setFlag_answer]
  | _ => rfl

theorem argumentReads_setFlag : i.argumentReads (s.setFlag f b) = i.argumentReads s := by
  unfold Instr.argumentReads
  cases i.form with
  | memory am =>
    have hpointers : pointerReads am (s.setFlag f b) = pointerReads am s := by cases am <;> rfl
    simp only [effAddr_setFlag, hpointers]
  | _ => rfl

end

/-- Settles O43: the operand and the reads do not depend on P, and neither rule reads or writes D. -/
theorem decimalFlagDoesNotChangeArithmetic : Obligations.DecimalFlagDoesNotChangeArithmetic := by
  intro i s d hmn
  have hcat : ∀ mn ∈ [Mnemonic.adc, .sbc], mn.category = .argument := by decide
  have hrule (m : Byte) (t : State) :
      i.mnemonic.argumentRule m (t.setFlag .d d) = (i.mnemonic.argumentRule m t).setFlag .d d := by
    simp only [List.mem_cons, List.not_mem_nil, or_false] at hmn
    rcases hmn with h | h <;> rw [h]
    · exact adc_setD m d t
    · exact (sbc_eq_adc_not m _).trans ((adc_setD _ d t).trans (by rw [← sbc_eq_adc_not]; rfl))
  obtain ⟨m, hoperand, hexec⟩ := exec_argument (hcat _ hmn) s
  obtain ⟨m', hoperand', hexec'⟩ := exec_argument (hcat _ hmn) (s.setFlag .d d)
  obtain rfl : m' = m := by
    rw [operand_setFlag, hoperand] at hoperand'
    exact (Option.some.inj hoperand').symm
  rw [argumentReads_setFlag] at hexec'
  refine ⟨?_, _, hexec⟩
  rw [hexec, mapNext, ← hrule]
  exact hexec'

/-! ## Stores -/

/-- The register that a store mnemonic stores (R151 to R153). -/
def Mnemonic.storedReg (mn : Mnemonic) (s : State) : Byte :=
  match mn with
  | .stx => s.X
  | .sty => s.Y
  | _ => s.A

theorem memoryRule_store {mn : Mnemonic} (h : mn ∈ [Mnemonic.sta, .stx, .sty]) (ea : Word) (s : State) :
    mn.memoryRule ea s = memWrite ea (mn.storedReg s) s := by
  simp only [List.mem_cons, List.not_mem_nil, or_false] at h
  rcases h with rfl | rfl | rfl <;> rfl

/-- Settles O51: after the pointer reads of the mode, each writes its register at `ea`. -/
theorem storesWriteTheRegister : Obligations.StoresWriteTheRegister := by
  refine ⟨rfl, rfl, rfl, fun i s hmn => ?_⟩
  have hcat : ∀ mn ∈ [Mnemonic.sta, .stx, .sty], mn.category = .memoryWrite := by decide
  obtain ⟨ea, hea, hexec⟩ := exec_memoryWrite (hcat _ hmn) s
  rw [memoryRule_store hmn] at hexec
  refine ⟨ea, i.mnemonic.storedReg s, _, _, i.pointers s, hea, hexec, pointers_place i s, ?_, ?_, ?_,
    fun a => get_put_word s.mem ea a _⟩
  · exact fun h => by rw [h]; rfl
  · exact fun h => by rw [h]; rfl
  · exact fun h => by rw [h]; rfl

end Sys2Proof

/-! One step of the machine (40_dispatch_and_addressing.md, 60_exceptions.md, 70_reset_and_hazards.md): what STEP,
RESET, IRQ and NMI do to the whole state, and BRK, which shares the trap entry with the interrupts. -/

namespace Sys2Proof

open Machine

/-! ## STEP -/

/-- Settles O6, with the entry that the decoder found. -/
theorem stepExecutesTheDecodedInstruction : Obligations.StepExecutesTheDecodedInstruction := by
  intro s i hruns
  obtain ⟨e, t, hlookup, hmn, hmd, hexec, hstep⟩ := step_of_runsNext hruns
  exact ⟨e, hlookup, hmn, hmd, by rw [hexec, hstep, mapNext]⟩

/-- Settles O7: with no entry for the opcode at PC, the fetch of that opcode is the whole step. -/
theorem unofficialOpcodeIsSkipped : Obligations.UnofficialOpcodeIsSkipped :=
  fun _ hr ho hlookup => stepWith_of_unofficial hr ho hlookup

/-- Settles O8: the bytes at PC decode to an instruction, or the opcode there is skipped. -/
theorem stepAlwaysCompletes : Obligations.StepAlwaysCompletes := by
  intro s hr ho
  rcases decodes_or_unofficial s with ⟨i, rest, hdecode⟩ | hlookup
  · obtain ⟨e, t, hlookup, -, -, -, hstep⟩ := step_of_runsNext ⟨hr, ho, rest, hdecode⟩
    exact ⟨_, _, hstep, returnCycles_out t e.cycles, by simp [hlookup]⟩
  · exact ⟨_, _, stepWith_of_unofficial hr ho hlookup, rfl, by simp [hlookup]⟩

/-! ## RESET -/

theorem jumpThrough_eq (v : Word) (s : State) : jumpThrough v s = { s with
    PC := wordAt s v
    answers := s.answers.drop 2
    bus := s.bus ++ [.read v, .read (v + 1)] } := by
  rw [jumpThrough, read16_eq]

/-- Settles O14: RESET writes the registers, then jumps through its vector. -/
theorem resetOperationSetsTheRegisters : Obligations.ResetOperationSetsTheRegisters := by
  intro s ho
  rw [step, stepWith_eq_operation _ (.inl ho), ho, operation, jumpThrough_eq]
  rfl

/-- Settles O15: the power-on registers are overwritten, and the vector reads 0x0000 where no byte is listed. -/
theorem resetStateIsWhatResetLeaves : Obligations.ResetStateIsWhatResetLeaves :=
  ⟨rfl, rfl, rfl, rfl, rfl, rfl, rfl, resetOperationSetsTheRegisters State.powerOn rfl⟩

/-! ## IRQ and NMI -/

/-- The P that an interrupt leaves and pushes has B = 0 and I = 1, its other bits as before (R175, D8). -/
theorem trapFlags_interrupt (s : State) :
    flagOf .b (s.trapFlags false true).P = false ∧ flagOf .i (s.trapFlags false true).P = true ∧
      keepsExcept [.b, .i] s.P (s.trapFlags false true).P := by
  have hP : (s.trapFlags false true).P = putFlag .i true (putFlag .b false s.P) := rfl
  rw [hP]
  refine ⟨by simp, by simp, ?_⟩
  exact keepsExcept_putFlag (by decide) true (keepsExcept_putFlag (by decide) false (keepsExcept_refl _ _))

/-- The trap entry of an interrupt through `v`, from the state in which the operation starts (R172, R173, R175). -/
theorem takeTrap_interrupt {v : Word} (hv : 511 < v.toNat) (hv' : v.toNat < 65535) (s : State) :
    ∃ p m, takeTrap false true v s.popOp.beginOp = { s with
        S := s.S - 3
        P := p
        PC := wordAt s v
        mem := m
        answers := s.answers.drop 2
        bus := [.write (stackSlot s 0) (hiByte s.PC), .write (stackSlot s (-1)) (loByte s.PC),
          .write (stackSlot s (-2)) (p ||| 0x20), .read v, .read (v + 1)]
        out := none
        host := s.host.tail } ∧
      flagOf .b p = false ∧ flagOf .i p = true ∧ keepsExcept [.b, .i] s.P p ∧ TrapFrame s (p ||| 0x20) m := by
  obtain ⟨m, htrap, hframe, -⟩ := takeTrap_eq false true v s.popOp.beginOp hv hv'
  obtain ⟨hb, hi, hkeep⟩ := trapFlags_interrupt s.popOp.beginOp
  exact ⟨_, m, htrap, hb, hi, hkeep, hframe⟩

theorem step_of_irq {s : State} (ho : s.nextOp = .irq) (hr : s.resetSeen = true) (hi : flagOf .i s.P = false) :
    step s = .next (takeTrap false true irqVector s.popOp.beginOp) := by
  have hi' : s.popOp.beginOp.flag .i = false := hi
  rw [step, stepWith_eq_operation _ (.inr ⟨hr, by simp [ho]⟩), ho, operation, hi', if_neg Bool.false_ne_true]

theorem step_of_nmi {s : State} (ho : s.nextOp = .nmi) (hr : s.resetSeen = true) :
    step s = .next (takeTrap false true nmiVector s.popOp.beginOp) := by
  rw [step, stepWith_eq_operation _ (.inr ⟨hr, by simp [ho]⟩), ho, operation]

/-- Settles O16: an IRQ with I = 0 is the trap entry through 0xFFFE. -/
theorem irqIsTakenWhenIIsClear : Obligations.IrqIsTakenWhenIIsClear := by
  intro s ho hr hi
  obtain ⟨p, m, htrap, hP⟩ := takeTrap_interrupt (v := irqVector) (by decide) (by decide) s
  exact ⟨p, m, (step_of_irq ho hr hi).trans (congrArg _ htrap), hP⟩

/-- Settles O18: an NMI is the trap entry through 0xFFFA. -/
theorem nmiIsAlwaysTaken : Obligations.NmiIsAlwaysTaken := by
  intro s ho hr
  obtain ⟨p, m, htrap, hP⟩ := takeTrap_interrupt (v := nmiVector) (by decide) (by decide) s
  exact ⟨p, m, (step_of_nmi ho hr).trans (congrArg _ htrap), hP⟩

/-! ## BRK -/

/-- BRK's rule, whole: the trap entry that sets B and leaves I (R112, R175, D9). -/
theorem commandRule_brk (s : State) : ∃ p m b, Mnemonic.brk.commandRule s = { s with
      S := s.S - 3
      P := p
      PC := wordAt s 0xFFFE
      mem := m
      answers := s.answers.drop 2
      bus := b } ∧
    flagOf .b p = true ∧ keepsExcept [.b] s.P p ∧ TrapFrame s (p ||| 0x20) m := by
  obtain ⟨m, htrap, hframe, -⟩ := takeTrap_eq true false irqVector s (by decide) (by decide)
  have hP : (s.trapFlags true false).P = putFlag .b true s.P := rfl
  rw [hP] at htrap hframe
  exact ⟨_, m, _, htrap, by simp, keepsExcept_putFlag (by decide) true (keepsExcept_refl _ _), hframe⟩

/-- Settles O20, from BRK's rule. -/
theorem brkTakesTheTrap : Obligations.BrkTakesTheTrap := by
  refine ⟨rfl, fun s => ?_⟩
  obtain ⟨p, m, b, hrule, hP⟩ := commandRule_brk s
  exact ⟨p, m, b, congrArg Host.Outcome.next hrule, hP⟩

end Sys2Proof

/-! What every instruction keeps (10_state.md): a property that the rules of an instruction's mnemonic keep, and the
shared operations around them, is kept by the instruction. The registers and the host's interface are read off it. -/

namespace Sys2Proof

open Machine

/-! ## A property kept by the parts is kept by the whole -/

/-- `Q` survives each part that an execution of `i` is made of (R82): the reads of operands, the rule of the mnemonic in
its category, the jump of a branch, and the two places where a shift puts its result. -/
structure KeptByParts (i : Instr) (Q : State → Prop) : Prop where
  reads : ∀ l b s, Q s → Q { s with answers := l, bus := b }
  command : ∀ s, Q s → Q (i.mnemonic.commandRule s)
  branch : i.mnemonic.category = .branch → ∀ pc s, Q s → Q { s with PC := pc }
  argument : ∀ m s, Q s → Q (i.mnemonic.argumentRule m s)
  memory : ∀ ea s, Q s → Q (i.mnemonic.memoryRule ea s)
  shift : ∀ c v s, Q s → Q ((s.setFlag .c c).setNZ v)
  accumulator : i.mode = .accumulator → ∀ v s, Q s → Q { s with A := v }
  store : ∀ ea v s, Q s → Q (memWrite ea v s)

theorem KeptByParts.kept {i : Instr} {Q : State → Prop} (h : KeptByParts i Q) {s t : State} (hs : Q s)
    (hexec : exec i s = .next t) : Q t := by
  have eq_of_exec {u : State} (hu : exec i s = .next u) : t = u := Host.Outcome.next.inj (hexec.symm.trans hu)
  cases hcat : i.mnemonic.category with
  | command =>
    rw [eq_of_exec (exec_command hcat s)]
    exact h.command s hs
  | branch =>
    obtain ⟨d, c, -, -, hu⟩ := exec_branch hcat s
    rw [eq_of_exec hu, branchIf_eq]
    exact h.branch hcat _ s hs
  | argument =>
    obtain ⟨m, -, hu⟩ := exec_argument hcat s
    rw [eq_of_exec hu]
    exact h.argument m _ (h.reads _ _ s hs)
  | memoryWrite =>
    obtain ⟨ea, -, hu⟩ := exec_memoryWrite hcat s
    rw [eq_of_exec hu]
    exact h.memory ea _ (h.reads _ _ s hs)
  | accumulatorWrite =>
    rcases exec_shift hcat s with ⟨-, hmode, hu⟩ | ⟨am, -, -, -, -, hu⟩
    · rw [eq_of_exec hu]
      exact h.accumulator hmode _ _ (h.shift _ _ s hs)
    · have hread : Q (memRead (effAddr am s).1 (effAddr am s).2).2 := by
        rw [memRead_eq, effAddr_snd]
        exact h.reads _ _ s hs
      rw [eq_of_exec hu]
      exact h.store _ _ _ (h.shift _ _ _ hread)

/-! ## The host's interface -/

/-- What the host sees and sets besides the bus: its queue, the value returned, and the two marks (log 1, 3, 6, 9). -/
def Machine.State.interface (s : State) : List HostOp × Option StepResult × Bool × Bool :=
  (s.host, s.out, s.resetSeen, s.unofficialSeen)

theorem commandRule_interface (mn : Mnemonic) (s : State) : (mn.commandRule s).interface = s.interface := by
  cases mn with
  | brk =>
    obtain ⟨p, m, b, hrule, -⟩ := commandRule_brk s
    simp only [hrule, State.interface]
  | rti | rts => simp only [Mnemonic.commandRule, returnFromTrap_eq, pop16_eq, State.interface]
  | _ => rfl

theorem argumentRule_interface (mn : Mnemonic) (m : Byte) (s : State) :
    (mn.argumentRule m s).interface = s.interface := by
  cases mn with
  | adc | sbc => simp only [Mnemonic.argumentRule, adc_eq, sbc_eq, State.interface]
  | _ => rfl

theorem memoryRule_interface (mn : Mnemonic) (ea : Word) (s : State) :
    (mn.memoryRule ea s).interface = s.interface := by
  cases mn with
  | jsr => simp only [Mnemonic.memoryRule, callSub, push16_eq, State.interface]
  | inc | dec =>
    rw [memoryRule_count (by decide), setNZ_memWrite_memRead_eq]
    simp only [State.interface]
  | _ => rfl

/-- No part of an instruction touches the interface. -/
theorem interface_keptByParts (i : Instr) (s : State) : KeptByParts i (fun t => t.interface = s.interface) where
  reads _ _ _ h := h
  command t h := (commandRule_interface _ t).trans h
  branch _ _ _ h := h
  argument m t h := (argumentRule_interface _ m t).trans h
  memory ea t h := (memoryRule_interface _ ea t).trans h
  shift _ _ _ h := h
  accumulator _ _ _ h := h
  store _ _ _ h := h

/-- Settles O58: the interface is kept by every part, and the accesses are those of the two columns of R85. -/
theorem instructionsLeaveTheHostInterface : Obligations.InstructionsLeaveTheHostInterface := by
  intro i s t hexec
  have hkept : t.interface = s.interface := (interface_keptByParts i s).kept rfl hexec
  simp only [State.interface, Prod.mk.injEq] at hkept
  obtain ⟨hhost, hout, hreset, hseen⟩ := hkept
  exact ⟨hhost, hout, hreset, hseen, accessesAt_exec hexec⟩

/-! ## Who writes a register -/

/-- The four 8-bit registers other than P. -/
inductive Register where
  | a | x | y | s

def Register.read : Register → State → Byte
  | .a, t => t.A
  | .x, t => t.X
  | .y, t => t.Y
  | .s, t => t.S

/-- The mnemonics in the lists "Written by" of R11 to R14; those that write A in Accumulator mode only are left out. -/
def Register.writers : Register → List Mnemonic
  | .a => [.lda, .pla, .txa, .tya, .adc, .sbc, .and, .eor, .ora]
  | .x => [.ldx, .tax, .tsx, .inx, .dex]
  | .y => [.ldy, .tay, .iny, .dey]
  | .s => [.txs, .pha, .php, .pla, .plp, .jsr, .rts, .brk, .rti]

/-- BRK and RTI move S and leave A, X and Y. -/
theorem commandRule_trap_register {mn : Mnemonic} (hmn : mn = .brk ∨ mn = .rti) {r : Register} (hr : r ≠ .s)
    (t : State) : r.read (mn.commandRule t) = r.read t := by
  rcases hmn with rfl | rfl
  · obtain ⟨p, m, b, hrule, -⟩ := commandRule_brk t
    rw [hrule]
    cases r with
    | s => exact absurd rfl hr
    | _ => rfl
  · rw [Mnemonic.commandRule, returnFromTrap_eq]
    cases r with
    | s => exact absurd rfl hr
    | _ => rfl

section

variable {mn : Mnemonic} {r : Register} (h : mn ∉ r.writers)

include h

theorem commandRule_register (t : State) : r.read (mn.commandRule t) = r.read t := by
  cases r with
  | a =>
    cases mn with
    | pla | txa | tya => exact absurd (by decide) h
    | brk | rti => exact commandRule_trap_register (by decide) (by simp) t
    | _ => rfl
  | x =>
    cases mn with
    | tax | tsx | inx | dex => exact absurd (by decide) h
    | brk | rti => exact commandRule_trap_register (by decide) (by simp) t
    | _ => rfl
  | y =>
    cases mn with
    | tay | iny | dey => exact absurd (by decide) h
    | brk | rti => exact commandRule_trap_register (by decide) (by simp) t
    | _ => rfl
  | s =>
    cases mn with
    | txs | pha | php | pla | plp | rts | brk | rti => exact absurd (by decide) h
    | _ => rfl

theorem argumentRule_register (m : Byte) (s : State) : r.read (mn.argumentRule m s) = r.read s := by
  cases r with
  | a =>
    cases mn with
    | lda | adc | sbc | and | eor | ora => exact absurd (by decide) h
    | _ => rfl
  | x =>
    cases mn with
    | ldx => exact absurd (by decide) h
    | _ => rfl
  | y =>
    cases mn with
    | ldy => exact absurd (by decide) h
    | _ => rfl
  | s => cases mn <;> rfl

theorem memoryRule_register (ea : Word) (s : State) : r.read (mn.memoryRule ea s) = r.read s := by
  cases r with
  | a | x | y => cases mn <;> rfl
  | s =>
    cases mn with
    | jsr => exact absurd (by decide) h
    | _ => rfl

end

/-- A register that the instruction is not listed for is kept by every part of it. -/
theorem register_keptByParts {i : Instr} {r : Register} (h : i.mnemonic ∉ r.writers)
    (hacc : r = .a → i.mode ≠ .accumulator) (s : State) : KeptByParts i (fun t => r.read t = r.read s) where
  reads _ _ t ht := by cases r <;> exact ht
  command t ht := (commandRule_register h t).trans ht
  branch _ _ t ht := by cases r <;> exact ht
  argument m t ht := (argumentRule_register h m t).trans ht
  memory ea t ht := (memoryRule_register h ea t).trans ht
  shift _ _ t ht := by cases r <;> exact ht
  accumulator hmode _ t ht := by
    cases r with
    | a => exact absurd hmode (hacc rfl)
    | _ => exact ht
  store _ _ t ht := by cases r <;> exact ht

/-- A mnemonic with Accumulator mode is one of the shifts (R57, R70). -/
theorem mnemonic_of_accumulator {i : Instr} (h : i.mode = .accumulator) :
    i.mnemonic ∈ [Mnemonic.asl, .lsr, .rol, .ror] := by
  cases i with
  | aslAcc | lsrAcc | rolAcc | rorAcc => decide
  | _ => cases h

theorem mem_writers_of_register_changed {i : Instr} {s t : State} (hexec : exec i s = .next t) {r : Register}
    (hne : r.read t ≠ r.read s) : i.mnemonic ∈ r.writers ∨ (r = .a ∧ i.mode = .accumulator) := by
  by_contra hnot
  rw [not_or] at hnot
  obtain ⟨hmem, hacc⟩ := hnot
  exact hne ((register_keptByParts hmem (fun hr hmode => hacc ⟨hr, hmode⟩) s).kept rfl hexec)

/-- Settles O55: a register that changed is one that the mnemonic is listed for. -/
theorem whoWritesARegister : Obligations.WhoWritesARegister := by
  intro i s
  obtain ⟨t, hexec⟩ := exec_next i s
  have changed (r : Register) : r.read t ≠ r.read s → i.mnemonic ∈ r.writers ∨ (r = .a ∧ i.mode = .accumulator) :=
    mem_writers_of_register_changed hexec
  refine ⟨t, hexec, fun hA => ?_, fun hX => ?_, fun hY => ?_, fun hS => ?_, fun hPC => ?_⟩
  · exact (changed .a hA).imp_right fun ⟨_, hmode⟩ => ⟨mnemonic_of_accumulator hmode, hmode⟩
  · exact (changed .x hX).resolve_right (by simp)
  · exact (changed .y hY).resolve_right (by simp)
  · exact (changed .s hS).resolve_right (by simp)
  · by_contra hnot
    rw [not_or] at hnot
    exact hPC (exec_PC hexec hnot.2 hnot.1)

end Sys2Proof

/-! The invariant (10_state.md sections 4 and 6, 20_memory.md section 8): the next states that a step can give, each of
which keeps it. -/

namespace Sys2Proof

open Machine

/-! ## What a step can do -/

/-- The next states that a step of `s` can give. -/
inductive StepTo (s : State) : State → Prop where
  | hostWrite (a : Word) (v : Byte) : StepTo s (opWrite a v s.popOp)
  | reset : StepTo s (opReset s.popOp)
  | irqDropped : StepTo s s.popOp.beginOp
  | interrupt (v : Word) (hv : 511 < v.toNat) (hv' : v.toNat < 65535) :
      StepTo s (takeTrap false true v s.popOp.beginOp)
  | unofficial (hlookup : lookup (s.answer 0 s.PC) = none) :
      StepTo s ((afterFetchOf s 1).signalUnofficial (s.answer 0 s.PC) s.PC)
  | instruction {i : Instr} {t : State} {e : DecodeEntry} (hexec : exec i (afterFetch s i) = .next t)
      (he : e ∈ opcodeTable) : StepTo s (t.returnCycles e.cycles)

theorem stepTo_of_step_irq {s : State} (ho : s.nextOp = .irq) (hr : s.resetSeen = true) {t : State}
    (h : step s = .next t) : StepTo s t := by
  cases hi : flagOf .i s.P with
  | true =>
    obtain rfl := Host.Outcome.next.inj ((irqIsDroppedWhenIIsSet s ho hr hi).symm.trans h)
    exact .irqDropped
  | false =>
    obtain rfl := Host.Outcome.next.inj ((step_of_irq ho hr hi).symm.trans h)
    exact .interrupt _ (by decide) (by decide)

theorem stepTo_of_step_step {s : State} (ho : s.nextOp = .step) (hr : s.resetSeen = true) {t : State}
    (h : step s = .next t) : StepTo s t := by
  rcases decodes_or_unofficial s with ⟨i, rest, hdecode⟩ | hlookup
  · obtain ⟨e, u, hlookup, -, -, hexec, hstep⟩ := step_of_runsNext ⟨hr, ho, rest, hdecode⟩
    obtain rfl := Host.Outcome.next.inj (hstep.symm.trans h)
    exact .instruction hexec (lookup_eq_some hlookup).1
  · obtain rfl := Host.Outcome.next.inj ((stepWith_of_unofficial hr ho hlookup).symm.trans h)
    exact .unofficial hlookup

/-- No step but a RESET, a memory write and a bus failure is made before the first RESET (R27, D2). -/
theorem resetSeen_of_step {s t : State} (h : step s = .next t) (ho : s.nextOp ∈ [HostOp.step, .irq, .nmi]) :
    s.resetSeen = true := by
  cases hr : s.resetSeen with
  | true => rfl
  | false => cases h.symm.trans (stepWith_of_refusedNext _ ⟨hr, ho⟩)

theorem stepTo_of_step {s t : State} (h : step s = .next t) : StepTo s t := by
  cases ho : s.nextOp with
  | write a v =>
    obtain rfl := Host.Outcome.next.inj ((stepWith_of_write _ ho).symm.trans h)
    exact .hostWrite a v
  | busError => cases h.symm.trans (stepWith_of_busError _ ho)
  | reset =>
    obtain rfl := Host.Outcome.next.inj ((stepWith_eq_operation _ (.inl ho)).symm.trans h)
    rw [ho]
    exact .reset
  | irq => exact stepTo_of_step_irq ho (resetSeen_of_step h (by simp [ho])) h
  | nmi =>
    obtain rfl := Host.Outcome.next.inj ((step_of_nmi ho (resetSeen_of_step h (by simp [ho]))).symm.trans h)
    exact .interrupt _ (by decide) (by decide)
  | step => exact stepTo_of_step_step ho (resetSeen_of_step h (by simp [ho])) h

/-! ## Memory -/

/-- Writes of words as addresses keep the canonical form. -/
theorem replay_wf (acc : List BusAccess) {m : List Host.Cell} (h : Memory.wf m = true) :
    Memory.wf (replay acc m) = true := by
  induction acc generalizing m with
  | nil => exact h
  | cons x acc ih =>
    cases x with
    | read a => exact ih h
    | write a v => exact ih (Memory.wf_put a v h)

theorem FollowsWrites.wf {s t : State} (h : FollowsWrites s t) (hs : Memory.wf s.mem = true) :
    Memory.wf t.mem = true := by
  obtain ⟨acc, -, hmem⟩ := h
  rw [hmem]
  exact replay_wf acc hs

/-! ## Bit 5 of P -/

theorem setNZ_bit5 (v : Byte) (s : State) : (s.setNZ v).P.getLsbD 5 = s.P.getLsbD 5 := by
  rw [setNZ_P, putFlag_bit5, putFlag_bit5]

/-- PLP and RTI set bit 5 (R19); the rules not named here leave P as it is, and so in the two lemmas that follow. -/
theorem commandRule_bit5 (mn : Mnemonic) (s : State) (h : s.P.getLsbD 5 = true) :
    (mn.commandRule s).P.getLsbD 5 = true := by
  cases mn with
  | clc | cld | cli | clv | sec | sed | sei => exact (putFlag_bit5 _ _ _).trans h
  | dex | dey | inx | iny | tax | tay | txa | tya | tsx => exact (setNZ_bit5 _ s).trans h
  | pla => exact (setNZ_bit5 _ (pop8 s).2).trans h
  | plp => exact or_bit5_bit5 _
  | rti => rw [Mnemonic.commandRule, returnFromTrap_eq]; exact or_bit5_bit5 _
  | brk =>
    obtain ⟨p, m, b, hrule, -, hkeep, -⟩ := commandRule_brk s
    rw [hrule]
    exact (keepsExcept_bit5 hkeep).trans h
  | _ => exact h

theorem argumentRule_bit5 (mn : Mnemonic) (m : Byte) (s : State) :
    (mn.argumentRule m s).P.getLsbD 5 = s.P.getLsbD 5 := by
  cases mn with
  | adc | sbc => exact (setNZ_bit5 _ _).trans ((putFlag_bit5 _ _ _).trans (putFlag_bit5 _ _ _))
  | cmp | cpx | cpy => exact (setNZ_bit5 _ _).trans (putFlag_bit5 _ _ _)
  | and | eor | ora | lda | ldx | ldy => exact setNZ_bit5 _ s
  | bit => exact (putFlag_bit5 _ _ _).trans ((putFlag_bit5 _ _ _).trans (putFlag_bit5 _ _ _))
  | _ => rfl

theorem memoryRule_bit5 (mn : Mnemonic) (ea : Word) (s : State) :
    (mn.memoryRule ea s).P.getLsbD 5 = s.P.getLsbD 5 := by
  cases mn with
  | inc | dec => exact setNZ_bit5 _ (memWrite ea _ (memRead ea s).2)
  | _ => rfl

/-- Bit 5, once 1, stays 1 through every part of an instruction. -/
theorem bit5_keptByParts (i : Instr) : KeptByParts i (fun t => t.P.getLsbD 5 = true) where
  reads _ _ _ h := h
  command := commandRule_bit5 i.mnemonic
  branch _ _ _ h := h
  argument m t h := (argumentRule_bit5 _ m t).trans h
  memory ea t h := (memoryRule_bit5 _ ea t).trans h
  shift _ _ _ h := (setNZ_bit5 _ _).trans ((putFlag_bit5 _ _ _).trans h)
  accumulator _ _ _ h := h
  store _ _ _ h := h

/-! ## The number of bus accesses -/

/-- The three columns of R85 together: BRK has the most with 1 + 0 + 5. -/
theorem accesses_le_six (i : Instr) (s : State) :
    i.length + (resolverPlaces i s).length + (executePlaces i s).length ≤ 6 := by
  cases i <;> exact Nat.le_of_ble_eq_true rfl

theorem fetchReads_length (pc : Word) (n : Nat) : (fetchReads pc n).length = n := by
  induction n generalizing pc with
  | zero => rfl
  | succ n ih => rw [fetchReads, List.length_cons, ih]

theorem exec_bus_length {i : Instr} {s t : State} (h : exec i (afterFetch s i) = .next t) : t.bus.length ≤ 6 := by
  obtain ⟨acc, hbus, -, hplaces⟩ := accessesAt_exec h
  have hfetch : (afterFetch s i).bus = fetchReads s.PC i.length := rfl
  have hlen : acc.length = _ := (List.length_map _).symm.trans (congrArg List.length hplaces)
  have hle := accesses_le_six i (afterFetch s i)
  rw [hbus, hfetch, List.length_append, fetchReads_length, hlen, List.length_append]
  omega

/-! ## The invariant -/

/-- Settles O54: P is 0x20 after reset, and no RESET has been issued at power-on; neither state lists a byte of memory
or has a returned value. -/
theorem resetStateMeetsTheInvariant : Obligations.ResetStateMeetsTheInvariant :=
  ⟨⟨rfl, fun _ => rfl, by decide, trivial⟩, ⟨rfl, fun h => absurd h Bool.false_ne_true, Nat.zero_le 6, trivial⟩⟩

/-- The entry that a STEP returned the cycles of has 2 to 7 of them (R84). -/
theorem returnOk_returnCycles {e : DecodeEntry} (he : e ∈ opcodeTable) (s : State) :
    returnOk (s.returnCycles e.cycles) :=
  (Config.opcodeMap.entry_wf he).2

theorem StepTo.inv {s t : State} (h : StepTo s t) (hs : Inv s) : Inv t := by
  obtain ⟨hmem, hbit, hacc, hret⟩ := hs
  cases h with
  | hostWrite a v => exact ⟨Memory.wf_put a v hmem, hbit, hacc, hret⟩
  | reset =>
    rw [opReset, jumpThrough_eq]
    exact ⟨hmem, fun _ => (rfl : (0x20 : Byte).getLsbD 5 = true), (by decide : 2 ≤ 6), trivial⟩
  | irqDropped => exact ⟨hmem, hbit, Nat.zero_le 6, trivial⟩
  | interrupt v hv hv' =>
    obtain ⟨p, m, htrap, -, -, hkeep, -⟩ := takeTrap_interrupt hv hv' s
    have hwf := (followsWrites_takeTrap s.popOp.beginOp false true v).wf hmem
    rw [htrap] at hwf ⊢
    exact ⟨hwf, fun hr => (keepsExcept_bit5 hkeep).trans (hbit hr), (by decide : 5 ≤ 6), trivial⟩
  | unofficial hlookup => exact ⟨hmem, hbit, (by decide : 1 ≤ 6), rfl, hlookup, rfl⟩
  | @instruction i t e hexec he =>
    obtain ⟨-, -, hreset, -⟩ := instructionsLeaveTheHostInterface _ _ _ hexec
    have hbit' (hr : t.resetSeen = true) : t.P.getLsbD 5 = true :=
      (bit5_keptByParts i).kept (s := afterFetch s i) (hbit (hreset.symm.trans hr)) hexec
    have hacc' : t.bus.length ≤ 6 := exec_bus_length hexec
    exact ⟨(followsWrites_exec hexec).wf hmem, hbit', hacc', returnOk_returnCycles he t⟩

/-- Settles O53, from each of the next states that a step can give. -/
theorem everyStepKeepsTheInvariant : Obligations.EveryStepKeepsTheInvariant :=
  fun _ _ hs hstep => (stepTo_of_step hstep).inv hs

end Sys2Proof
